-- ==== Sys2Proof/Word.lean ====
section
/-! DEFINITION. The word types of the core: 32-bit port words and registers, 8-bit symbols and bytes
(spec/00_scope.md R6, R7). Every integer of the core is unsigned. -/

namespace Sys2Proof

/-- A 32-bit host-port word, register value or command word (R100, R21). -/
abbrev Word := BitVec 32

/-- An 8-bit symbol (`SYMW = 8`, R6) or packed byte (R27). -/
abbrev Byte := BitVec 8

/-- A node weight, `WTW = 40` bits (R6). -/
abbrev Weight := BitVec 40

/-- A node index, `IDXW = 9` bits (R6). -/
abbrev NodeIdx := BitVec 9

end Sys2Proof
end

