-- ==== Sys2Proof/Syntax.lean ====
section
/-! DEFINITION. The commands of the core, one constructor per row of spec/opcode_table.json
(spec/30_encoding.md R101), and the raw fields of a command word (R100). -/

namespace Sys2Proof

/-- The tree-building algorithm of `COMPRESS`, bit `ALG` of the word (R102). -/
inductive Alg where
  /-- `ALG = 0`: `BUILD_SF`. -/
  | shannonFano
  /-- `ALG = 1`: `BUILD_HUF`. -/
  | huffman
deriving DecidableEq, Repr

/-- The eleven commands (R101). No command but `COMPRESS` has an operand in its word (R105). -/
inductive Instr where
  /-- 0x00, R254 -/
  | nop
  /-- 0x01, R131 -/
  | analyze
  /-- 0x02, R142 -/
  | buildSf
  /-- 0x03, R163 -/
  | buildHuf
  /-- 0x04, R184 -/
  | gencodes
  /-- 0x05, R201 -/
  | pack
  /-- 0x06, R210 -/
  | unpack
  /-- 0x07, R230 -/
  | compress (alg : Alg)
  /-- 0x08, R235 -/
  | decompress
  /-- 0x09, R182 -/
  | checktree
  /-- 0x0A, R255 -/
  | clear
deriving DecidableEq, Repr

/-- The fields of a command word before they are checked (R100). -/
structure Fields where
  /-- bits 7:0 -/
  opcode   : BitVec 8
  /-- bit 8 -/
  alg      : Bool
  /-- bits 31:9 -/
  reserved : BitVec 23
deriving DecidableEq, Repr

end Sys2Proof
end

