-- ==== Sys2Proof/WellFormed.lean ====
section
/-! DEFINITION. Which command-word fields are legal (spec/30_encoding.md R106). Every term of `Instr` is well formed:
the only operand, `alg`, has two values and both are legal, so the checks stand on the raw fields. -/

namespace Sys2Proof

/-- The opcode is one of 0x00 to 0x0A (R101, R106). -/
def Fields.opcodeOk (f : Fields) : Bool := f.opcode.toNat ≤ 0x0A

/-- Bits 31:9 are 0 (R100, R106). -/
def Fields.reservedOk (f : Fields) : Bool := f.reserved == 0

/-- `ALG = 1` only with opcode 0x07, `COMPRESS` (R102, R106). -/
def Fields.algOk (f : Fields) : Bool := !f.alg || f.opcode == 0x07

/-- The word is one of the twelve legal words (R101, R106). -/
def Fields.wellFormed (f : Fields) : Bool := f.opcodeOk && f.reservedOk && f.algOk

end Sys2Proof
end

