-- ==== Sys2Proof/Decode.lean ====
section
/-! DEFINITION. Command word to command and back (spec/30_encoding.md R100, R101, R106). Decoding is total on every
32-bit word and rejects an illegal word by the name of the check it fails. -/

namespace Sys2Proof

/-- Why a word is illegal (R106). The machine reports all three as `IllegalCommand`. -/
inductive DecodeError where
  /-- `OPCODE` is 0x0B to 0xFF. -/
  | reservedOpcode
  /-- One of bits 31:9 is 1. -/
  | reservedBits
  /-- `ALG = 1` with an opcode other than `COMPRESS`. -/
  | algWithoutCompress
deriving DecidableEq, Repr

/-- The fields of a word (R100). -/
def splitWord (w : Word) : Fields :=
  { opcode := w.extractLsb' 0 8, alg := w.getLsbD 8, reserved := w.extractLsb' 9 23 }

/-- The word of the fields (R100). -/
def joinFields (f : Fields) : Word := f.reserved ++ (BitVec.ofBool f.alg ++ f.opcode)

/-- The algorithm an `ALG` bit selects (R102). -/
def algOfBit (b : Bool) : Alg := if b then .huffman else .shannonFano

/-- The command of an opcode (R101). -/
def ofOpcode (alg : Bool) : Nat → Except DecodeError Instr
  | 0x00 => .ok .nop
  | 0x01 => .ok .analyze
  | 0x02 => .ok .buildSf
  | 0x03 => .ok .buildHuf
  | 0x04 => .ok .gencodes
  | 0x05 => .ok .pack
  | 0x06 => .ok .unpack
  | 0x07 => .ok (.compress (algOfBit alg))
  | 0x08 => .ok .decompress
  | 0x09 => .ok .checktree
  | 0x0A => .ok .clear
  | _    => .error .reservedOpcode

/-- Decodes checked fields (R101, R106). -/
def decodeFields (f : Fields) : Except DecodeError Instr :=
  if !f.opcodeOk then .error .reservedOpcode
  else if !f.reservedOk then .error .reservedBits
  else if !f.algOk then .error .algWithoutCompress
  else ofOpcode f.alg f.opcode.toNat

/-- Decodes a command word, or names the check it fails (R101, R106). -/
def decode (w : Word) : Except DecodeError Instr := decodeFields (splitWord w)

/-- The opcode of a command (R101). -/
def opcodeOf : Instr → BitVec 8
  | .nop        => 0x00
  | .analyze    => 0x01
  | .buildSf    => 0x02
  | .buildHuf   => 0x03
  | .gencodes   => 0x04
  | .pack       => 0x05
  | .unpack     => 0x06
  | .compress _ => 0x07
  | .decompress => 0x08
  | .checktree  => 0x09
  | .clear      => 0x0A

/-- The `ALG` bit of a command (R102): 0 for every command but `COMPRESS` with Huffman. -/
def algBitOf : Instr → Bool
  | .nop                   => false
  | .analyze               => false
  | .buildSf               => false
  | .buildHuf              => false
  | .gencodes              => false
  | .pack                  => false
  | .unpack                => false
  | .compress .shannonFano => false
  | .compress .huffman     => true
  | .decompress            => false
  | .checktree             => false
  | .clear                 => false

/-- The command word of a command (R100, R101). -/
def encode (i : Instr) : Word := joinFields { opcode := opcodeOf i, alg := algBitOf i, reserved := 0 }

/-- The 32-bit word an instruction of `nbits` bits of the opcode table stands for: bits above `nbits` are 0. -/
def tableWord (nbits w : Nat) : Option Word :=
  let v := w % 2 ^ nbits
  if v < 2 ^ 32 then some (BitVec.ofNat 32 v) else none

/-- What the decoder reads from an instruction numbered as spec/opcode_table.json numbers it; a command is one word (R107). -/
def decodeTableWord (nbits w : Nat) : Option Instr :=
  (tableWord nbits w).bind fun v => (decode v).toOption

end Sys2Proof
end

