-- ==== Sys2Proof/Config.lean ====
section
/-! DEFINITION. What an instance of the core fixes, and the free values.
Parameters: spec/00_scope.md R6; identification constants: spec/10_state.md R44; unspecified (`any`) values:
spec/93_implementation_defined.md V1 to V5. -/

namespace Sys2Proof.Config

/-- Number of distinct symbols, `NSYM = 2^SYMW` (R6). -/
def nsym : Nat := 256

/-- Node slots of the arena, `NODE_MAX = 2*NSYM - 1` (R6, R30). -/
def nodeMax : Nat := 511

/-- `NIL`, the index that names no node (R6, R30). -/
def nil : NodeIdx := 511

/-- The longest code in bits, `CODE_MAX = NSYM - 1` (R6, R13). -/
def codeMax : Nat := 255

/-- Default capacity of `SYM`, in symbols (R6). The instance's value is the register `PARAM1`. -/
def defaultMaxLen : Word := 65536

/-- Default capacity of `BYTE`, in bytes (R6). The instance's value is the register `PARAM2`. -/
def defaultMaxBytes : Word := 131072

/-- Upper bound of both capacities (R6). -/
def capacityBound : Nat := 2 ^ 22

/-- `ID`: the ASCII letters "HTB1" (R44). -/
def idValue : Word := 0x48544231

/-- `PARAM0`: the widths `SYMW`, `CNTW`, `WTW`, `IDXW` (R44). -/
def param0Value : Word := 0x09282008

/-- DESIGN CHOICE (log 5). FREE VALUE: element `i` of a byte memory drawn with draw number `d`
(V1, V2, V3, V5). Nothing constrains it. -/
opaque anyByte (d i : Nat) : Byte

/-- DESIGN CHOICE (log 5). FREE VALUE: word `i` of a word memory drawn with draw number `d` (V1, V5). -/
opaque anyWord (d i : Nat) : Word

/-- DESIGN CHOICE (log 7). FREE VALUE: the data of a read in the busy window, drawn with draw number `d` (V4, R77). -/
opaque anyRead (d : Nat) : Word

end Sys2Proof.Config
end

