-- ==== Sys2Proof/Machine/State.lean ====
section
/-! DEFINITION. The state of the core as plain data (spec/10_state.md R20), the host's coming actions, the reasons a step
can stop, and the state after reset (R47, spec/70_reset_and_hazards.md R310). -/

namespace Sys2Proof.Machine

/-- A memory: the elements (or words) written since its contents were last drawn, by rising element number. An element
that is not listed holds a free value (log 5, 6). -/
abbrev Memory (α : Type) := List (Nat × α)

/-- The sequencer phase (R24). -/
inductive Phase where
  /-- No command is executing. -/
  | idle
  /-- The command held in `CMD` is executing. -/
  | busy
deriving DecidableEq, Repr

/-- What happens next at the core's pins: DESIGN CHOICE (log 2), the host's and the platform's coming actions. -/
inductive Input where
  /-- The host presents `MemRead(addr, 4)` (spec/20_memory.md R72). -/
  | read (addr : BitVec 28)
  /-- The host presents `MemWrite(addr, 4, v)` (R73). -/
  | write (addr : BitVec 28) (v : Word)
  /-- The host does nothing; the core moves: it completes the running command, if any (R252). -/
  | core
  /-- `rst_n` goes low (R310, R311). -/
  | resetLow
  /-- `rst_n` goes high (R310). -/
  | resetHigh
deriving DecidableEq, Repr

/-- The response to a host request (R72, R73, R79). -/
inductive Response where
  /-- `rsp_rdata` and `rsp_err` of a read. -/
  | read (rdata : Word) (err : Bool)
  /-- `rsp_err` of a write. -/
  | write (err : Bool)
deriving DecidableEq, Repr

/-- The fields of an element of `NODE` (R30). -/
structure Node where
  /-- `TAG`: true = Leaf, false = Internal. -/
  tag    : Bool
  weight : Weight
  sym    : Byte
  left   : NodeIdx
  right  : NodeIdx
deriving DecidableEq, Repr

/-- The fields of an element of `CODE` (R32). -/
structure Code where
  len  : BitVec 8
  bits : BitVec 256
deriving DecidableEq, Repr

/-- A prefix tree as a value (R29). -/
inductive Tree where
  | leaf (sym : Byte) (weight : Weight)
  | internal (left right : Tree) (weight : Weight)
deriving DecidableEq, Repr

/-- The error kinds (spec/60_exceptions.md R271). -/
inductive ErrKind where
  | emptyInput
  | unknownSymbol
  | corruptPayload
  | malformedTree
  | illegalCommand
  | capacity
  | badOperand
deriving DecidableEq, Repr

/-- A raised error: its kind and the value for `ERR_INFO` (R272). -/
structure CmdError where
  kind : ErrKind
  info : Word
deriving DecidableEq, Repr

/-- No step of the machine ends in a fault: a command's error is latched and the machine goes on (R276), a refused host
request changes nothing (R79), and every rule is total on every memory content (R313). So no constructor: nothing
raises a fault, which is safe (no behaviour is cut off). -/
inductive Fault where
deriving DecidableEq, Repr

/-- Why the model gives no meaning. -/
inductive Refusal where
  /-- Raised by an arm of `exec` for an instruction without a meaning yet; no arm does. Safe: it only stops. -/
  | notModelled (mnemonic : String)
deriving DecidableEq, Repr

/-- The whole state (R20), the host port's last response, and the model's own fields. -/
structure State where
  /-- Level of `rst_n` (R70). -/
  rstN      : Bool
  /-- `PHASE` (R24); `STATUS.BUSY` is its view. -/
  phase     : Phase
  /-- `SYM_LEN` (R36). -/
  symLen    : Word
  /-- `BYTE_LEN` (R37). -/
  byteLen   : Word
  /-- `PAD` (R38). -/
  pad       : Word
  /-- `BIT_LEN` (R39). -/
  bitLen    : Word
  /-- `ROOT.VALID` (R31). -/
  rootValid : Bool
  /-- `ROOT.IDX` (R31). -/
  rootIdx   : NodeIdx
  /-- `NNODE` (R40). -/
  nnode     : BitVec 10
  /-- `NLEAF` (R41). -/
  nleaf     : BitVec 9
  /-- `CMD` (R25). -/
  cmd       : Word
  /-- `STATUS.DONE` (R23). -/
  done      : Bool
  /-- `STATUS.ERR` (R23). -/
  err       : Bool
  /-- `STATUS.EMPTY` (R23). -/
  empty     : Bool
  /-- `STATUS.DROP` (R23). -/
  drop      : Bool
  /-- `STATUS.ERR_CODE` (R23). -/
  errCode   : BitVec 4
  /-- `ERR_INFO` (R42). -/
  errInfo   : Word
  /-- `IE.DONE_IE` (R43). -/
  doneIe    : Bool
  /-- `IE.ERR_IE` (R43). -/
  errIe     : Bool
  /-- `PARAM1` = `MAXLEN` of this instance (R44). -/
  param1    : Word
  /-- `PARAM2` = `MAXBYTES` of this instance (R44). -/
  param2    : Word
  /-- `SYM` by element number (R26). -/
  sym       : Memory Byte
  /-- `BYTE` by element number (R27). -/
  byte      : Memory Byte
  /-- `FREQ` by symbol (R28). -/
  freq      : Memory Word
  /-- `NODE` by word number `4*i + w` (R30, R76). -/
  node      : Memory Word
  /-- `CODE` by word number `9*s + w` (R32, R78). -/
  code      : Memory Word
  /-- Draw the unlisted elements of `SYM` come from (log 5). -/
  symDraw   : Nat
  /-- Draw the unlisted elements of `BYTE` come from (log 5). -/
  byteDraw  : Nat
  /-- Draw the unlisted elements of `FREQ` come from (log 5). -/
  freqDraw  : Nat
  /-- Draw the unlisted words of `NODE` come from (log 5). -/
  nodeDraw  : Nat
  /-- Draw the unlisted words of `CODE` come from (log 5). -/
  codeDraw  : Nat
  /-- Number of the next draw (log 5). -/
  draws     : Nat
  /-- Coming actions at the pins, first one next (log 2). -/
  inputs    : List Input
  /-- Response to the last host request performed since reset (log 11). -/
  rsp       : Option Response
deriving DecidableEq, Repr

/-- The state right after reset (R47, R310): registers 0, no tree, interrupt masked, memories with unspecified contents.
DESIGN CHOICE (log 5): the draw numbers 0 to 4 and the next one, 5. The instance is the default one (R6, log 8). -/
def State.reset : State where
  rstN      := true
  phase     := .idle
  symLen    := 0
  byteLen   := 0
  pad       := 0
  bitLen    := 0
  rootValid := false
  rootIdx   := 0
  nnode     := 0
  nleaf     := 0
  cmd       := 0
  done      := false
  err       := false
  empty     := false
  drop      := false
  errCode   := 0
  errInfo   := 0
  doneIe    := false
  errIe     := false
  param1    := Config.defaultMaxLen
  param2    := Config.defaultMaxBytes
  sym       := []
  byte      := []
  freq      := []
  node      := []
  code      := []
  symDraw   := 0
  byteDraw  := 1
  freqDraw  := 2
  nodeDraw  := 3
  codeDraw  := 4
  draws     := 5
  inputs    := []
  rsp       := none

end Sys2Proof.Machine
end

