-- ==== Sys2Proof/Machine/Ops.lean ====
section
/-! DEFINITION. The shared operations: the canonical memories, free values, command acceptance and completion
(spec/46_system.md R251, R252), the error latch and its clearing (spec/60_exceptions.md R276, R279), and reset
(spec/70_reset_and_hazards.md R310, R311). -/

namespace Sys2Proof.Machine

/-! ## Memories in canonical form (log 6) -/

/-- What is listed for element `i`: none when it has not been written since the contents were drawn. -/
def Memory.lookup {α : Type} : Memory α → Nat → Option α
  | [], _ => none
  | (k, v) :: m, i => if i = k then some v else Memory.lookup m i

/-- The element `i` when unlisted elements hold `free i`. -/
def Memory.readWith {α : Type} (free : Nat → α) (m : Memory α) (i : Nat) : α := (Memory.lookup m i).getD (free i)

/-- Writes one element and keeps the elements rising. -/
def Memory.put {α : Type} : Memory α → Nat → α → Memory α
  | [], i, v => [(i, v)]
  | (k, w) :: m, i, v =>
    if i < k then (i, v) :: (k, w) :: m
    else if i = k then (i, v) :: m
    else (k, w) :: Memory.put m i v

/-- The values `vs` at the element numbers `base, base+1, ...`. -/
def Memory.indexed {α : Type} : Nat → List α → Memory α
  | _, [] => []
  | base, v :: vs => (base, v) :: Memory.indexed (base + 1) vs

/-- A memory whose elements are all written, from element 0. -/
def Memory.ofList {α : Type} (vs : List α) : Memory α := Memory.indexed 0 vs

/-- Writes the elements `0 .. vs.length-1`; every other element keeps its contents. -/
def Memory.writePrefix {α : Type} (m : Memory α) (vs : List α) : Memory α :=
  Memory.indexed 0 vs ++ m.filter (fun c => decide (vs.length ≤ c.1))

/-- Element numbers strictly rising, none below `lo`. -/
def Memory.rising {α : Type} : Nat → Memory α → Bool
  | _, [] => true
  | lo, (k, _) :: m => decide (lo ≤ k) && Memory.rising (k + 1) m

/-- The canonical form: element numbers strictly rising and below the capacity. -/
def Memory.wf {α : Type} (cap : Nat) (m : Memory α) : Bool :=
  Memory.rising 0 m && m.all (fun c => decide (c.1 < cap))

/-! ## Capacities of the instance -/

/-- `MAXLEN`, the capacity of `SYM` (R6, R44). -/
def State.maxLen (s : State) : Nat := s.param1.toNat

/-- `MAXBYTES`, the capacity of `BYTE` (R6, R44). -/
def State.maxBytes (s : State) : Nat := s.param2.toNat

/-! ## Free values (log 5) -/

/-- Every element of `SYM` holds `any` value (R277, V3): a fresh draw. -/
def forgetSym (s : State) : State := { s with sym := [], symDraw := s.draws, draws := s.draws + 1 }

/-- Every element of `BYTE` holds `any` value (R277, V2): a fresh draw. -/
def forgetByte (s : State) : State := { s with byte := [], byteDraw := s.draws, draws := s.draws + 1 }

/-- Every element of the five memories holds `any` value (R310, R311, V1, V5): five fresh draws. -/
def forgetMemories (s : State) : State :=
  { s with
    sym := [], byte := [], freq := [], node := [], code := []
    symDraw := s.draws, byteDraw := s.draws + 1, freqDraw := s.draws + 2, nodeDraw := s.draws + 3
    codeDraw := s.draws + 4, draws := s.draws + 5 }

/-! ## The error latch -/

/-- The number of an error kind in `STATUS.ERR_CODE` (R271). -/
def ErrKind.code : ErrKind → BitVec 4
  | .emptyInput     => 1
  | .unknownSymbol  => 2
  | .corruptPayload => 3
  | .malformedTree  => 4
  | .illegalCommand => 5
  | .capacity       => 6
  | .badOperand     => 7

/-- ERROR ENTRY (R276): latches the error of a command whose failure effects are already in `s`. Nothing is saved
anywhere else: no stack, no mode, no vector; `CMD` still holds the failed command's word. -/
def latchError (e : CmdError) (s : State) : State :=
  { s with phase := .idle, done := true, err := true, errCode := e.kind.code, errInfo := e.info }

/-- ERROR RETURN (R279): clears `ERR`, `ERR_CODE` and `ERR_INFO`; does nothing when `ERR` is 0. -/
def clearError (s : State) : State :=
  if s.err then { s with err := false, errCode := 0, errInfo := 0 } else s

/-! ## Acceptance and completion of a command -/

/-- The core takes the command word `w` (R251, accepted branch). -/
def acceptCommand (w : Word) (s : State) : State :=
  { s with cmd := w, done := false, empty := false, phase := .busy }

/-- A dropped host write (R77, R251). -/
def dropWrite (s : State) : State := { s with drop := true }

/-- A host write of `w` to `CMD` (R251): dropped while a command runs or an error is latched, else accepted. -/
def issueCommand (w : Word) (s : State) : State :=
  if s.phase = .busy ∨ s.err = true then dropWrite s else acceptCommand w s

/-- How the pseudocode of a command ends (R252): at its end, or at a `raise`, with the state it has written. -/
inductive Result where
  | ok (s : State)
  | raised (e : CmdError) (s : State)
deriving DecidableEq, Repr

/-- Runs the next step of a sequence; a `raise` ends the sequence (R230). -/
def Result.andThen (r : Result) (f : State → Result) : Result :=
  match r with
  | .ok s => f s
  | .raised e s => .raised e s

/-- Completion without error (R252): `PHASE <- IDLE`, `DONE <- 1`. -/
def finishOk (s : State) : State := { s with phase := .idle, done := true }

/-- The completion step applied to what the pseudocode left (R252, R276). -/
def finish : Result → State
  | .ok s => finishOk s
  | .raised e s => latchError e s

/-- A command completes: always a next state (R252, R253). -/
def complete (r : Result) : Host.Outcome State Fault Refusal := .next (finish r)

/-! ## Reset -/

/-- `rst_n` goes low (R310, R311): every register takes its reset value, a running command is abandoned, the memories
hold `any` values. The instance's constants stay. -/
def enterReset (s : State) : State :=
  forgetMemories
    { s with
      rstN := false, phase := .idle
      symLen := 0, byteLen := 0, pad := 0, bitLen := 0, rootValid := false, rootIdx := 0, nnode := 0, nleaf := 0
      cmd := 0, done := false, err := false, empty := false, drop := false, errCode := 0, errInfo := 0
      doneIe := false, errIe := false, rsp := none }

/-- `rst_n` goes high (R310): the core is in the reset state and host requests are performed from now on. -/
def leaveReset (s : State) : State := { s with rstN := true }

end Sys2Proof.Machine
end

