-- ==== Sys2Proof/Machine/Operands.lean ====
section
/-! DEFINITION. The operands of the commands (spec/30_encoding.md R105, spec/20_memory.md R87): the elements of the five
memories as the commands read and write them, and the layouts of `NODE` and `CODE` elements in words (R75, R76, R78). -/

namespace Sys2Proof.Machine

/-! ## SYM, BYTE, FREQ -/

/-- `SYM[i]` (R26). -/
def symAt (s : State) (i : Nat) : Byte := Memory.readWith (Config.anyByte s.symDraw) s.sym i

/-- The symbol sequence `SYM[0 .. n-1]` (R36). -/
def symbols (s : State) (n : Nat) : List Byte := (List.range n).map (symAt s)

/-- `BYTE[i]` (R27). -/
def byteAt (s : State) (i : Nat) : Byte := Memory.readWith (Config.anyByte s.byteDraw) s.byte i

/-- `FREQ[v]` (R28). -/
def freqAt (s : State) (v : Nat) : Word := Memory.readWith (Config.anyWord s.freqDraw) s.freq v

/-- A key of the FrequencyTable with its count (R28). -/
structure Item where
  sym  : Byte
  freq : Word
deriving DecidableEq, Repr

/-- The pairs `(v, FREQ[v])` with `FREQ[v] > 0`, by ascending symbol value (R28, R161). -/
def keyItems (s : State) : List Item :=
  (List.range Config.nsym).filterMap fun v =>
    if freqAt s v = 0 then none else some { sym := BitVec.ofNat 8 v, freq := freqAt s v }

/-! ## NODE -/

/-- The implemented bits of word `w` of a `NODE` element (R76). -/
def nodeMask (w : Nat) : Word :=
  match w with
  | 0 => 0xFFFFFFFF
  | 1 => 0x000000FF
  | 2 => 0x01FF01FF
  | _ => 0x000001FF

/-- Word number `k = 4*i + w` of `NODE` (R76). -/
def nodeWordAt (s : State) (k : Nat) : Word :=
  Memory.readWith (fun j => Config.anyWord s.nodeDraw j &&& nodeMask (j % 4)) s.node k

/-- The element the four words hold (R76). -/
def nodeOfWords (w0 w1 w2 w3 : Word) : Node where
  tag    := w3.getLsbD 8
  weight := w1.extractLsb' 0 8 ++ w0
  sym    := w3.extractLsb' 0 8
  left   := w2.extractLsb' 0 9
  right  := w2.extractLsb' 16 9

/-- The four words of an element (R76). -/
def nodeWords (n : Node) : List Word :=
  [ n.weight.extractLsb' 0 32,
    (n.weight.extractLsb' 32 8).setWidth 32,
    ((0 : BitVec 7) ++ (n.right ++ ((0 : BitVec 7) ++ n.left))),
    ((0 : BitVec 23) ++ (BitVec.ofBool n.tag ++ n.sym)) ]

/-- `NODE[i]` (R30). -/
def nodeAt (s : State) (i : Nat) : Node :=
  nodeOfWords (nodeWordAt s (4 * i)) (nodeWordAt s (4 * i + 1)) (nodeWordAt s (4 * i + 2)) (nodeWordAt s (4 * i + 3))

/-- `Leaf(sym, w)` (R8). -/
def leafNode (sym : Byte) (w : Weight) : Node :=
  { tag := true, weight := w, sym := sym, left := Config.nil, right := Config.nil }

/-- `Internal(l, r, w)` (R8). -/
def internalNode (l r : Nat) (w : Weight) : Node :=
  { tag := false, weight := w, sym := 0, left := BitVec.ofNat 9 l, right := BitVec.ofNat 9 r }

/-! ## CODE -/

/-- The implemented bits of word `w` of a `CODE` element (R78). -/
def codeMask (w : Nat) : Word :=
  match w with
  | 0 => 0x000000FF
  | _ => 0xFFFFFFFF

/-- Word number `k = 9*v + w` of `CODE` (R78). -/
def codeWordAt (s : State) (k : Nat) : Word :=
  Memory.readWith (fun j => Config.anyWord s.codeDraw j &&& codeMask (j % 9)) s.code k

/-- `CODE[v].LEN` (R32, R78). -/
def codeLen (s : State) (v : Nat) : Nat := ((codeWordAt s (9 * v)).extractLsb' 0 8).toNat

/-- `CODE[v].BITS[k]` (R32, R78). -/
def codeBit (s : State) (v k : Nat) : Bool := (codeWordAt s (9 * v + 1 + k / 32)).getLsbD (k % 32)

/-- The code string of symbol `v`, first bit first; empty when the table has no entry (R32, R33). -/
def codeString (s : State) (v : Nat) : List Bool :=
  (List.range (codeLen s v)).map fun j => codeBit s v (codeLen s v - 1 - j)

/-- `CODE[v]` (R32). -/
def codeAt (s : State) (v : Nat) : Code where
  len  := (codeWordAt s (9 * v)).extractLsb' 0 8
  bits := codeWordAt s (9 * v + 8) ++ (codeWordAt s (9 * v + 7) ++ (codeWordAt s (9 * v + 6) ++ (codeWordAt s (9 * v + 5) ++
    (codeWordAt s (9 * v + 4) ++ (codeWordAt s (9 * v + 3) ++ (codeWordAt s (9 * v + 2) ++ codeWordAt s (9 * v + 1)))))))

/-- The nine words of an element (R78). -/
def codeWords (c : Code) : List Word :=
  c.len.setWidth 32 :: (List.range 8).map fun w => c.bits.extractLsb' (32 * w) 32

/-- The absent entry (R32). -/
def noCode : Code := { len := 0, bits := 0 }

/-- All words of a `CODE` memory whose element `v` is `f v` (R78). -/
def codeTableWords (f : Nat → Code) : List Word := (List.range Config.nsym).flatMap fun v => codeWords (f v)

/-- The empty table: every `CODE[v] = {LEN = 0, BITS = 0}`. -/
def emptyCodeTable : Memory Word := Memory.ofList (codeTableWords fun _ => noCode)

/-! ## The payload as bits (R80) -/

/-- Bit `j` of the payload: bit `7 - (j mod 8)` of `BYTE[j div 8]` (R80). -/
def payloadBit (s : State) (j : Nat) : Bool := (byteAt s (j / 8)).getLsbD (7 - j % 8)

/-- The first `n` bits of the payload (R207, R210). -/
def payloadBits (s : State) (n : Nat) : List Bool := (List.range n).map (payloadBit s)

/-- The byte of eight bits, the first one most significant (R80). -/
def byteOfBits (bs : List Bool) : Byte := BitVec.ofNat 8 (bs.foldl (fun acc b => 2 * acc + b.toNat) 0)

/-- Groups a stream of a multiple of 8 bits into bytes (R80, R201). -/
def groupBytes : List Bool → List Byte
  | b0 :: b1 :: b2 :: b3 :: b4 :: b5 :: b6 :: b7 :: rest => byteOfBits [b0, b1, b2, b3, b4, b5, b6, b7] :: groupBytes rest
  | _ => []

end Sys2Proof.Machine
end

