-- ==== Sys2Proof/Machine/Arena.lean ====
section
/-! DEFINITION. What both tree builders do with the arena (spec/10_state.md R30, R35, spec/41_build_sf.md R142,
spec/42_build_huf.md R163). -/

namespace Sys2Proof.Machine

/-- The words of nodes at consecutive indices from 0 (R76). -/
def arenaWords (nodes : List Node) : List Word := nodes.flatMap nodeWords

/-- The result of a build that created `nodes` in order, `n` of them leaves: `NODE[0 .. NNODE-1]`, `ROOT` at the last node,
`NNODE`, `NLEAF`; the entries at and above `NNODE` keep their contents (R35, R142, R163, D34). -/
def installTree (nodes : List Node) (n : Nat) (s : State) : State :=
  { s with
    node := Memory.writePrefix s.node (arenaWords nodes)
    rootValid := true
    rootIdx := BitVec.ofNat 9 (nodes.length - 1)
    nnode := BitVec.ofNat 10 nodes.length
    nleaf := BitVec.ofNat 9 n }

/-- `EmptyInput(0)` from a builder and its failure effects: no tree, `ROOT.IDX` and `NODE` unchanged (R277). -/
def noTree (s : State) : Result :=
  .raised { kind := .emptyInput, info := 0 } { s with rootValid := false, nnode := 0, nleaf := 0 }

end Sys2Proof.Machine
end

