-- ==== Sys2Proof/Machine/BuildHuf.lean ====
section
/-! DEFINITION. `BUILD_HUF`, the Huffman tree builder (spec/42_build_huf.md R160 to R167). -/

namespace Sys2Proof.Machine

/-- A node in the min-priority structure: its weight and its index, which is its sequence number (R35, R162). -/
structure QEntry where
  weight : Weight
  idx    : Nat
deriving DecidableEq, Repr

/-- `a` is lower than `b`: smaller weight, or equal weight and smaller index (R162). -/
def QEntry.lower (a b : QEntry) : Bool :=
  decide (a.weight.toNat < b.weight.toNat) || (a.weight == b.weight && decide (a.idx < b.idx))

/-- Adds a node; the structure is kept lowest first, so `ExtractMin` takes the head (R45: any structure will do). -/
def enqueue (e : QEntry) : List QEntry → List QEntry
  | [] => [e]
  | x :: q => if e.lower x then e :: x :: q else x :: enqueue e q

/-- The leaves in creation order: ascending symbol value (R161). -/
def leafNodes (items : List Item) : List Node := items.map fun x => leafNode x.sym (x.freq.setWidth 40)

/-- The structure after the leaves are created, node `base` first (R163). -/
def leafQueue : Nat → List Item → List QEntry
  | _, [] => []
  | base, x :: xs => enqueue { weight := x.freq.setWidth 40, idx := base } (leafQueue (base + 1) xs)

/-- The merges (R163): the two lowest nodes become left and right child of the node with the next index (D15). Each merge
shortens the structure by one, so its length bounds the loop (log 19). -/
def mergeNodes : Nat → List QEntry → Nat → List Node
  | fuel + 1, a :: b :: q, next =>
    let w := a.weight + b.weight
    internalNode a.idx b.idx w :: mergeNodes fuel (enqueue { weight := w, idx := next } q) (next + 1)
  | _, _, _ => []

/-- All nodes of the Huffman arena in creation order (R163). -/
def huffmanNodes (items : List Item) : List Node :=
  leafNodes items ++ mergeNodes items.length (leafQueue 0 items) items.length

/-- The pseudocode of `BUILD_HUF` (R163). -/
def buildHufEffect (s : State) : Result :=
  if keyItems s = [] then noTree s
  else .ok (installTree (huffmanNodes (keyItems s)) (keyItems s).length s)

/-- `BUILD_HUF` (R163). -/
def execBuildHuf (s : State) : Host.Outcome State Fault Refusal := complete (buildHufEffect s)

end Sys2Proof.Machine
end

