-- ==== Sys2Proof/Machine/BuildSf.lean ====
section
/-! DEFINITION. `BUILD_SF`, the Shannon-Fano tree builder (spec/41_build_sf.md R140 to R146). -/

namespace Sys2Proof.Machine

/-- `a` comes before `b` in the sorted list: frequency descending, then symbol value ascending (R141). -/
def Item.before (a b : Item) : Bool :=
  decide (b.freq.toNat < a.freq.toNat) || (a.freq == b.freq && decide (a.sym.toNat < b.sym.toNat))

/-- Inserts an item into a sorted list (R141; the sorter is hidden, R45). -/
def insertItem (x : Item) : List Item → List Item
  | [] => [x]
  | y :: ys => if x.before y then x :: y :: ys else y :: insertItem x ys

/-- The list in the order of R141. -/
def sortItems : List Item → List Item
  | [] => []
  | x :: xs => insertItem x (sortItems xs)

/-- The frequencies of a list of items. -/
def freqs (items : List Item) : List Nat := items.map fun x => x.freq.toNat

/-- `|a - b|` on exact integers (R145). -/
def absDiff (a b : Nat) : Nat := (a - b) + (b - a)

/-- The scan of the candidates after the first (R143): `cum` is the weight left of candidate `k - 1`; the list is
`f[k-1], ..., f[m-1]`. A candidate replaces the best only when it is strictly better. -/
def splitScan (total : Nat) : List Nat → Nat → Nat → Nat → Nat → Nat
  | x :: y :: rest, cum, k, bestD, bestK =>
    let d := absDiff (2 * (cum + x)) total
    if d < bestD then splitScan total (y :: rest) (cum + x) (k + 1) d k
    else splitScan total (y :: rest) (cum + x) (k + 1) bestD bestK
  | _, _, _, _, bestK => bestK

/-- The split index of a range with these frequencies, relative to the range: in `[1, m-1]` for `m >= 2` (R143, R144). -/
def splitIndex : List Nat → Nat
  | [] => 0
  | f :: rest => splitScan (f + rest.sum) rest f 2 (absDiff (2 * f) (f + rest.sum)) 1

/-- The weight of a tree's root. -/
def Tree.weight : Tree → Weight
  | .leaf _ w => w
  | .internal _ _ w => w

/-- `Build` (R142) as a tree. The first argument bounds the recursion: the depth is at most the number of items
(R146(f)); `sfTree items.length items` never exhausts it (log 19). -/
def sfTree : Nat → List Item → Tree
  | _, [x] => .leaf x.sym (x.freq.setWidth 40)
  | fuel + 1, x :: y :: rest =>
    let items := x :: y :: rest
    let k := splitIndex (freqs items)
    let l := sfTree fuel (items.take k)
    let r := sfTree fuel (items.drop k)
    .internal l r (l.weight + r.weight)
  | _, _ => .leaf 0 0

/-- Number of nodes of a tree. -/
def Tree.size : Tree → Nat
  | .leaf _ _ => 1
  | .internal l r _ => l.size + r.size + 1

/-- The nodes of a tree in creation order when the next free index is `base`: left subtree, right subtree, parent, so a
subtree's root is the last of its nodes (R142, D16). -/
def Tree.postorder : Tree → Nat → List Node
  | .leaf sym w, _ => [leafNode sym w]
  | .internal l r w, base =>
    l.postorder base ++ r.postorder (base + l.size) ++
      [internalNode (base + l.size - 1) (base + l.size + r.size - 1) w]

/-- The Shannon-Fano tree of the FrequencyTable (R141, R142). -/
def shannonFanoTree (s : State) : Tree :=
  let items := sortItems (keyItems s)
  sfTree items.length items

/-- The pseudocode of `BUILD_SF` (R142). -/
def buildSfEffect (s : State) : Result :=
  if keyItems s = [] then noTree s
  else .ok (installTree ((shannonFanoTree s).postorder 0) (keyItems s).length s)

/-- `BUILD_SF` (R142). -/
def execBuildSf (s : State) : Host.Outcome State Fault Refusal := complete (buildSfEffect s)

end Sys2Proof.Machine
end

