-- ==== Sys2Proof/Machine/Analyze.lean ====
section
/-! DEFINITION. `ANALYZE` (spec/40_analyze.md R130, R131). -/

namespace Sys2Proof.Machine

/-- The whole FrequencyTable of a symbol sequence: entry `v` is the number of occurrences of `v` (R131). -/
def countTable (syms : List Byte) : List Word :=
  (List.range Config.nsym).map fun v => BitVec.ofNat 32 (syms.count (BitVec.ofNat 8 v))

/-- `BadOperand(0x020)`: `SYM_LEN > MAXLEN` (R272, R283). -/
def badSymLen : CmdError := { kind := .badOperand, info := 0x020 }

/-- The pseudocode of `ANALYZE` (R131); nothing is written on the error (R277). -/
def analyzeEffect (s : State) : Result :=
  if s.maxLen < s.symLen.toNat then .raised badSymLen s
  else .ok { s with freq := Memory.ofList (countTable (symbols s s.symLen.toNat)) }

/-- `ANALYZE` (R131). -/
def execAnalyze (s : State) : Host.Outcome State Fault Refusal := complete (analyzeEffect s)

end Sys2Proof.Machine
end

