-- ==== Sys2Proof/Machine/Codes.lean ====
section
/-! DEFINITION. `TreeCheck`, `CHECKTREE` and `GENCODES` (spec/43_codes_and_tree_check.md R180 to R186). -/

namespace Sys2Proof.Machine

/-- The verdict of `TreeCheck` (R181). -/
inductive TreeVerdict where
  | ok
  | bad (info : Word)
deriving DecidableEq, Repr

/-- The loop of `TreeCheck` (R181): pre-order, left before right. The first argument bounds the pops: each one that passes
the `visited` test adds one of 511 indices, so 512 are enough (log 19). -/
def treeCheckLoop (nodeOf : Nat → Node) : Nat → List Nat → List Nat → List Byte → TreeVerdict
  | _, [], _, _ => .ok
  | 0, i :: _, _, _ => .bad (BitVec.ofNat 32 i)
  | fuel + 1, i :: stack, visited, seen =>
    if i ∈ visited then .bad (BitVec.ofNat 32 i)
    else if (nodeOf i).tag then
      if (nodeOf i).sym ∈ seen then .bad (BitVec.ofNat 32 i)
      else treeCheckLoop nodeOf fuel stack (i :: visited) ((nodeOf i).sym :: seen)
    else if Config.nodeMax ≤ (nodeOf i).left.toNat ∨ Config.nodeMax ≤ (nodeOf i).right.toNat then .bad (BitVec.ofNat 32 i)
    else treeCheckLoop nodeOf fuel ((nodeOf i).left.toNat :: (nodeOf i).right.toNat :: stack) (i :: visited) seen

/-- `TreeCheck(ROOT.VALID, ROOT.IDX)` (R181). -/
def treeCheck (s : State) : TreeVerdict :=
  if !s.rootValid then .bad 0xFFFFFFFF
  else if Config.nodeMax ≤ s.rootIdx.toNat then .bad (s.rootIdx.setWidth 32)
  else treeCheckLoop (nodeAt s) (Config.nodeMax + 1) [s.rootIdx.toNat] [] []

/-- `MalformedTree(info)` (R272). -/
def malformedTree (info : Word) : CmdError := { kind := .malformedTree, info := info }

/-- The pseudocode of `CHECKTREE` (R182). -/
def checktreeEffect (s : State) : Result :=
  match treeCheck s with
  | .ok => .ok s
  | .bad info => .raised (malformedTree info) s

/-- `CHECKTREE` (R182). -/
def execChecktree (s : State) : Host.Outcome State Fault Refusal := complete (checktreeEffect s)

/-- `Walk` (R184): the code of every leaf below node `i`, `bits` being the path as a `len`-bit number. The first argument
bounds the depth: a well-formed tree has depth at most 255 (R186, log 19). -/
def walk (nodeOf : Nat → Node) : Nat → Nat → Nat → Nat → List (Byte × Code)
  | 0, _, _, _ => []
  | fuel + 1, i, len, bits =>
    if (nodeOf i).tag then [((nodeOf i).sym, { len := BitVec.ofNat 8 len, bits := BitVec.ofNat 256 bits })]
    else
      walk nodeOf fuel (nodeOf i).left.toNat (len + 1) (2 * bits) ++
        walk nodeOf fuel (nodeOf i).right.toNat (len + 1) (2 * bits + 1)

/-- The entry a list of assignments gives symbol `v`; absent when there is none (R184). -/
def entryOf (assigned : List (Byte × Code)) (v : Nat) : Code :=
  ((assigned.find? fun a => decide (a.1 = BitVec.ofNat 8 v)).map Prod.snd).getD noCode

/-- The codes of the tree at `root` (R184): a bare Leaf has the synthetic code "0". -/
def treeCodes (nodeOf : Nat → Node) (root : Nat) : List (Byte × Code) :=
  if (nodeOf root).tag then [((nodeOf root).sym, { len := 1, bits := 0 })]
  else walk nodeOf (Config.codeMax + 1) root 0 0

/-- The pseudocode of `GENCODES` (R184); on a malformed tree the table is emptied (R277). -/
def gencodesEffect (s : State) : Result :=
  match treeCheck s with
  | .bad info => .raised (malformedTree info) { s with code := emptyCodeTable }
  | .ok => .ok { s with code := Memory.ofList (codeTableWords (entryOf (treeCodes (nodeAt s) s.rootIdx.toNat))) }

/-- `GENCODES` (R184). -/
def execGencodes (s : State) : Host.Outcome State Fault Refusal := complete (gencodesEffect s)

end Sys2Proof.Machine
end

