-- ==== Sys2Proof/Machine/Packing.lean ====
section
/-! DEFINITION. `PACK` and `UNPACK` (spec/44_pack_unpack.md R200 to R215). -/

namespace Sys2Proof.Machine

/-! ## PACK -/

/-- The stream of a symbol sequence under a code (R201), or the first `raise`: `i` is the index of the first symbol of the
list, `len` the length of the stream so far. -/
def packStream (codeOf : Byte → List Bool) (maxBytes : Nat) : List Byte → Nat → Nat → Except CmdError (List Bool)
  | [], _, _ => .ok []
  | v :: rest, i, len =>
    if codeOf v = [] then .error { kind := .unknownSymbol, info := BitVec.ofNat 32 i }
    else if maxBytes < (len + (codeOf v).length + 7) / 8 then .error { kind := .capacity, info := BitVec.ofNat 32 i }
    else
      match packStream codeOf maxBytes rest (i + 1) (len + (codeOf v).length) with
      | .ok stream => .ok (codeOf v ++ stream)
      | .error e => .error e

/-- `padding = (8 - length mod 8) mod 8` (R200). -/
def padding (len : Nat) : Nat := (8 - len % 8) % 8

/-- The failure effects of `PACK` (R277): no payload, `BYTE` holds `any`. -/
def packFailed (s : State) : State := forgetByte { s with byteLen := 0, pad := 0, bitLen := 0 }

/-- A packed stream in `BYTE`, with its three lengths (R201); bytes at and above `BYTE_LEN` keep their contents. -/
def storePayload (stream : List Bool) (s : State) : State :=
  { s with
    byte := Memory.writePrefix s.byte (groupBytes (stream ++ List.replicate (padding stream.length) false))
    bitLen := BitVec.ofNat 32 stream.length
    pad := BitVec.ofNat 32 (padding stream.length)
    byteLen := BitVec.ofNat 32 ((stream.length + padding stream.length) / 8) }

/-- The pseudocode of `PACK` (R201). -/
def packEffect (s : State) : Result :=
  if s.maxLen < s.symLen.toNat then .raised badSymLen (packFailed s)
  else
    match packStream (fun v => codeString s v.toNat) s.maxBytes (symbols s s.symLen.toNat) 0 0 with
    | .error e => .raised e (packFailed s)
    | .ok stream => .ok (storePayload stream s)

/-- `PACK` (R201). -/
def execPack (s : State) : Host.Outcome State Fault Refusal := complete (packEffect s)

/-! ## UNPACK -/

/-- `CorruptPayload(j)` (R272). -/
def corruptPayload (j : Nat) : CmdError := { kind := .corruptPayload, info := BitVec.ofNat 32 j }

/-- Emits `sym` as output number `out` at bit `j`, or raises `Capacity(j)` (R210). -/
def emitSymbol (maxLen j out : Nat) (sym : Byte) (more : Except CmdError (List Byte)) : Except CmdError (List Byte) :=
  if maxLen ≤ out then .error { kind := .capacity, info := BitVec.ofNat 32 j }
  else
    match more with
    | .ok syms => .ok (sym :: syms)
    | .error e => .error e

/-- The loop of `UNPACK` (R210): the symbols the remaining bits emit, or the first `raise`. `j` is the index of the first
remaining bit, `cur` the traversal pointer (R211), `out` the number of symbols emitted so far. -/
def unpackLoop (nodeOf : Nat → Node) (root maxLen : Nat) : List Bool → Nat → Nat → Nat → Except CmdError (List Byte)
  | [], j, cur, _ => if cur = root then .ok [] else .error (corruptPayload j)
  | b :: bits, j, cur, out =>
    if (nodeOf root).tag then
      if b then .error (corruptPayload j)
      else emitSymbol maxLen j out (nodeOf root).sym (unpackLoop nodeOf root maxLen bits (j + 1) cur (out + 1))
    else
      let next := (if b then (nodeOf cur).right else (nodeOf cur).left).toNat
      if (nodeOf next).tag then
        emitSymbol maxLen j out (nodeOf next).sym (unpackLoop nodeOf root maxLen bits (j + 1) root (out + 1))
      else unpackLoop nodeOf root maxLen bits (j + 1) next out

/-- The failure effects of `UNPACK` (R277): no output, `SYM` holds `any`. -/
def unpackFailed (s : State) : State := forgetSym { s with symLen := 0 }

/-- The emitted symbols in `SYM` (R210); elements at and above `SYM_LEN` keep their contents. -/
def storeSymbols (syms : List Byte) (s : State) : State :=
  { s with sym := Memory.writePrefix s.sym syms, symLen := BitVec.ofNat 32 syms.length }

/-- `nbits = 8 * BYTE_LEN - PAD` (R210). -/
def payloadLength (s : State) : Nat := 8 * s.byteLen.toNat - s.pad.toNat

/-- The pseudocode of `UNPACK` (R210). -/
def unpackEffect (s : State) : Result :=
  if s.byteLen = 0 then .ok { s with symLen := 0 }
  else if s.maxBytes < s.byteLen.toNat then .raised { kind := .badOperand, info := 0x024 } (unpackFailed s)
  else if 7 < s.pad.toNat then .raised { kind := .badOperand, info := 0x028 } (unpackFailed s)
  else
    match treeCheck s with
    | .bad info => .raised (malformedTree info) (unpackFailed s)
    | .ok =>
      match unpackLoop (nodeAt s) s.rootIdx.toNat s.maxLen (payloadBits s (payloadLength s)) 0 s.rootIdx.toNat 0 with
      | .error e => .raised e (unpackFailed s)
      | .ok syms => .ok (storeSymbols syms s)

/-- `UNPACK` (R210). -/
def execUnpack (s : State) : Host.Outcome State Fault Refusal := complete (unpackEffect s)

end Sys2Proof.Machine
end

