-- ==== Sys2Proof/Machine/Facade.lean ====
section
/-! DEFINITION. `COMPRESS` and `DECOMPRESS` (spec/45_facade.md R229 to R236). -/

namespace Sys2Proof.Machine

/-- The builder an algorithm selects (R102, R230). -/
def buildEffect : Alg → State → Result
  | .shannonFano, s => buildSfEffect s
  | .huffman, s => buildHufEffect s

/-- The empty payload and no tree, written first by `COMPRESS` (R230). -/
def emptyPayload (s : State) : State := { s with byteLen := 0, pad := 0, bitLen := 0, rootValid := false }

/-- The result of `COMPRESS` on the empty sequence (R231). -/
def emptyCompression (s : State) : State := { s with nnode := 0, nleaf := 0, code := emptyCodeTable, empty := true }

/-- The pseudocode of `COMPRESS` (R230): a `raise` inside a step ends it with that error. -/
def compressEffect (alg : Alg) (s : State) : Result :=
  if s.symLen = 0 then .ok (emptyCompression (emptyPayload s))
  else
    ((analyzeEffect (emptyPayload s)).andThen (buildEffect alg)).andThen gencodesEffect |>.andThen packEffect

/-- `COMPRESS` (R230). -/
def execCompress (alg : Alg) (s : State) : Host.Outcome State Fault Refusal := complete (compressEffect alg s)

/-- The pseudocode of `DECOMPRESS` (R235). -/
def decompressEffect (s : State) : Result :=
  if s.rootValid = false ∨ s.byteLen = 0 then .ok { s with symLen := 0 }
  else unpackEffect s

/-- `DECOMPRESS` (R235). -/
def execDecompress (s : State) : Host.Outcome State Fault Refusal := complete (decompressEffect s)

end Sys2Proof.Machine
end

