-- ==== Sys2Proof/Machine/System.lean ====
section
/-! DEFINITION. `NOP`, `CLEAR` and the completion of an illegal word (spec/46_system.md R254, R255,
spec/30_encoding.md R106). -/

namespace Sys2Proof.Machine

/-- `NOP` (R254). -/
def execNop (s : State) : Host.Outcome State Fault Refusal := complete (.ok s)

/-- The node `CLEAR` writes everywhere (R255). -/
def clearedNode : Node := { tag := false, weight := 0, sym := 0, left := Config.nil, right := Config.nil }

/-- The pseudocode of `CLEAR` (R255): the tables and the operand registers; not `SYM`, `BYTE`, `IE`, `DROP`, `CMD`. -/
def clearTables (s : State) : State :=
  { s with
    freq := Memory.ofList (List.replicate Config.nsym 0)
    code := emptyCodeTable
    node := Memory.ofList ((List.replicate Config.nodeMax clearedNode).flatMap nodeWords)
    symLen := 0, byteLen := 0, pad := 0, bitLen := 0, rootValid := false, rootIdx := 0, nnode := 0, nleaf := 0 }

/-- `CLEAR` (R255). -/
def execClear (s : State) : Host.Outcome State Fault Refusal := complete (.ok (clearTables s))

/-- The completion of an illegal word: `IllegalCommand` with `ERR_INFO` the word, nothing else (R106, R277). -/
def execIllegal (s : State) : Host.Outcome State Fault Refusal :=
  complete (.raised { kind := .illegalCommand, info := s.cmd } s)

end Sys2Proof.Machine
end

