-- ==== Sys2Proof/Machine/Dispatch.lean ====
section
/-! DEFINITION. One arm per command (spec/30_encoding.md R101). `exec i s` is the completion step of command `i` on the
state at its acceptance (spec/46_system.md R252). -/

namespace Sys2Proof.Machine

def exec (i : Instr) (s : State) : Host.Outcome State Fault Refusal :=
  match i with
  | .nop => Sys2Proof.Machine.execNop s
  | .analyze => Sys2Proof.Machine.execAnalyze s
  | .buildSf => Sys2Proof.Machine.execBuildSf s
  | .buildHuf => Sys2Proof.Machine.execBuildHuf s
  | .gencodes => Sys2Proof.Machine.execGencodes s
  | .pack => Sys2Proof.Machine.execPack s
  | .unpack => Sys2Proof.Machine.execUnpack s
  | .compress alg => Sys2Proof.Machine.execCompress alg s
  | .decompress => Sys2Proof.Machine.execDecompress s
  | .checktree => Sys2Proof.Machine.execChecktree s
  | .clear => Sys2Proof.Machine.execClear s

end Sys2Proof.Machine
end

