-- ==== Sys2Proof/Machine/Flags.lean ====
section
/-! DEFINITION. The status and interrupt-enable words (spec/10_state.md R23, R43), the write-1-to-clear of `STATUS`
(R23, spec/60_exceptions.md R279) and the interrupt output (R285). -/

namespace Sys2Proof.Machine

/-- `STATUS.BUSY`: the view of `PHASE` (R24). -/
def State.busy (s : State) : Bool := s.phase == .busy

/-- The word `STATUS` reads as: bits 7:5 and 31:12 read 0 (R23). -/
def statusWord (s : State) : Word :=
  (0 : BitVec 20) ++ (s.errCode ++ ((0 : BitVec 3) ++
    (BitVec.ofBool s.drop ++ (BitVec.ofBool s.empty ++ (BitVec.ofBool s.err ++ (BitVec.ofBool s.done ++ BitVec.ofBool s.busy))))))

/-- A host write of `v` to `STATUS`: acts only through bits 1, 2 and 4 (R23, R279). -/
def writeStatus (v : Word) (s : State) : State :=
  let s := if v.getLsbD 2 then clearError s else s
  { s with done := s.done && !v.getLsbD 1, drop := s.drop && !v.getLsbD 4 }

/-- The word `IE` reads as (R43). -/
def ieWord (s : State) : Word :=
  (0 : BitVec 29) ++ (BitVec.ofBool s.errIe ++ (BitVec.ofBool s.doneIe ++ (0 : BitVec 1)))

/-- A host write of `v` to `IE`: bits 1 and 2 (R43). -/
def writeIe (v : Word) (s : State) : State := { s with doneIe := v.getLsbD 1, errIe := v.getLsbD 2 }

/-- The interrupt output, a level (R285). -/
def State.irq (s : State) : Bool := (s.doneIe && s.done) || (s.errIe && s.err)

/-- The word `ROOT` reads as: bits 30:9 read 0 (R31). -/
def rootWord (s : State) : Word := BitVec.ofBool s.rootValid ++ ((0 : BitVec 22) ++ s.rootIdx)

/-- A host write of `v` to `ROOT` (R31). -/
def writeRoot (v : Word) (s : State) : State := { s with rootValid := v.getLsbD 31, rootIdx := v.extractLsb' 0 9 }

end Sys2Proof.Machine
end

