-- ==== Sys2Proof/Machine/HostPort.lean ====
section
/-! DEFINITION. The host port: the address map, reads and writes (spec/20_memory.md R70 to R79). -/

namespace Sys2Proof.Machine

/-- The registers of address space 0 (spec/10_state.md R21, R22). -/
inductive Reg where
  | id | param0 | param1 | param2 | cmd | status | errInfo | ie
  | symLen | byteLen | pad | bitLen | root | nnode | nleaf
deriving DecidableEq, Repr

/-- The register at a word offset of space 0: byte offset `4*k` (R21, R22). -/
def regAt : Nat → Option Reg
  | 0  => some .id
  | 1  => some .param0
  | 2  => some .param1
  | 3  => some .param2
  | 4  => some .cmd
  | 5  => some .status
  | 6  => some .errInfo
  | 7  => some .ie
  | 8  => some .symLen
  | 9  => some .byteLen
  | 10 => some .pad
  | 11 => some .bitLen
  | 12 => some .root
  | 13 => some .nnode
  | 14 => some .nleaf
  | _  => none

/-- What a valid address names (R74). -/
inductive Target where
  | reg (r : Reg)
  | sym (i : Nat)
  | byte (i : Nat)
  | freq (v : Nat)
  /-- Word `w` of `NODE[i]`. -/
  | node (i w : Nat)
  /-- Word `w` of `CODE[v]`. -/
  | code (v w : Nat)
deriving DecidableEq, Repr

/-- The 28-bit byte address of a space and an offset (R74). -/
def portAddress (space : BitVec 4) (offset : BitVec 24) : BitVec 28 := space ++ offset

/-- What the word offset `k` (byte offset `4*k`) of a space names; none when it is not valid (R74, R79). -/
def targetAt (maxLen maxBytes space k : Nat) : Option Target :=
  match space with
  | 0 => (regAt k).map Target.reg
  | 1 => if k < maxLen then some (.sym k) else none
  | 2 => if k < maxBytes then some (.byte k) else none
  | 3 => if k < Config.nsym then some (.freq k) else none
  | 4 => if k / 4 < Config.nodeMax then some (.node (k / 4) (k % 4)) else none
  | 5 => if k / 16 < Config.nsym ∧ k % 16 < 9 then some (.code (k / 16) (k % 16)) else none
  | _ => none

/-- The address map; none = the access is refused: misaligned, an empty space, or an invalid offset (R74, R79). -/
def decodeAddr (s : State) (a : BitVec 28) : Option Target :=
  let offset := (a.extractLsb' 0 24).toNat
  if offset % 4 = 0 then targetAt s.maxLen s.maxBytes (a.extractLsb' 24 4).toNat (offset / 4) else none

/-- The value of a register, unimplemented bits as 0 (R72). -/
def readReg (s : State) : Reg → Word
  | .id      => Config.idValue
  | .param0  => Config.param0Value
  | .param1  => s.param1
  | .param2  => s.param2
  | .cmd     => s.cmd
  | .status  => statusWord s
  | .errInfo => s.errInfo
  | .ie      => ieWord s
  | .symLen  => s.symLen
  | .byteLen => s.byteLen
  | .pad     => s.pad
  | .bitLen  => s.bitLen
  | .root    => rootWord s
  | .nnode   => s.nnode.setWidth 32
  | .nleaf   => s.nleaf.setWidth 32

/-- The word at a valid address (R72, R75, R76, R78). -/
def readTarget (s : State) : Target → Word
  | .reg r    => readReg s r
  | .sym i    => (symAt s i).setWidth 32
  | .byte i   => (byteAt s i).setWidth 32
  | .freq v   => freqAt s v
  | .node i w => nodeWordAt s (4 * i + w)
  | .code v w => codeWordAt s (9 * v + w)

/-- The registers whose value a read returns while a command runs (R77). -/
def Reg.readableWhileBusy : Reg → Bool
  | .status | .id | .param0 | .param1 | .param2 | .ie | .cmd => true
  | .errInfo | .symLen | .byteLen | .pad | .bitLen | .root | .nnode | .nleaf => false

/-- Whether a read of the target returns its value while a command runs (R77). -/
def Target.readableWhileBusy : Target → Bool
  | .reg r => r.readableWhileBusy
  | .sym _ | .byte _ | .freq _ | .node _ _ | .code _ _ => false

/-- A read whose data is `any` (R77, V4; log 7). -/
def readAny (s : State) : State := { s with rsp := some (.read (Config.anyRead s.draws) false), draws := s.draws + 1 }

/-- `MemRead(addr, 4)` (R72, R77, R79): no register and no memory changes; only the response does. -/
def hostRead (a : BitVec 28) (s : State) : State :=
  match decodeAddr s a with
  | none => { s with rsp := some (.read 0 true) }
  | some t =>
    if s.busy && !t.readableWhileBusy then readAny s
    else { s with rsp := some (.read (readTarget s t) false) }

/-- The read-only registers of the host (R21, R22, V10). `STATUS` is not one of them: it has write-1-to-clear bits. -/
def Reg.readOnly : Reg → Bool
  | .id | .param0 | .param1 | .param2 | .errInfo | .bitLen | .nnode | .nleaf => true
  | .cmd | .status | .ie | .symLen | .byteLen | .pad | .root => false

/-- A host write to a register while no command runs (R73): a read-only register ignores it. -/
def writeReg (r : Reg) (v : Word) (s : State) : State :=
  match r with
  | .id | .param0 | .param1 | .param2 | .errInfo | .bitLen | .nnode | .nleaf => s
  | .cmd     => issueCommand v s
  | .status  => writeStatus v s
  | .ie      => writeIe v s
  | .symLen  => { s with symLen := v }
  | .byteLen => { s with byteLen := v }
  | .pad     => { s with pad := v }
  | .root    => writeRoot v s

/-- A host write while no command runs (R73): the implemented bits are stored, the others discarded. -/
def writeTarget (t : Target) (v : Word) (s : State) : State :=
  match t with
  | .reg r    => writeReg r v s
  | .sym i    => { s with sym := Memory.put s.sym i (v.extractLsb' 0 8) }
  | .byte i   => { s with byte := Memory.put s.byte i (v.extractLsb' 0 8) }
  | .freq k   => { s with freq := Memory.put s.freq k v }
  | .node i w => { s with node := Memory.put s.node (4 * i + w) (v &&& nodeMask w) }
  | .code k w => { s with code := Memory.put s.code (9 * k + w) (v &&& codeMask w) }

/-- A host write while a command runs (R77, spec/70_reset_and_hazards.md R320): `IE` and `STATUS` act; every other write,
to a read-only register too (log 9), is dropped and flagged. -/
def writeTargetBusy (t : Target) (v : Word) (s : State) : State :=
  match t with
  | .reg .ie     => writeIe v s
  | .reg .status => writeStatus v s
  | .reg _ | .sym _ | .byte _ | .freq _ | .node _ _ | .code _ _ => dropWrite s

/-- `MemWrite(addr, 4, v)` (R73, R77, R79). -/
def hostWrite (a : BitVec 28) (v : Word) (s : State) : State :=
  match decodeAddr s a with
  | none => { s with rsp := some (.write true) }
  | some t =>
    let t' := if s.busy then writeTargetBusy t v s else writeTarget t v s
    { t' with rsp := some (.write false) }

end Sys2Proof.Machine
end

