-- ==== Sys2Proof/Machine/Schedule.lean ====
section
/-! DEFINITION. What moves next (log 2): a host request, the reset pin, or the core completing its command
(spec/20_memory.md R71, R84, spec/46_system.md R252, spec/70_reset_and_hazards.md R310). -/

namespace Sys2Proof.Machine

/-- The next move of the whole: the core runs the command in `CMD` on this state, or the move is already made. -/
inductive Move where
  | runCommand (s : State)
  | moved (s : State)
deriving DecidableEq, Repr

/-- The core's own move: a running command completes (R252); otherwise nothing happens (R310). -/
def coreMove (s : State) : Move :=
  if s.rstN = true ∧ s.phase = .busy then .runCommand s else .moved s

/-- One action at the pins. While `rst_n` is low a host request is not performed (R310). -/
def perform (i : Input) (s : State) : Move :=
  match i with
  | .read a    => .moved (if s.rstN then hostRead a s else s)
  | .write a v => .moved (if s.rstN then hostWrite a v s else s)
  | .core      => coreMove s
  | .resetLow  => .moved (enterReset s)
  | .resetHigh => .moved (leaveReset s)

/-- The next move: the first coming action, or the core's own move when there is none. -/
def nextMove (s : State) : Move :=
  match s.inputs with
  | [] => coreMove s
  | i :: rest => perform i { s with inputs := rest }

/-- The command word the core runs (R24, R25, R86): it is carried by the `CMD` write itself. -/
def fetchWord (s : State) : Word := s.cmd

/-- The state whose next step runs the command word `w`: as if the host's write of `w` to `CMD` had just been accepted
(R251), with what acceptance takes (no error latched, `rst_n` high), and the core moves next (log 3). -/
def poiseCommand (w : Word) (s : State) : State :=
  acceptCommand w { s with rstN := true, err := false, errCode := 0, errInfo := 0, inputs := .core :: s.inputs }

end Sys2Proof.Machine
end

