-- ==== Sys2Proof/Machine/Step.lean ====
section
/-! DEFINITION. One step of the machine: one host request, one change of the reset pin, or the completion of the command
held in `CMD` (spec/46_system.md R252, spec/20_memory.md R84). -/

namespace Sys2Proof.Machine

/-- Runs the command word in `CMD`; an illegal word completes with `IllegalCommand` (R106, R252). -/
def runCommand (s : State) : Host.Outcome State Fault Refusal :=
  match decode (fetchWord s) with
  | .ok i => exec i s
  | .error _ => execIllegal s

/-- One step. -/
def step (s : State) : Host.Outcome State Fault Refusal :=
  match nextMove s with
  | .runCommand t => runCommand t
  | .moved t => .next t

/-- The state whose very next step runs the instruction with these bits (log 3); a word wider than a command changes
nothing. -/
def State.withFetchWord (s : State) (nbits w : Nat) : State :=
  match tableWord nbits w with
  | some v => poiseCommand v s
  | none => s

end Sys2Proof.Machine
end

