-- ==== Sys2Proof/Safety.lean ====
section
/-! DEFINITION. The terms claims are stated in: a safe step, the instance's range, the invariant, and the abstract data of
the spec (the tree an arena denotes, spec/10_state.md R29, R30; its codes, spec/43_codes_and_tree_check.md R183). -/

namespace Sys2Proof.Machine

/-! ## Runs -/

/-- The machine goes on: the step is neither a fault nor a refusal (R253, R313). -/
def SafeStep (s : State) : Prop := ∃ t, step s = .next t

/-- The capacities of the instance are in the range of R6. -/
def State.InstanceOk (s : State) : Prop :=
  1 ≤ s.maxLen ∧ s.maxLen ≤ Config.capacityBound ∧ 1 ≤ s.maxBytes ∧ s.maxBytes ≤ Config.capacityBound

/-! ## Trees -/

/-- `tree(i)` is `t`: the arena element `i` and what it reaches denote the abstract tree `t` (R29, R30). -/
inductive DenotesTree (nodeOf : Nat → Node) : Nat → Tree → Prop where
  | leaf {i : Nat} (range : i < Config.nodeMax) (tag : (nodeOf i).tag = true) :
      DenotesTree nodeOf i (.leaf (nodeOf i).sym (nodeOf i).weight)
  | internal {i : Nat} {l r : Tree} (range : i < Config.nodeMax) (tag : (nodeOf i).tag = false)
      (left : DenotesTree nodeOf (nodeOf i).left.toNat l) (right : DenotesTree nodeOf (nodeOf i).right.toNat r) :
      DenotesTree nodeOf i (.internal l r (nodeOf i).weight)

/-- The leaf symbols, left to right. -/
def Tree.symbols : Tree → List Byte
  | .leaf v _ => [v]
  | .internal l r _ => l.symbols ++ r.symbols

/-- The longest root-to-leaf path, in edges. -/
def Tree.depth : Tree → Nat
  | .leaf _ _ => 0
  | .internal l r _ => max l.depth r.depth + 1

/-- Every leaf with its path from the root: false is a left edge, true a right edge (R183). -/
def Tree.paths : Tree → List (Byte × List Bool)
  | .leaf v _ => [(v, [])]
  | .internal l r _ =>
    (l.paths.map fun p => (p.1, false :: p.2)) ++ (r.paths.map fun p => (p.1, true :: p.2))

/-- The codes of a tree: the paths, or "0" for a bare Leaf (R183). -/
def Tree.codes : Tree → List (Byte × List Bool)
  | .leaf v _ => [(v, [false])]
  | .internal l r w => (Tree.internal l r w).paths

/-- The code of a symbol; empty when the symbol is no leaf of the tree (R184). -/
def Tree.codeOf (t : Tree) (v : Byte) : List Bool :=
  ((t.codes.find? fun p => decide (p.1 = v)).map Prod.snd).getD []

/-- Every Internal node's weight is the exact sum of its children's weights (R29 (c)). -/
def Tree.WeightsAdd : Tree → Prop
  | .leaf _ _ => True
  | .internal l r w => w.toNat = l.weight.toNat + r.weight.toNat ∧ l.WeightsAdd ∧ r.WeightsAdd

/-- The state holds a well-formed tree `t` at `ROOT` (R181): a tree with pairwise distinct leaf symbols. -/
def State.HoldsTree (s : State) (t : Tree) : Prop :=
  s.rootValid = true ∧ DenotesTree (nodeAt s) s.rootIdx.toNat t ∧ t.symbols.Nodup

/-- The arena index a path leads to from `i`: false is a left edge, true a right edge; none past a Leaf or an absent
child. -/
def follow (nodeOf : Nat → Node) : List Bool → Nat → Option Nat
  | [], i => some i
  | b :: p, i =>
    let child := (if b then (nodeOf i).right else (nodeOf i).left).toNat
    if (nodeOf i).tag then none
    else if Config.nodeMax ≤ child then none
    else follow nodeOf p child

/-- Pre-order on paths, left before right: `q` ends on the way of `p`, or goes left where `p` goes right (R181). -/
def pathBefore : List Bool → List Bool → Bool
  | _, []           => false
  | [], _ :: _      => true
  | a :: q, b :: p  => (!a && b) || (a == b && pathBefore q p)

/-- The node at path `p` from `root` offends (R181): an Internal node without two children, a node met before in pre-order,
or a Leaf whose symbol was met before. -/
def Offends (nodeOf : Nat → Node) (root : Nat) (p : List Bool) : Prop :=
  ∃ i, follow nodeOf p root = some i ∧
    (((nodeOf i).tag = false ∧ ((nodeOf i).left = Config.nil ∨ (nodeOf i).right = Config.nil)) ∨
      (∃ q, pathBefore q p = true ∧ follow nodeOf q root = some i) ∨
      ((nodeOf i).tag = true ∧ ∃ q k, pathBefore q p = true ∧ follow nodeOf q root = some k ∧ (nodeOf k).tag = true ∧
        (nodeOf k).sym = (nodeOf i).sym))

/-- `i` is the first offending node in pre-order from `ROOT.IDX` (R181). -/
def State.FirstOffender (s : State) (i : Nat) : Prop :=
  ∃ p, follow (nodeAt s) p s.rootIdx.toNat = some i ∧ Offends (nodeAt s) s.rootIdx.toNat p ∧
    ∀ q, pathBefore q p = true → ¬ Offends (nodeAt s) s.rootIdx.toNat q

/-! ## Merges -/

/-- Node `a` is lower than node `b` in the priority order (spec/42_build_huf.md R162). -/
def LowerNode (nodeOf : Nat → Node) (a b : Nat) : Prop :=
  (nodeOf a).weight.toNat < (nodeOf b).weight.toNat ∨ ((nodeOf a).weight = (nodeOf b).weight ∧ a < b)

/-- Node `c` exists and is no child of a node made by the merges `n .. k-1`: it is in the priority structure when node `k`
is made (R163). -/
def Unmerged (nodeOf : Nat → Node) (n k c : Nat) : Prop :=
  c < k ∧ ∀ j, n ≤ j → j < k → (nodeOf j).left.toNat ≠ c ∧ (nodeOf j).right.toNat ≠ c

/-! ## Tables of the spec -/

/-- The byte offset of a register in space 0 (spec/10_state.md R21, R22). -/
def Reg.offset : Reg → Nat
  | .id      => 0x000
  | .param0  => 0x004
  | .param1  => 0x008
  | .param2  => 0x00C
  | .cmd     => 0x010
  | .status  => 0x014
  | .errInfo => 0x018
  | .ie      => 0x01C
  | .symLen  => 0x020
  | .byteLen => 0x024
  | .pad     => 0x028
  | .bitLen  => 0x02C
  | .root    => 0x030
  | .nnode   => 0x034
  | .nleaf   => 0x038

/-- The bits of a memory word that a host write stores (spec/20_memory.md R75, R76, R78). -/
def Target.storedBits : Target → Word
  | .reg _    => 0
  | .sym _    => 0x000000FF
  | .byte _   => 0x000000FF
  | .freq _   => 0xFFFFFFFF
  | .node _ w => nodeMask w
  | .code _ w => codeMask w

/-- Which errors a command can raise (spec/60_exceptions.md R273). -/
def errorsOf : Instr → List ErrKind
  | .nop        => []
  | .clear      => []
  | .analyze    => [.badOperand]
  | .buildSf    => [.emptyInput]
  | .buildHuf   => [.emptyInput]
  | .checktree  => [.malformedTree]
  | .gencodes   => [.malformedTree]
  | .pack       => [.unknownSymbol, .capacity, .badOperand]
  | .unpack     => [.corruptPayload, .malformedTree, .capacity, .badOperand]
  | .compress _ => [.capacity, .badOperand]
  | .decompress => [.corruptPayload, .malformedTree, .capacity, .badOperand]

/-- The builder command an algorithm selects (spec/30_encoding.md R102). -/
def builderOf : Alg → Instr
  | .shannonFano => .buildSf
  | .huffman     => .buildHuf

/-! ## The invariant -/

/-- What every step keeps. -/
structure Inv (s : State) : Prop where
  /-- The capacities are in range (R6). -/
  instanceOk : s.InstanceOk
  /-- The five memories are in canonical form (log 6). -/
  symWf  : Memory.wf s.maxLen s.sym = true
  byteWf : Memory.wf s.maxBytes s.byte = true
  freqWf : Memory.wf Config.nsym s.freq = true
  nodeWf : Memory.wf (4 * Config.nodeMax) s.node = true
  codeWf : Memory.wf (9 * Config.nsym) s.code = true
  /-- Unimplemented bits of the stored words are 0 (R76, R78). -/
  nodeBits : ∀ k v, Memory.lookup s.node k = some v → v &&& nodeMask (k % 4) = v
  codeBits : ∀ k v, Memory.lookup s.code k = some v → v &&& codeMask (k % 9) = v
  /-- `ERR = 1` implies `ERR_CODE != 0`, and no code above 7 is ever written (R23, R271). -/
  latched : s.err = true → s.errCode ≠ 0 ∧ s.errCode.toNat ≤ 7
  /-- `ERR = 0` implies `ERR_CODE = 0` and `ERR_INFO = 0` (R23, R42). -/
  unlatched : s.err = false → s.errCode = 0 ∧ s.errInfo = 0
  /-- A command runs only after an acceptance, which clears `DONE` and `EMPTY` and needs `ERR = 0` (R251). -/
  running : s.phase = .busy → s.done = false ∧ s.err = false ∧ s.empty = false
  /-- `EMPTY` is raised only by a command that completes without error (R231). -/
  emptyOk : s.empty = true → s.err = false
  /-- `NNODE = 2 * NLEAF - 1` after a build, else both 0 (R40, R41). -/
  counters : (s.nnode = 0 ∧ s.nleaf = 0) ∨ (1 ≤ s.nleaf.toNat ∧ s.nleaf.toNat ≤ 256 ∧ s.nnode.toNat = 2 * s.nleaf.toNat - 1)
  /-- `BIT_LEN <= 2^22 * 255` (R39). -/
  bitLenBound : s.bitLen.toNat ≤ Config.capacityBound * Config.codeMax
  /-- While `rst_n` is low the registers are in the reset state (R310). -/
  held : s.rstN = false →
    s.phase = .idle ∧ s.symLen = 0 ∧ s.byteLen = 0 ∧ s.pad = 0 ∧ s.bitLen = 0 ∧ s.rootValid = false ∧ s.rootIdx = 0 ∧
    s.nnode = 0 ∧ s.nleaf = 0 ∧ s.cmd = 0 ∧ s.done = false ∧ s.err = false ∧ s.empty = false ∧ s.drop = false ∧
    s.errCode = 0 ∧ s.errInfo = 0 ∧ s.doneIe = false ∧ s.errIe = false
  /-- The memories' draws are used ones, one per memory (log 5). -/
  drawsUsed : s.symDraw < s.draws ∧ s.byteDraw < s.draws ∧ s.freqDraw < s.draws ∧ s.nodeDraw < s.draws ∧ s.codeDraw < s.draws
  drawsApart : [s.symDraw, s.byteDraw, s.freqDraw, s.nodeDraw, s.codeDraw].Nodup

end Sys2Proof.Machine
end

