-- ==== Sys2Proof/Certificates/Slice0/Obligations.lean ====
section
/-! DEFINITION. The statements about the model, for the provers: each formalises rules of spec/. A next state is written
`{ s with … }`, so every field that is not named is unchanged: that is the frame of the command. A memory named
`node := t.node` is described by the clauses that follow, through the reads of its elements. -/

open Sys2Proof Sys2Proof.Machine

/-! ## Encoding -/

/-- R100, R101: a word decodes to a command exactly when it is that command's word; no bit of a word is dropped. -/
def Obligations.DecodeAcceptsExactlyTheEncodings : Prop :=
  ∀ (w : Word) (i : Instr), decode w = .ok i ↔ w = encode i

/-- R101: the twelve words, each with its command, are the only legal command words. -/
def Obligations.LegalWordsAreTheTwelve : Prop :=
  (∀ w : Word, (∃ i, decode w = .ok i) ↔
    w ∈ ([0x000, 0x001, 0x002, 0x003, 0x004, 0x005, 0x006, 0x007, 0x107, 0x008, 0x009, 0x00A] : List Word)) ∧
  decode 0x000 = .ok .nop ∧ decode 0x001 = .ok .analyze ∧ decode 0x002 = .ok .buildSf ∧ decode 0x003 = .ok .buildHuf ∧
  decode 0x004 = .ok .gencodes ∧ decode 0x005 = .ok .pack ∧ decode 0x006 = .ok .unpack ∧
  decode 0x007 = .ok (.compress .shannonFano) ∧ decode 0x107 = .ok (.compress .huffman) ∧
  decode 0x008 = .ok .decompress ∧ decode 0x009 = .ok .checktree ∧ decode 0x00A = .ok .clear

/-- R100, R101: words of the opcode table, read by the decoder. -/
def Obligations.TableWordsDecode : Prop :=
  decodeTableWord 32 0x00000000 = some .nop ∧ decodeTableWord 32 0x00000003 = some .buildHuf ∧
  decodeTableWord 32 0x00000107 = some (.compress .huffman) ∧ decodeTableWord 32 0x0000000A = some .clear ∧
  decodeTableWord 32 0x0000000B = none ∧ decodeTableWord 32 0x00000101 = none ∧ decodeTableWord 32 0x80000001 = none

/-- R106: the words illegal by one of the three conditions are those that are no command's word. Such a word, written to `CMD`
by the host while the core accepts commands, is accepted, stored in `CMD`, and completes with `IllegalCommand`, `ERR_INFO` the
word, and nothing else changed. -/
def Obligations.IllegalWordsCompleteWithIllegalCommand : Prop :=
  ∀ w : Word,
    let illegal := 0x0A < (w.extractLsb' 0 8).toNat ∨ w.extractLsb' 9 23 ≠ 0 ∨ (w.getLsbD 8 = true ∧ w.extractLsb' 0 8 ≠ 0x07)
    (illegal ↔ ∀ i, w ≠ encode i) ∧
    ∀ s : State, illegal → s.rstN = true → s.phase = .idle → s.err = false → s.inputs = [.write 0x10 w] →
      ∃ s', step s = .next s' ∧ s'.cmd = w ∧ s'.phase = .busy ∧
        step s' = .next
          { s with cmd := w, done := true, empty := false, err := true, errCode := 5, errInfo := w
                   inputs := [], rsp := some (.write false) }

/-! ## Issue and completion -/

/-- R24, R252: when a command runs and the core moves, the step is the meaning of the command that `CMD` decodes to.
R71, R72, R73: when a host request comes next, the step is that read or that write, whether or not a command runs. -/
def Obligations.StepRunsTheCommandInCmd : Prop :=
  ∀ s : State, s.rstN = true →
    (∀ i, s.phase = .busy → decode s.cmd = .ok i →
      (s.inputs = [] → step s = exec i s) ∧
      (∀ rest, s.inputs = .core :: rest → step s = exec i { s with inputs := rest })) ∧
    (∀ a rest, s.inputs = .read a :: rest → step s = .next (hostRead a { s with inputs := rest })) ∧
    (∀ a v rest, s.inputs = .write a v :: rest → step s = .next (hostWrite a v { s with inputs := rest }))

/-- R251: the two branches of a host write to `CMD`. -/
def Obligations.CommandIssue : Prop :=
  ∀ (s : State) (w : Word),
    ((s.phase = .busy ∨ s.err = true) → hostWrite 0x10 w s = { s with drop := true, rsp := some (.write false) }) ∧
    ((s.phase = .idle ∧ s.err = false) →
      hostWrite 0x10 w s = { s with cmd := w, done := false, empty := false, phase := .busy, rsp := some (.write false) })

/-- R252, R253: every command, in every state, completes: `PHASE` is `IDLE`, `DONE` is set, the latch is as it was unless the
command raised an error, and `CMD`, `IE`, `DROP`, the constants and the pins are not touched. -/
def Obligations.EveryCommandCompletes : Prop :=
  ∀ (i : Instr) (s : State), ∃ t, exec i s = .next t ∧ t.phase = .idle ∧ t.done = true ∧
    ((t.err = s.err ∧ t.errCode = s.errCode ∧ t.errInfo = s.errInfo) ∨ (t.err = true ∧ t.errCode ≠ 0)) ∧
    t.cmd = s.cmd ∧ t.drop = s.drop ∧ t.doneIe = s.doneIe ∧ t.errIe = s.errIe ∧ t.param1 = s.param1 ∧
    t.param2 = s.param2 ∧ t.rstN = s.rstN ∧ t.inputs = s.inputs ∧ t.rsp = s.rsp

/-- R253, R313: no step ends in a fault or a refusal, whatever the registers and memories hold. -/
def Obligations.EveryStepGoesOn : Prop := ∀ s : State, SafeStep s

/-- R280, R251: while an error is latched no command is accepted, whatever the host does, until reset or the clearing of `ERR`. -/
def Obligations.NoCommandWhileAnErrorIsLatched : Prop :=
  ∀ (s t : State), s.err = true → s.phase = .idle → (∀ rest, s.inputs ≠ .resetLow :: rest) → step s = .next t →
    t.phase = .idle ∧ t.cmd = s.cmd

/-- R23: `EMPTY` is set only by `COMPRESS`, and only when it found `SYM_LEN = 0`. -/
def Obligations.OnlyCompressSetsEmpty : Prop :=
  ∀ (i : Instr) (s t : State), exec i s = .next t → s.empty = false →
    (t.empty = true ↔ s.symLen = 0 ∧ ∃ alg, i = .compress alg)

/-- R20, R32, R87, R325: each memory is written only by the commands the spec names for it; the host-read-only tree registers
change only with the tree. -/
def Obligations.MemoriesAreWrittenOnlyByTheNamedCommands : Prop :=
  ∀ (i : Instr) (s t : State), exec i s = .next t →
    ((i ≠ .unpack ∧ i ≠ .decompress) → t.sym = s.sym ∧ t.symDraw = s.symDraw ∧ (i ≠ .clear → t.symLen = s.symLen)) ∧
    ((i ≠ .pack ∧ ∀ alg, i ≠ .compress alg) → t.byte = s.byte ∧ t.byteDraw = s.byteDraw ∧
      (i ≠ .clear → t.byteLen = s.byteLen ∧ t.pad = s.pad ∧ t.bitLen = s.bitLen)) ∧
    ((i ≠ .analyze ∧ i ≠ .clear ∧ ∀ alg, i ≠ .compress alg) → t.freq = s.freq) ∧ t.freqDraw = s.freqDraw ∧
    ((i ≠ .buildSf ∧ i ≠ .buildHuf ∧ i ≠ .clear ∧ ∀ alg, i ≠ .compress alg) →
      t.node = s.node ∧ t.rootValid = s.rootValid ∧ t.rootIdx = s.rootIdx ∧ t.nnode = s.nnode ∧ t.nleaf = s.nleaf) ∧
    t.nodeDraw = s.nodeDraw ∧
    ((i ≠ .gencodes ∧ i ≠ .clear ∧ ∀ alg, i ≠ .compress alg) → t.code = s.code) ∧ t.codeDraw = s.codeDraw

/-- R273: a command raises only the errors its row names; a `MalformedTree` of `DECOMPRESS` is never the absent tree. -/
def Obligations.CommandsRaiseOnlyTheirErrors : Prop :=
  ∀ (i : Instr) (s t : State), s.err = false → exec i s = .next t → t.err = true →
    ∃ k ∈ errorsOf i, t.errCode = k.code ∧
      (i = .decompress → k = .malformedTree → t.errInfo ≠ 0xFFFFFFFF) ∧
      (k = .badOperand → t.errInfo = 0x020 ∨ t.errInfo = 0x024 ∨ t.errInfo = 0x028)

/-! ## NOP, CLEAR, ANALYZE -/

/-- R254: `NOP`, word 0, changes nothing but `DONE` and the phase; its acceptance clears `EMPTY`; it is refused while an error is
latched. -/
def Obligations.NopCompletes : Prop :=
  decode 0x00000000 = .ok .nop ∧
  ∀ s : State,
    exec .nop s = .next { s with phase := .idle, done := true } ∧
    (s.phase = .idle → s.err = false →
      exec .nop (hostWrite 0x10 0x00000000 s) =
        .next { s with cmd := 0, done := true, empty := false, rsp := some (.write false) }) ∧
    (s.err = true → hostWrite 0x10 0x00000000 s = { s with drop := true, rsp := some (.write false) })

/-- R255: `CLEAR`, word 0x0A, zeroes the tables and the seven operand registers and nothing else; whatever `ROOT` the host then
writes, `TreeCheck` rejects; it is not accepted while an error is latched. -/
def Obligations.ClearZeroesTablesAndOperands : Prop :=
  decode 0x0000000A = .ok .clear ∧
  (∀ s : State, s.err = true → hostWrite 0x10 0x0000000A s = { s with drop := true, rsp := some (.write false) }) ∧
  ∀ s : State, ∃ t, exec .clear s = .next t ∧
    t = { s with
          phase := .idle, done := true, freq := t.freq, node := t.node, code := t.code
          symLen := 0, byteLen := 0, pad := 0, bitLen := 0, rootValid := false, rootIdx := 0, nnode := 0, nleaf := 0 } ∧
    (∀ v, v < 256 → freqAt t v = 0) ∧
    (∀ v, v < 256 → codeAt t v = { len := 0, bits := 0 }) ∧
    (∀ i, i < 511 → nodeAt t i = { tag := false, weight := 0, sym := 0, left := 511, right := 511 }) ∧
    (∀ valid k, treeCheck { t with rootValid := valid, rootIdx := k } ≠ .ok)

/-- R131: `ANALYZE`, word 1: `FREQ[v]` becomes the number of occurrences of `v`, and nothing else changes; a length that does not fit the buffer
is `BadOperand(0x020)` and `FREQ` is unchanged. -/
def Obligations.AnalyzeCountsOccurrences : Prop :=
  decode 0x00000001 = .ok .analyze ∧
  ∀ s : State,
    (s.symLen.toNat ≤ s.maxLen → ∃ t, exec .analyze s = .next t ∧
      t = { s with phase := .idle, done := true, freq := t.freq } ∧
      ∀ v, v < 256 →
        (freqAt t v).toNat = ((List.range s.symLen.toNat).filter fun i => (symAt s i).toNat == v).length) ∧
    (s.maxLen < s.symLen.toNat →
      exec .analyze s = .next { s with phase := .idle, done := true, err := true, errCode := 7, errInfo := 0x020 })

/-- R132: the counts `ANALYZE` writes sum to `SYM_LEN`. -/
def Obligations.AnalyzeCountsSumToTheLength : Prop :=
  ∀ s t : State, s.symLen.toNat ≤ s.maxLen → exec .analyze s = .next t →
    ((List.range 256).map fun v => (freqAt t v).toNat).sum = s.symLen.toNat

/-! ## The builders -/

/-- R28, R141, R161: the pairs are those of the keys, by ascending symbol; the sorted list is a rearrangement of them, with
frequency descending and, among equal frequencies, symbol ascending. -/
def Obligations.ItemsAreTheKeysInOrder : Prop :=
  ∀ s : State,
    (∀ x, x ∈ keyItems s ↔ x.freq = freqAt s x.sym.toNat ∧ x.freq ≠ 0) ∧
    (keyItems s).Pairwise (fun a b => a.sym.toNat < b.sym.toNat) ∧
    (sortItems (keyItems s)).Perm (keyItems s) ∧
    (sortItems (keyItems s)).Pairwise
      (fun a b => b.freq.toNat < a.freq.toNat ∨ (a.freq = b.freq ∧ a.sym.toNat < b.sym.toNat))

/-- R143: the split index is the first candidate that minimises `|2*L(k) - T|`, among the candidates `1 .. m-1`. -/
def Obligations.SplitIndexIsTheFirstMinimum : Prop :=
  ∀ fs : List Nat, 2 ≤ fs.length →
    let d := fun k => (2 * ((fs.take k).sum : Int) - (fs.sum : Int)).natAbs
    1 ≤ splitIndex fs ∧ splitIndex fs ≤ fs.length - 1 ∧
    (∀ j, 1 ≤ j → j ≤ fs.length - 1 → d (splitIndex fs) ≤ d j) ∧
    (∀ j, 1 ≤ j → j < splitIndex fs → d (splitIndex fs) < d j)

/-- R142: `Build` on a range: one pair is a Leaf; otherwise the range is cut at the split index and the two halves are built. -/
def Obligations.ShannonFanoBuildsByRecursiveSplits : Prop :=
  (∀ x : Item, sfTree 1 [x] = .leaf x.sym (x.freq.setWidth 40)) ∧
  ∀ items : List Item, 2 ≤ items.length →
    let k := splitIndex (freqs items)
    let l := sfTree (items.take k).length (items.take k)
    let r := sfTree (items.drop k).length (items.drop k)
    (items.take k) ≠ [] ∧ (items.drop k) ≠ [] ∧
    sfTree items.length items = .internal l r (l.weight + r.weight)

/-- R146 (b), (c), (d), (f): the leaves are the keys in sorted order, every weight is the exact sum of its children's, the
root's weight is the sum of all counts, and the depth is at most `n - 1`. -/
def Obligations.ShannonFanoTreeProperties : Prop :=
  ∀ s : State, (∃ v, v < 256 ∧ freqAt s v ≠ 0) →
    (shannonFanoTree s).symbols = (sortItems (keyItems s)).map Item.sym ∧
    (shannonFanoTree s).WeightsAdd ∧
    (shannonFanoTree s).weight.toNat = ((List.range 256).map fun v => (freqAt s v).toNat).sum ∧
    (shannonFanoTree s).depth ≤ (keyItems s).length - 1

/-- R142, R35: `BUILD_SF` on a table that is not all zero installs the Shannon-Fano tree in post-order, root last; children have
smaller indices than their parent; the entries at and above `NNODE` and everything else are unchanged. -/
def Obligations.BuildSfInstallsTheTree : Prop :=
  ∀ s : State, (∃ v, v < 256 ∧ freqAt s v ≠ 0) →
    let n := (keyItems s).length
    ∃ t, exec .buildSf s = .next t ∧
      t = { s with
            phase := .idle, done := true, node := t.node, rootValid := true
            rootIdx := BitVec.ofNat 9 (2 * n - 2), nnode := BitVec.ofNat 10 (2 * n - 1), nleaf := BitVec.ofNat 9 n } ∧
      1 ≤ n ∧ n ≤ 256 ∧ t.HoldsTree (shannonFanoTree s) ∧
      (∀ i x, ((shannonFanoTree s).postorder 0)[i]? = some x → nodeAt t i = x) ∧
      (∀ i, i < 2 * n - 1 → (nodeAt t i).tag = false → (nodeAt t i).left.toNat < i ∧ (nodeAt t i).right.toNat < i) ∧
      (∀ i, 2 * n - 1 ≤ i → nodeAt t i = nodeAt s i)

/-- R161, R162, R163: `BUILD_HUF` on a table that is not all zero makes one Leaf per key in ascending symbol order, then, node by
node, an Internal node whose left child is the lowest and whose right child is the next lowest node of the priority structure;
the entries at and above `NNODE` and everything else are unchanged. -/
def Obligations.HuffmanMergesTheTwoLowest : Prop :=
  ∀ s : State, (∃ v, v < 256 ∧ freqAt s v ≠ 0) →
    let n := (keyItems s).length
    ∃ t, exec .buildHuf s = .next t ∧
      t = { s with
            phase := .idle, done := true, node := t.node, rootValid := true
            rootIdx := BitVec.ofNat 9 (2 * n - 2), nnode := BitVec.ofNat 10 (2 * n - 1), nleaf := BitVec.ofNat 9 n } ∧
      1 ≤ n ∧ n ≤ 256 ∧
      (∀ j x, (keyItems s)[j]? = some x → nodeAt t j = leafNode x.sym (x.freq.setWidth 40)) ∧
      (∀ k, n ≤ k → k < 2 * n - 1 → ∃ a b,
        nodeAt t k = internalNode a b ((nodeAt t a).weight + (nodeAt t b).weight) ∧
        Unmerged (nodeAt t) n k a ∧ Unmerged (nodeAt t) n k b ∧ LowerNode (nodeAt t) a b ∧
        ∀ c, Unmerged (nodeAt t) n k c → c ≠ a → c ≠ b → LowerNode (nodeAt t) b c) ∧
      (∀ i, 2 * n - 1 ≤ i → nodeAt t i = nodeAt s i)

/-- R166 (b), (d): the Huffman arena denotes a well-formed tree whose leaves are the keys, once each, whose weights are exact
sums, the root's being the sum of all counts. -/
def Obligations.HuffmanTreeProperties : Prop :=
  ∀ s t : State, (∃ v, v < 256 ∧ freqAt s v ≠ 0) → exec .buildHuf s = .next t →
    ∃ tr : Tree, t.HoldsTree tr ∧ tr.symbols.Perm ((keyItems s).map Item.sym) ∧ tr.WeightsAdd ∧
      tr.weight.toNat = ((List.range 256).map fun v => (freqAt s v).toNat).sum

/-- R166 (f): the weights of the Internal nodes are non-decreasing in index order. -/
def Obligations.HuffmanWeightsAreNonDecreasing : Prop :=
  ∀ s t : State, (∃ v, v < 256 ∧ freqAt s v ≠ 0) → exec .buildHuf s = .next t →
    ∀ i j, (keyItems s).length ≤ i → i ≤ j → j < t.nnode.toNat → (nodeAt t i).weight.toNat ≤ (nodeAt t j).weight.toNat

/-- R142, R163, R277: a builder on an all-zero table raises `EmptyInput(0)` and leaves no tree; `ROOT.IDX` and `NODE` are kept. -/
def Obligations.BuildersRefuseTheEmptyTable : Prop :=
  ∀ (s : State) (i : Instr), (i = .buildSf ∨ i = .buildHuf) → (∀ v, v < 256 → freqAt s v = 0) →
    exec i s = .next
      { s with phase := .idle, done := true, err := true, errCode := 1, errInfo := 0, rootValid := false, nnode := 0, nleaf := 0 }

/-- R146 (g), R166 (e): the builders' results are functions of `FREQ` alone, down to the node indices. -/
def Obligations.BuildersDependOnFreqAlone : Prop :=
  ∀ (i : Instr) (s s' t t' : State), (i = .buildSf ∨ i = .buildHuf) → (∀ v, v < 256 → freqAt s v = freqAt s' v) →
    exec i s = .next t → exec i s' = .next t' →
    t.rootValid = t'.rootValid ∧ t.nnode = t'.nnode ∧ t.nleaf = t'.nleaf ∧ (t.rootValid = true → t.rootIdx = t'.rootIdx) ∧
    ∀ k, k < t.nnode.toNat → nodeAt t k = nodeAt t' k

/-! ## TreeCheck, CHECKTREE, GENCODES -/

/-- R181: `TreeCheck` accepts exactly the arena contents that denote an abstract tree with pairwise distinct leaf symbols. -/
def Obligations.TreeCheckAcceptsExactlyTheTrees : Prop :=
  ∀ s : State, treeCheck s = .ok ↔ ∃ t, s.HoldsTree t

/-- R181, R272: an absent tree is reported as 0xFFFFFFFF, a root index of 511 as itself; any other rejection reports the first
offending node in pre-order, and `TreeCheck` rejects whenever there is one. -/
def Obligations.TreeCheckInfo : Prop :=
  ∀ s : State,
    (s.rootValid = false → treeCheck s = .bad 0xFFFFFFFF) ∧
    (s.rootValid = true → s.rootIdx = 511 → treeCheck s = .bad 511) ∧
    (s.rootValid = true → s.rootIdx ≠ 511 →
      (∀ info, treeCheck s = .bad info ↔ s.FirstOffender info.toNat) ∧
      ∀ i, s.FirstOffender i → i < 511)

/-- R182: `CHECKTREE`, word 9, completes without error on a well-formed tree, else raises `MalformedTree` with `TreeCheck`'s info
(0xFFFFFFFF when there is no tree, 511 when `ROOT.IDX` is 511, else the first offending node); nothing else changes. -/
def Obligations.ChecktreeReportsTheVerdict : Prop :=
  decode 0x00000009 = .ok .checktree ∧
  ∀ s : State,
    ((∃ t, s.HoldsTree t) → exec .checktree s = .next { s with phase := .idle, done := true }) ∧
    ((¬ ∃ t, s.HoldsTree t) → ∃ info, treeCheck s = .bad info) ∧
    (s.rootValid = false → treeCheck s = .bad 0xFFFFFFFF) ∧
    (s.rootValid = true → s.rootIdx = 511 → treeCheck s = .bad 511) ∧
    (∀ info, s.rootValid = true → s.rootIdx ≠ 511 → treeCheck s = .bad info → s.FirstOffender info.toNat) ∧
    (∀ info, treeCheck s = .bad info →
      exec .checktree s = .next { s with phase := .idle, done := true, err := true, errCode := 4, errInfo := info })

/-- R186: an accepted tree has at most 256 leaves, at most 255 Internal nodes and depth at most 255, so a code has at most 255
bits. -/
def Obligations.AcceptedTreesAreShallow : Prop :=
  ∀ s : State, treeCheck s = .ok →
    ∃ t, DenotesTree (nodeAt s) s.rootIdx.toNat t ∧ t.symbols.length ≤ 256 ∧ t.size - t.symbols.length ≤ 255 ∧ t.depth ≤ 255 ∧ ∀ v, (t.codeOf v).length ≤ 255

/-- R184: on a well-formed tree `GENCODES` gives every leaf symbol its path ("0" for a bare Leaf) and every other symbol no
entry, with the bits at and above `LEN` zero (R33); nothing else changes. -/
def Obligations.GencodesWritesThePaths : Prop :=
  ∀ (s : State) (tr : Tree), s.HoldsTree tr →
    ∃ t, exec .gencodes s = .next t ∧ t = { s with phase := .idle, done := true, code := t.code } ∧
      ∀ v : Byte, codeString t v.toNat = tr.codeOf v ∧ (codeAt t v.toNat).len.toNat = (tr.codeOf v).length ∧
        ∀ k, (tr.codeOf v).length ≤ k → (codeAt t v.toNat).bits.getLsbD k = false

/-- R184, R277: on a malformed or absent tree `GENCODES` empties the table and raises `MalformedTree`. -/
def Obligations.GencodesEmptiesTheTableOnAMalformedTree : Prop :=
  ∀ (s : State) (info : Word), treeCheck s = .bad info →
    ∃ t, exec .gencodes s = .next t ∧
      t = { s with phase := .idle, done := true, err := true, errCode := 4, errInfo := info, code := t.code } ∧
      ∀ v, v < 256 → codeAt t v = { len := 0, bits := 0 }

/-- R185 (b), (c): in a table `GENCODES` wrote, no code is a prefix of another symbol's code. -/
def Obligations.GeneratedCodesArePrefixFree : Prop :=
  ∀ s t : State, s.err = false → exec .gencodes s = .next t → t.err = false →
    ∀ u v : Byte, u ≠ v → codeString t u.toNat ≠ [] → codeString t v.toNat ≠ [] →
      ¬ (codeString t u.toNat <+: codeString t v.toNat)

/-! ## PACK, UNPACK -/

/-- R201, R80, R204: `PACK` writes the codes in sequence order as the bit stream, zero padding bits up to a byte boundary, and the
three lengths; bytes at and above the new `BYTE_LEN` and everything else are unchanged. -/
def Obligations.PackWritesTheStream : Prop :=
  ∀ s : State, s.InstanceOk → s.symLen.toNat ≤ s.maxLen →
    let stream := (symbols s s.symLen.toNat).flatMap fun v => codeString s v.toNat
    (∀ i, i < s.symLen.toNat → codeLen s (symAt s i).toNat ≠ 0) → (stream.length + 7) / 8 ≤ s.maxBytes →
    ∃ t, exec .pack s = .next t ∧
      t = { s with
            phase := .idle, done := true, byte := t.byte, bitLen := t.bitLen, pad := t.pad, byteLen := t.byteLen } ∧
      t.bitLen.toNat = stream.length ∧ t.pad.toNat = (8 - stream.length % 8) % 8 ∧ t.pad.toNat ≤ 7 ∧
      t.byteLen.toNat = (stream.length + 7) / 8 ∧
      (∀ j, j < stream.length → stream[j]? = some (payloadBit t j)) ∧
      (∀ j, stream.length ≤ j → j < 8 * t.byteLen.toNat → payloadBit t j = false) ∧
      (∀ k, t.byteLen.toNat ≤ k → byteAt t k = byteAt s k)

/-- R201, R275, R277: the first symbol without a code, or whose code no longer fits `MAXBYTES` bytes, is reported by its index,
`UnknownSymbol` before `Capacity`; `SYM_LEN > MAXLEN` is `BadOperand(0x020)`. The lengths are 0; `BYTE` holds any values. -/
def Obligations.PackReportsTheFirstBadSymbol : Prop :=
  ∀ s : State,
    let failed := fun (t : State) (code : BitVec 4) (info : Word) =>
      t = { s with
            phase := .idle, done := true, err := true, errCode := code, errInfo := info
            byteLen := 0, pad := 0, bitLen := 0, byte := t.byte, byteDraw := t.byteDraw, draws := t.draws }
    let bits := fun n => ((symbols s n).flatMap fun v => codeString s v.toNat).length
    (s.maxLen < s.symLen.toNat → ∃ t, exec .pack s = .next t ∧ failed t 7 0x020) ∧
    (∀ i, s.symLen.toNat ≤ s.maxLen → i < s.symLen.toNat → (∀ j, j < i → codeLen s (symAt s j).toNat ≠ 0) →
      (bits i + 7) / 8 ≤ s.maxBytes →
      (codeLen s (symAt s i).toNat = 0 → ∃ t, exec .pack s = .next t ∧ failed t 2 (BitVec.ofNat 32 i)) ∧
      (codeLen s (symAt s i).toNat ≠ 0 → s.maxBytes < (bits (i + 1) + 7) / 8 →
        ∃ t, exec .pack s = .next t ∧ failed t 6 (BitVec.ofNat 32 i)))

/-- R207, R210: when the payload's bits are the codes of a symbol sequence under the tree at `ROOT`, `UNPACK` and `DECOMPRESS`
write that sequence; elements at and above the new `SYM_LEN` and everything else are unchanged. -/
def Obligations.UnpackDecodesConcatenatedCodes : Prop :=
  ∀ (i : Instr) (s : State) (tr : Tree) (syms : List Byte), (i = .unpack ∨ i = .decompress) →
    s.HoldsTree tr → s.byteLen ≠ 0 → s.byteLen.toNat ≤ s.maxBytes → s.pad.toNat ≤ 7 →
    (∀ v ∈ syms, v ∈ tr.symbols) → syms.length ≤ s.maxLen →
    payloadBits s (8 * s.byteLen.toNat - s.pad.toNat) = syms.flatMap tr.codeOf →
    ∃ t, exec i s = .next t ∧
      t = { s with phase := .idle, done := true, sym := t.sym, symLen := BitVec.ofNat 32 syms.length } ∧
      t.symLen.toNat = syms.length ∧ symbols t syms.length = syms ∧ ∀ k, syms.length ≤ k → symAt t k = symAt s k

/-- R207, R210: a payload that ends inside a code is `CorruptPayload(nbits)`; one that begins with the codes of `MAXLEN + 1`
symbols is `Capacity` at the last bit of the code that does not fit: no output, `SYM` holds any values. -/
def Obligations.UnpackReportsACutCode : Prop :=
  ∀ (i : Instr) (s : State) (tr : Tree) (syms : List Byte) (v : Byte), (i = .unpack ∨ i = .decompress) →
    s.HoldsTree tr → s.byteLen ≠ 0 → s.byteLen.toNat ≤ s.maxBytes → s.pad.toNat ≤ 7 →
    (∀ u ∈ syms, u ∈ tr.symbols) → v ∈ tr.symbols →
    let nbits := 8 * s.byteLen.toNat - s.pad.toNat
    let codes := syms.flatMap tr.codeOf
    let failed := fun (t : State) (code : BitVec 4) (j : Nat) =>
      t = { s with
            phase := .idle, done := true, err := true, errCode := code, errInfo := BitVec.ofNat 32 j
            symLen := 0, sym := t.sym, symDraw := t.symDraw, draws := t.draws }
    (∀ cut, syms.length ≤ s.maxLen → cut ≠ [] → cut <+: tr.codeOf v → cut ≠ tr.codeOf v →
      payloadBits s nbits = codes ++ cut → ∃ t, exec i s = .next t ∧ failed t 3 nbits) ∧
    (∀ rest, syms.length = s.maxLen → payloadBits s nbits = codes ++ tr.codeOf v ++ rest →
      ∃ t, exec i s = .next t ∧ failed t 6 (codes.length + (tr.codeOf v).length - 1))

/-- R212: under a bare-Leaf tree every 0 bit emits the symbol and a 1 bit is `CorruptPayload` at that bit; the symbol that does
not fit is `Capacity` at its bit (R210). -/
def Obligations.UnpackUnderABareLeaf : Prop :=
  ∀ (s : State) (v : Byte) (w : Weight), s.HoldsTree (.leaf v w) → s.byteLen ≠ 0 → s.byteLen.toNat ≤ s.maxBytes →
    s.pad.toNat ≤ 7 →
    let nbits := 8 * s.byteLen.toNat - s.pad.toNat
    let failed := fun (t : State) (code : BitVec 4) (j : Nat) =>
      t = { s with
            phase := .idle, done := true, err := true, errCode := code, errInfo := BitVec.ofNat 32 j
            symLen := 0, sym := t.sym, symDraw := t.symDraw, draws := t.draws }
    (nbits ≤ s.maxLen → (∀ j, j < nbits → payloadBit s j = false) →
      ∃ t, exec .unpack s = .next t ∧ t = { s with phase := .idle, done := true, sym := t.sym, symLen := t.symLen } ∧
        t.symLen.toNat = nbits ∧ (∀ k, k < nbits → symAt t k = v) ∧ ∀ k, nbits ≤ k → symAt t k = symAt s k) ∧
    (∀ j, j < nbits → j ≤ s.maxLen → (∀ k, k < j → payloadBit s k = false) → payloadBit s j = true →
      ∃ t, exec .unpack s = .next t ∧ failed t 3 j) ∧
    (s.maxLen < nbits → (∀ k, k ≤ s.maxLen → payloadBit s k = false) →
      ∃ t, exec .unpack s = .next t ∧ failed t 6 s.maxLen)

/-- R210, U11: the dropped padding bits are not examined: payloads that agree on the first `nbits` bits decode alike. -/
def Obligations.UnpackIgnoresThePaddingBits : Prop :=
  ∀ (i : Instr) (s t t' : State) (byte' : Memory Byte) (draw' : Nat), (i = .unpack ∨ i = .decompress) →
    let s' := { s with byte := byte', byteDraw := draw' }
    (∀ j, j < 8 * s.byteLen.toNat - s.pad.toNat → payloadBit s j = payloadBit s' j) →
    exec i s = .next t → exec i s' = .next t' → t' = { t with byte := byte', byteDraw := draw' }

/-- R210, R235, R275, R277: with empty bytes `UNPACK` and `DECOMPRESS` make no check and give the empty sequence, without error;
otherwise the early errors of `UNPACK` in their order, each with the failure effects. -/
def Obligations.UnpackChecksItsOperandsInOrder : Prop :=
  ∀ s : State,
    let failed := fun (t : State) (code : BitVec 4) (info : Word) =>
      t = { s with
            phase := .idle, done := true, err := true, errCode := code, errInfo := info
            symLen := 0, sym := t.sym, symDraw := t.symDraw, draws := t.draws }
    (s.byteLen = 0 → ∀ i, (i = .unpack ∨ i = .decompress) →
      exec i s = .next { s with phase := .idle, done := true, symLen := 0 }) ∧
    (s.byteLen ≠ 0 → s.maxBytes < s.byteLen.toNat → ∃ t, exec .unpack s = .next t ∧ failed t 7 0x024) ∧
    (s.byteLen ≠ 0 → s.byteLen.toNat ≤ s.maxBytes → 7 < s.pad.toNat → ∃ t, exec .unpack s = .next t ∧ failed t 7 0x028) ∧
    (s.byteLen ≠ 0 → s.byteLen.toNat ≤ s.maxBytes → s.pad.toNat ≤ 7 → ∀ info, treeCheck s = .bad info →
      ∃ t, exec .unpack s = .next t ∧ failed t 4 info)

/-- R277: a failed `UNPACK` or `DECOMPRESS` presents no output and touches nothing but `SYM_LEN`, `SYM` and the latch. -/
def Obligations.FailedUnpackPresentsNothing : Prop :=
  ∀ (i : Instr) (s t : State), (i = .unpack ∨ i = .decompress) → s.err = false → exec i s = .next t → t.err = true →
    t = { s with
          phase := .idle, done := true, err := true, errCode := t.errCode, errInfo := t.errInfo
          symLen := 0, sym := t.sym, symDraw := t.symDraw, draws := t.draws }

/-! ## COMPRESS, DECOMPRESS -/

/-- R231, R230, R277: `COMPRESS` of the empty sequence: no error, empty payload, no tree, empty table, `EMPTY` set; `FREQ`, `NODE`,
`BYTE` and `ROOT.IDX` keep their contents. With `SYM_LEN > MAXLEN`: `BadOperand(0x020)`, only the initial writes are done. -/
def Obligations.CompressOfAnEmptyOrTooLongSequence : Prop :=
  ∀ (alg : Alg) (s : State),
    (s.symLen = 0 → ∃ t, exec (.compress alg) s = .next t ∧
      t = { s with
            phase := .idle, done := true, empty := true, byteLen := 0, pad := 0, bitLen := 0, rootValid := false
            nnode := 0, nleaf := 0, code := t.code } ∧
      ∀ v, v < 256 → codeAt t v = { len := 0, bits := 0 }) ∧
    (s.maxLen < s.symLen.toNat →
      exec (.compress alg) s = .next
        { s with phase := .idle, done := true, err := true, errCode := 7, errInfo := 0x020
                 byteLen := 0, pad := 0, bitLen := 0, rootValid := false })

/-- R230, R233: on a non-empty sequence that fits, `COMPRESS` is `ANALYZE`, the selected builder, `GENCODES` and `PACK` in
sequence after the empty payload is written, and none of the first three raises an error. -/
def Obligations.CompressRunsItsStepsInSequence : Prop :=
  ∀ (alg : Alg) (s : State), 1 ≤ s.symLen.toNat → s.symLen.toNat ≤ s.maxLen →
    ∃ s1 s2 s3 t,
      exec .analyze { s with byteLen := 0, pad := 0, bitLen := 0, rootValid := false } = .next s1 ∧
      exec (builderOf alg) s1 = .next s2 ∧ exec .gencodes s2 = .next s3 ∧ exec .pack s3 = .next t ∧
      s3.err = s.err ∧ s3.errCode = s.errCode ∧ exec (.compress alg) s = .next t

/-- R230: a sequence whose length allows 255 bits per symbol in `BYTE` is always compressed: the results are the counts, a
well-formed tree over exactly the symbols that occur, its codes, and the codes of the sequence in order as the payload; the
entries of `NODE` at and above `NNODE` and of `BYTE` at and above `BYTE_LEN` are kept. -/
def Obligations.CompressSucceedsWithRoom : Prop :=
  ∀ (alg : Alg) (s : State), s.InstanceOk → 1 ≤ s.symLen.toNat → s.symLen.toNat ≤ s.maxLen →
    (255 * s.symLen.toNat + 7) / 8 ≤ s.maxBytes →
    ∃ t tr, exec (.compress alg) s = .next t ∧
      t = { s with
            phase := .idle, done := true, freq := t.freq, node := t.node, code := t.code, byte := t.byte
            byteLen := t.byteLen, pad := t.pad, bitLen := t.bitLen
            rootValid := true, rootIdx := t.rootIdx, nnode := t.nnode, nleaf := t.nleaf } ∧
      t.HoldsTree tr ∧ (∀ v, v ∈ tr.symbols ↔ v ∈ symbols s s.symLen.toNat) ∧
      (∀ v : Byte, (freqAt t v.toNat).toNat = (symbols s s.symLen.toNat).count v) ∧
      (∀ v : Byte, codeString t v.toNat = tr.codeOf v) ∧
      payloadBits t t.bitLen.toNat = (symbols s s.symLen.toNat).flatMap tr.codeOf ∧
      8 * t.byteLen.toNat = t.bitLen.toNat + t.pad.toNat ∧ t.pad.toNat ≤ 7 ∧
      (∀ i, t.nnode.toNat ≤ i → nodeAt t i = nodeAt s i) ∧ ∀ k, t.byteLen.toNat ≤ k → byteAt t k = byteAt s k

/-- R235: `DECOMPRESS`, word 8, guards an absent tree or empty bytes; otherwise it is `UNPACK`. The two differ only for an absent
tree with bytes, where `UNPACK` with legal operands raises `MalformedTree(0xFFFFFFFF)`. `DECOMPRESS` never sets `EMPTY`, and its
`MalformedTree` is never the absent tree. -/
def Obligations.DecompressGuardsThenUnpacks : Prop :=
  decode 0x00000008 = .ok .decompress ∧
  ∀ s : State,
    (∀ t, exec .decompress s = .next t → t.empty = s.empty ∧
      (s.err = false → t.err = true → t.errCode = ErrKind.malformedTree.code → t.errInfo ≠ 0xFFFFFFFF)) ∧
    ((s.rootValid = false ∨ s.byteLen = 0) → exec .decompress s = .next { s with phase := .idle, done := true, symLen := 0 }) ∧
    ((s.rootValid = true ∨ s.byteLen = 0) → exec .decompress s = exec .unpack s) ∧
    (s.rootValid = false → s.byteLen ≠ 0 → s.byteLen.toNat ≤ s.maxBytes → s.pad.toNat ≤ 7 →
      ∃ t, exec .unpack s = .next t ∧
        t = { s with
              phase := .idle, done := true, err := true, errCode := 4, errInfo := 0xFFFFFFFF
              symLen := 0, sym := t.sym, symDraw := t.symDraw, draws := t.draws })

/-- R236, R12: the round trip. `COMPRESS` of a sequence that fits `SYM` fails only with `Capacity`; when it completes without
error, the `DECOMPRESS` the host issues next is accepted and restores the sequence. -/
def Obligations.DecompressRestoresWhatCompressMade : Prop :=
  ∀ (alg : Alg) (s t : State), s.err = false → s.symLen.toNat ≤ s.maxLen → exec (.compress alg) s = .next t →
    (t.err = true → t.errCode = ErrKind.capacity.code) ∧
    (t.err = false →
      (hostWrite 0x10 0x00000008 t).phase = .busy ∧
      ∃ u, exec .decompress (hostWrite 0x10 0x00000008 t) = .next u ∧ u.err = false ∧ u.symLen = s.symLen ∧
        symbols u s.symLen.toNat = symbols s s.symLen.toNat)

/-! ## Flags, the latch, the interrupt -/

/-- R23, R279: the layout of `STATUS`, reserved bits reading 0; and that a host write to it acts only through bits 1, 2 and 4, the
clearing of `ERR` clearing `ERR_CODE` and `ERR_INFO`. -/
def Obligations.StatusReadsAndWrites : Prop :=
  ∀ (s : State) (v : Word),
    (statusWord s).getLsbD 0 = decide (s.phase = .busy) ∧ (statusWord s).getLsbD 1 = s.done ∧
    (statusWord s).getLsbD 2 = s.err ∧ (statusWord s).getLsbD 3 = s.empty ∧ (statusWord s).getLsbD 4 = s.drop ∧
    (statusWord s).extractLsb' 8 4 = s.errCode ∧
    (∀ k, (5 ≤ k ∧ k ≤ 7) ∨ 12 ≤ k → (statusWord s).getLsbD k = false) ∧
    hostWrite 0x14 v s =
      { s with
        done := s.done && !v.getLsbD 1, err := s.err && !v.getLsbD 2, drop := s.drop && !v.getLsbD 4
        errCode := if v.getLsbD 2 && s.err then 0 else s.errCode
        errInfo := if v.getLsbD 2 && s.err then 0 else s.errInfo
        rsp := some (.write false) }

/-- R279: writing a word with bit 2 set clears a latched error with its code and info (and `DONE`, `DROP` where selected), and
nothing else; it does nothing to the latch when none is latched; then the core accepts commands again. -/
def Obligations.ErrorReturnReopensTheCore : Prop :=
  ∀ (s : State) (v w : Word), v.getLsbD 2 = true →
    (s.err = true → hostWrite 0x14 v s =
      { s with err := false, errCode := 0, errInfo := 0, done := s.done && !v.getLsbD 1, drop := s.drop && !v.getLsbD 4
               rsp := some (.write false) }) ∧
    (s.err = false → hostWrite 0x14 v s =
      { s with done := s.done && !v.getLsbD 1, drop := s.drop && !v.getLsbD 4, rsp := some (.write false) }) ∧
    (s.phase = .idle →
      (hostWrite 0x10 w (hostWrite 0x14 v s)).phase = .busy ∧ (hostWrite 0x10 w (hostWrite 0x14 v s)).cmd = w)

/-- R285: the interrupt is high exactly when `DONE` is set and enabled, or `ERR` is set and enabled. It is low at reset; a
completion raises it exactly when `DONE` is enabled, or `ERR` is enabled and an error is latched; writing 1 to both bits of
`STATUS`, or issuing the next command, makes it low. -/
def Obligations.InterruptFollowsStatusAndEnables : Prop :=
  State.reset.irq = false ∧
  (∀ s : State, s.irq = true ↔ (s.doneIe = true ∧ s.done = true) ∨ (s.errIe = true ∧ s.err = true)) ∧
  (∀ (i : Instr) (s t : State), exec i s = .next t → (t.irq = true ↔ s.doneIe = true ∨ (s.errIe = true ∧ t.err = true))) ∧
  (∀ s : State, (hostWrite 0x14 0x6 s).irq = false) ∧
  (∀ (s : State) (w : Word), s.phase = .idle → s.err = false → (hostWrite 0x10 w s).irq = false)

/-! ## The host port -/

/-- R74: the address map, exactly. -/
def Obligations.AddressMap : Prop :=
  ∀ (s : State) (a : BitVec 28), s.InstanceOk →
    (∀ r : Reg, decodeAddr s a = some (.reg r) ↔ a.toNat = r.offset) ∧
    (∀ i, decodeAddr s a = some (.sym i) ↔ i < s.maxLen ∧ a.toNat = 0x1000000 + 4 * i) ∧
    (∀ i, decodeAddr s a = some (.byte i) ↔ i < s.maxBytes ∧ a.toNat = 0x2000000 + 4 * i) ∧
    (∀ v, decodeAddr s a = some (.freq v) ↔ v < 256 ∧ a.toNat = 0x3000000 + 4 * v) ∧
    (∀ i w, decodeAddr s a = some (.node i w) ↔ i < 511 ∧ w < 4 ∧ a.toNat = 0x4000000 + 16 * i + 4 * w) ∧
    (∀ v w, decodeAddr s a = some (.code v w) ↔ v < 256 ∧ w < 9 ∧ a.toNat = 0x5000000 + 64 * v + 4 * w)

/-- R79: exactly when a request is refused, and that a refused request changes nothing. -/
def Obligations.RefusedRequestsChangeNothing : Prop :=
  ∀ (s : State) (a : BitVec 28) (v : Word),
    let space := a.toNat / 2 ^ 24
    let offset := a.toNat % 2 ^ 24
    (decodeAddr s a = none ↔
      a.toNat % 4 ≠ 0 ∨ 6 ≤ space ∨ (space = 0 ∧ 0x38 < offset) ∨ (space = 1 ∧ s.maxLen ≤ offset / 4) ∨
      (space = 2 ∧ s.maxBytes ≤ offset / 4) ∨ (space = 3 ∧ 256 ≤ offset / 4) ∨ (space = 4 ∧ 511 ≤ offset / 16) ∨
      (space = 5 ∧ (256 ≤ offset / 64 ∨ 9 ≤ offset % 64 / 4))) ∧
    (decodeAddr s a = none →
      hostRead a s = { s with rsp := some (.read 0 true) } ∧ hostWrite a v s = { s with rsp := some (.write true) })

/-- R72, R77: a read changes nothing but the response (and, in the busy window, the model's counter of free values); while no
command runs it returns the addressed word, and the registers read as R25, R31, R40 to R44 and R21 say (`STATUS`:
`StatusReadsAndWrites`). -/
def Obligations.ReadsChangeNothing : Prop :=
  ∀ (s : State) (a : BitVec 28),
    hostRead a s = { s with rsp := (hostRead a s).rsp, draws := (hostRead a s).draws } ∧
    (∀ tgt, s.phase = .idle → decodeAddr s a = some tgt →
      hostRead a s = { s with rsp := some (.read (readTarget s tgt) false) }) ∧
    (s.phase = .idle →
      let reads := fun (at' : BitVec 28) (v : Word) => hostRead at' s = { s with rsp := some (.read v false) }
      reads 0x000 0x48544231 ∧ reads 0x004 0x09282008 ∧ reads 0x008 s.param1 ∧ reads 0x00C s.param2 ∧
      reads 0x010 s.cmd ∧ reads 0x014 (statusWord s) ∧ reads 0x018 s.errInfo ∧
      reads 0x01C ((if s.doneIe then 0x2 else 0) ||| (if s.errIe then 0x4 else 0)) ∧
      reads 0x020 s.symLen ∧ reads 0x024 s.byteLen ∧ reads 0x028 s.pad ∧ reads 0x02C s.bitLen ∧
      reads 0x030 ((if s.rootValid then 0x80000000 else 0) ||| s.rootIdx.setWidth 32) ∧
      reads 0x034 (s.nnode.setWidth 32) ∧ reads 0x038 (s.nleaf.setWidth 32))

/-- R73, R75, R76, R78, R82: while no command runs, a write to a memory word stores its implemented bits, the word reads back
as stored, and every other word and register reads as before. -/
def Obligations.WrittenWordsReadBack : Prop :=
  ∀ (s : State) (a : BitVec 28) (v : Word) (tgt : Target), s.phase = .idle → decodeAddr s a = some tgt →
    (∀ r, tgt ≠ .reg r) →
    (hostWrite a v s).rsp = some (.write false) ∧
    readTarget (hostWrite a v s) tgt = v &&& tgt.storedBits ∧
    ∀ a' tgt', decodeAddr s a' = some tgt' → tgt' ≠ tgt → readTarget (hostWrite a v s) tgt' = readTarget s tgt'

/-- R21, R31, R43, R73: host writes to the plain registers while no command runs store the implemented bits; a read-only register
ignores the write. -/
def Obligations.RegisterWrites : Prop :=
  ∀ (s : State) (v : Word), s.phase = .idle →
    let done := some (Response.write false)
    hostWrite 0x20 v s = { s with symLen := v, rsp := done } ∧ hostWrite 0x24 v s = { s with byteLen := v, rsp := done } ∧
    hostWrite 0x28 v s = { s with pad := v, rsp := done } ∧
    hostWrite 0x30 v s = { s with rootValid := v.getLsbD 31, rootIdx := v.extractLsb' 0 9, rsp := done } ∧
    readReg (hostWrite 0x30 v s) .root = v &&& 0x800001FF ∧
    hostWrite 0x1C v s = { s with doneIe := v.getLsbD 1, errIe := v.getLsbD 2, rsp := done } ∧
    readReg (hostWrite 0x1C v s) .ie = v &&& 0x6 ∧
    ∀ r : Reg, r.readOnly = true → hostWrite (BitVec.ofNat 28 r.offset) v s = { s with rsp := done }

/-- R77, R320: host accesses while a command runs. Every write but to `IE` and `STATUS` is dropped and flagged, to a read-only
register too (R320; log 9). -/
def Obligations.BusyWindow : Prop :=
  ∀ (s : State) (a : BitVec 28) (v : Word) (tgt : Target), s.phase = .busy → decodeAddr s a = some tgt →
    (tgt.readableWhileBusy = true → hostRead a s = { s with rsp := some (.read (readTarget s tgt) false) }) ∧
    (tgt.readableWhileBusy = false →
      ∃ x, hostRead a s = { s with rsp := some (.read x false), draws := (hostRead a s).draws }) ∧
    (tgt.readableWhileBusy = true ↔ tgt ∈ [Target.reg .status, .reg .id, .reg .param0, .reg .param1, .reg .param2, .reg .ie, .reg .cmd]) ∧
    (tgt = .reg .ie → hostWrite a v s = { s with doneIe := v.getLsbD 1, errIe := v.getLsbD 2, rsp := some (.write false) }) ∧
    (tgt = .reg .status → hostWrite a v s = { writeStatus v s with rsp := some (.write false) }) ∧
    (tgt ≠ .reg .ie → tgt ≠ .reg .status → hostWrite a v s = { s with drop := true, rsp := some (.write false) })

/-- R84 (d), R82: between acceptance and completion no host request changes anything a command reads. -/
def Obligations.HostCannotDisturbARunningCommand : Prop :=
  ∀ (s t : State) (h : Input) (rest : List Input), s.phase = .busy → s.inputs = h :: rest →
    ((∃ a, h = .read a) ∨ (∃ a v, h = .write a v)) → step s = .next t →
    t = { s with
          inputs := rest, rsp := t.rsp, draws := t.draws, drop := t.drop, doneIe := t.doneIe, errIe := t.errIe
          done := t.done, err := t.err, errCode := t.errCode, errInfo := t.errInfo }

/-- R76: the four words of a `NODE` element, bit by bit, and that the element is read back from them. R72, R75, R76, R78: what
the host port reads of the elements the commands work on; word `w` of a `CODE` element, `1 <= w <= 8`, is
`BITS[32*w-1 : 32*(w-1)]`, and a code string is the low `LEN` bits, the first bit most significant (R33). -/
def Obligations.NodeWordLayout : Prop :=
  (∀ n : Node, ∃ w0 w1 w2 w3 : Word, nodeWords n = [w0, w1, w2, w3] ∧ nodeOfWords w0 w1 w2 w3 = n ∧
    (∀ k, k < 32 → w0.getLsbD k = n.weight.getLsbD k) ∧
    (∀ k, k < 32 → w1.getLsbD k = (decide (k < 8) && n.weight.getLsbD (32 + k))) ∧
    (∀ k, k < 16 → w2.getLsbD k = (decide (k < 9) && n.left.getLsbD k)) ∧
    (∀ k, k < 16 → w2.getLsbD (16 + k) = (decide (k < 9) && n.right.getLsbD k)) ∧
    (∀ k, k < 8 → w3.getLsbD k = n.sym.getLsbD k) ∧ w3.getLsbD 8 = n.tag ∧
    (∀ k, 9 ≤ k → w3.getLsbD k = false)) ∧
  ∀ s : State, Inv s →
    (∀ i, readTarget s (.sym i) = (symAt s i).setWidth 32) ∧ (∀ i, readTarget s (.byte i) = (byteAt s i).setWidth 32) ∧
    (∀ v, readTarget s (.freq v) = freqAt s v) ∧
    (∀ i w, w < 4 → (nodeWords (nodeAt s i))[w]? = some (readTarget s (.node i w))) ∧
    (∀ v, readTarget s (.code v 0) = (codeAt s v).len.setWidth 32) ∧
    (∀ v w k, 1 ≤ w → w ≤ 8 → k < 32 → (readTarget s (.code v w)).getLsbD k = (codeAt s v).bits.getLsbD (32 * (w - 1) + k)) ∧
    (∀ v, let c := codeAt s v
      codeString s v = (List.range c.len.toNat).map fun j => c.bits.getLsbD (c.len.toNat - 1 - j))

/-! ## Reset and the invariant -/

/-- R47, R310, R311: `rst_n` going low, at any moment, puts every register at its reset value, abandons a running command and draws
the memories anew (nothing listed, draws not used before); host requests presented while it is low are not
performed; its going high changes nothing else (log 4); and an idle core without a host request does nothing. -/
def Obligations.ResetFromAnyState : Prop :=
  (∀ (s : State) (rest : List Input), s.inputs = .resetLow :: rest → ∃ t, step s = .next t ∧
    t = { State.reset with
          rstN := false, param1 := s.param1, param2 := s.param2, inputs := rest
          symDraw := t.symDraw, byteDraw := t.byteDraw, freqDraw := t.freqDraw, nodeDraw := t.nodeDraw
          codeDraw := t.codeDraw, draws := t.draws } ∧
    s.draws ≤ t.symDraw ∧ s.draws ≤ t.byteDraw ∧ s.draws ≤ t.freqDraw ∧ s.draws ≤ t.nodeDraw ∧ s.draws ≤ t.codeDraw ∧
    t.irq = false) ∧
  (∀ (s : State) (h : Input) (rest : List Input), s.rstN = false → s.inputs = h :: rest → h ≠ .resetLow → h ≠ .resetHigh →
    step s = .next { s with inputs := rest }) ∧
  (∀ (s : State) (rest : List Input), s.inputs = .resetHigh :: rest → step s = .next { s with rstN := true, inputs := rest }) ∧
  (∀ s : State, s.phase = .idle → s.inputs = [] → step s = .next s)

/-- The invariant holds right after reset. -/
def Obligations.InvariantHoldsAtReset : Prop := Inv State.reset

/-- Every step keeps the invariant: canonical memories, the latch, the running-command rule, the counters, the reset state. -/
def Obligations.StepKeepsTheInvariant : Prop := ∀ s t : State, Inv s → step s = .next t → Inv t
end

