-- ==== Sys2Proof/Laws/State.lean ====
section
/-! SUPPORT. One lemma per field per state update: what each shared update of State does to each field. -/

namespace Sys2Proof.Machine

@[simp] theorem forgetSym_rstN (s : State) : (forgetSym s).rstN = s.rstN := rfl
@[simp] theorem forgetSym_phase (s : State) : (forgetSym s).phase = s.phase := rfl
@[simp] theorem forgetSym_symLen (s : State) : (forgetSym s).symLen = s.symLen := rfl
@[simp] theorem forgetSym_byteLen (s : State) : (forgetSym s).byteLen = s.byteLen := rfl
@[simp] theorem forgetSym_pad (s : State) : (forgetSym s).pad = s.pad := rfl
@[simp] theorem forgetSym_bitLen (s : State) : (forgetSym s).bitLen = s.bitLen := rfl
@[simp] theorem forgetSym_rootValid (s : State) : (forgetSym s).rootValid = s.rootValid := rfl
@[simp] theorem forgetSym_rootIdx (s : State) : (forgetSym s).rootIdx = s.rootIdx := rfl
@[simp] theorem forgetSym_nnode (s : State) : (forgetSym s).nnode = s.nnode := rfl
@[simp] theorem forgetSym_nleaf (s : State) : (forgetSym s).nleaf = s.nleaf := rfl
@[simp] theorem forgetSym_cmd (s : State) : (forgetSym s).cmd = s.cmd := rfl
@[simp] theorem forgetSym_done (s : State) : (forgetSym s).done = s.done := rfl
@[simp] theorem forgetSym_err (s : State) : (forgetSym s).err = s.err := rfl
@[simp] theorem forgetSym_empty (s : State) : (forgetSym s).empty = s.empty := rfl
@[simp] theorem forgetSym_drop (s : State) : (forgetSym s).drop = s.drop := rfl
@[simp] theorem forgetSym_errCode (s : State) : (forgetSym s).errCode = s.errCode := rfl
@[simp] theorem forgetSym_errInfo (s : State) : (forgetSym s).errInfo = s.errInfo := rfl
@[simp] theorem forgetSym_doneIe (s : State) : (forgetSym s).doneIe = s.doneIe := rfl
@[simp] theorem forgetSym_errIe (s : State) : (forgetSym s).errIe = s.errIe := rfl
@[simp] theorem forgetSym_param1 (s : State) : (forgetSym s).param1 = s.param1 := rfl
@[simp] theorem forgetSym_param2 (s : State) : (forgetSym s).param2 = s.param2 := rfl
@[simp] theorem forgetSym_sym (s : State) : (forgetSym s).sym = [] := rfl
@[simp] theorem forgetSym_byte (s : State) : (forgetSym s).byte = s.byte := rfl
@[simp] theorem forgetSym_freq (s : State) : (forgetSym s).freq = s.freq := rfl
@[simp] theorem forgetSym_node (s : State) : (forgetSym s).node = s.node := rfl
@[simp] theorem forgetSym_code (s : State) : (forgetSym s).code = s.code := rfl
@[simp] theorem forgetSym_symDraw (s : State) : (forgetSym s).symDraw = s.draws := rfl
@[simp] theorem forgetSym_byteDraw (s : State) : (forgetSym s).byteDraw = s.byteDraw := rfl
@[simp] theorem forgetSym_freqDraw (s : State) : (forgetSym s).freqDraw = s.freqDraw := rfl
@[simp] theorem forgetSym_nodeDraw (s : State) : (forgetSym s).nodeDraw = s.nodeDraw := rfl
@[simp] theorem forgetSym_codeDraw (s : State) : (forgetSym s).codeDraw = s.codeDraw := rfl
@[simp] theorem forgetSym_draws (s : State) : (forgetSym s).draws = s.draws + 1 := rfl
@[simp] theorem forgetSym_inputs (s : State) : (forgetSym s).inputs = s.inputs := rfl
@[simp] theorem forgetSym_rsp (s : State) : (forgetSym s).rsp = s.rsp := rfl

@[simp] theorem forgetByte_rstN (s : State) : (forgetByte s).rstN = s.rstN := rfl
@[simp] theorem forgetByte_phase (s : State) : (forgetByte s).phase = s.phase := rfl
@[simp] theorem forgetByte_symLen (s : State) : (forgetByte s).symLen = s.symLen := rfl
@[simp] theorem forgetByte_byteLen (s : State) : (forgetByte s).byteLen = s.byteLen := rfl
@[simp] theorem forgetByte_pad (s : State) : (forgetByte s).pad = s.pad := rfl
@[simp] theorem forgetByte_bitLen (s : State) : (forgetByte s).bitLen = s.bitLen := rfl
@[simp] theorem forgetByte_rootValid (s : State) : (forgetByte s).rootValid = s.rootValid := rfl
@[simp] theorem forgetByte_rootIdx (s : State) : (forgetByte s).rootIdx = s.rootIdx := rfl
@[simp] theorem forgetByte_nnode (s : State) : (forgetByte s).nnode = s.nnode := rfl
@[simp] theorem forgetByte_nleaf (s : State) : (forgetByte s).nleaf = s.nleaf := rfl
@[simp] theorem forgetByte_cmd (s : State) : (forgetByte s).cmd = s.cmd := rfl
@[simp] theorem forgetByte_done (s : State) : (forgetByte s).done = s.done := rfl
@[simp] theorem forgetByte_err (s : State) : (forgetByte s).err = s.err := rfl
@[simp] theorem forgetByte_empty (s : State) : (forgetByte s).empty = s.empty := rfl
@[simp] theorem forgetByte_drop (s : State) : (forgetByte s).drop = s.drop := rfl
@[simp] theorem forgetByte_errCode (s : State) : (forgetByte s).errCode = s.errCode := rfl
@[simp] theorem forgetByte_errInfo (s : State) : (forgetByte s).errInfo = s.errInfo := rfl
@[simp] theorem forgetByte_doneIe (s : State) : (forgetByte s).doneIe = s.doneIe := rfl
@[simp] theorem forgetByte_errIe (s : State) : (forgetByte s).errIe = s.errIe := rfl
@[simp] theorem forgetByte_param1 (s : State) : (forgetByte s).param1 = s.param1 := rfl
@[simp] theorem forgetByte_param2 (s : State) : (forgetByte s).param2 = s.param2 := rfl
@[simp] theorem forgetByte_sym (s : State) : (forgetByte s).sym = s.sym := rfl
@[simp] theorem forgetByte_byte (s : State) : (forgetByte s).byte = [] := rfl
@[simp] theorem forgetByte_freq (s : State) : (forgetByte s).freq = s.freq := rfl
@[simp] theorem forgetByte_node (s : State) : (forgetByte s).node = s.node := rfl
@[simp] theorem forgetByte_code (s : State) : (forgetByte s).code = s.code := rfl
@[simp] theorem forgetByte_symDraw (s : State) : (forgetByte s).symDraw = s.symDraw := rfl
@[simp] theorem forgetByte_byteDraw (s : State) : (forgetByte s).byteDraw = s.draws := rfl
@[simp] theorem forgetByte_freqDraw (s : State) : (forgetByte s).freqDraw = s.freqDraw := rfl
@[simp] theorem forgetByte_nodeDraw (s : State) : (forgetByte s).nodeDraw = s.nodeDraw := rfl
@[simp] theorem forgetByte_codeDraw (s : State) : (forgetByte s).codeDraw = s.codeDraw := rfl
@[simp] theorem forgetByte_draws (s : State) : (forgetByte s).draws = s.draws + 1 := rfl
@[simp] theorem forgetByte_inputs (s : State) : (forgetByte s).inputs = s.inputs := rfl
@[simp] theorem forgetByte_rsp (s : State) : (forgetByte s).rsp = s.rsp := rfl

@[simp] theorem forgetMemories_rstN (s : State) : (forgetMemories s).rstN = s.rstN := rfl
@[simp] theorem forgetMemories_phase (s : State) : (forgetMemories s).phase = s.phase := rfl
@[simp] theorem forgetMemories_symLen (s : State) : (forgetMemories s).symLen = s.symLen := rfl
@[simp] theorem forgetMemories_byteLen (s : State) : (forgetMemories s).byteLen = s.byteLen := rfl
@[simp] theorem forgetMemories_pad (s : State) : (forgetMemories s).pad = s.pad := rfl
@[simp] theorem forgetMemories_bitLen (s : State) : (forgetMemories s).bitLen = s.bitLen := rfl
@[simp] theorem forgetMemories_rootValid (s : State) : (forgetMemories s).rootValid = s.rootValid := rfl
@[simp] theorem forgetMemories_rootIdx (s : State) : (forgetMemories s).rootIdx = s.rootIdx := rfl
@[simp] theorem forgetMemories_nnode (s : State) : (forgetMemories s).nnode = s.nnode := rfl
@[simp] theorem forgetMemories_nleaf (s : State) : (forgetMemories s).nleaf = s.nleaf := rfl
@[simp] theorem forgetMemories_cmd (s : State) : (forgetMemories s).cmd = s.cmd := rfl
@[simp] theorem forgetMemories_done (s : State) : (forgetMemories s).done = s.done := rfl
@[simp] theorem forgetMemories_err (s : State) : (forgetMemories s).err = s.err := rfl
@[simp] theorem forgetMemories_empty (s : State) : (forgetMemories s).empty = s.empty := rfl
@[simp] theorem forgetMemories_drop (s : State) : (forgetMemories s).drop = s.drop := rfl
@[simp] theorem forgetMemories_errCode (s : State) : (forgetMemories s).errCode = s.errCode := rfl
@[simp] theorem forgetMemories_errInfo (s : State) : (forgetMemories s).errInfo = s.errInfo := rfl
@[simp] theorem forgetMemories_doneIe (s : State) : (forgetMemories s).doneIe = s.doneIe := rfl
@[simp] theorem forgetMemories_errIe (s : State) : (forgetMemories s).errIe = s.errIe := rfl
@[simp] theorem forgetMemories_param1 (s : State) : (forgetMemories s).param1 = s.param1 := rfl
@[simp] theorem forgetMemories_param2 (s : State) : (forgetMemories s).param2 = s.param2 := rfl
@[simp] theorem forgetMemories_sym (s : State) : (forgetMemories s).sym = [] := rfl
@[simp] theorem forgetMemories_byte (s : State) : (forgetMemories s).byte = [] := rfl
@[simp] theorem forgetMemories_freq (s : State) : (forgetMemories s).freq = [] := rfl
@[simp] theorem forgetMemories_node (s : State) : (forgetMemories s).node = [] := rfl
@[simp] theorem forgetMemories_code (s : State) : (forgetMemories s).code = [] := rfl
@[simp] theorem forgetMemories_symDraw (s : State) : (forgetMemories s).symDraw = s.draws := rfl
@[simp] theorem forgetMemories_byteDraw (s : State) : (forgetMemories s).byteDraw = s.draws + 1 := rfl
@[simp] theorem forgetMemories_freqDraw (s : State) : (forgetMemories s).freqDraw = s.draws + 2 := rfl
@[simp] theorem forgetMemories_nodeDraw (s : State) : (forgetMemories s).nodeDraw = s.draws + 3 := rfl
@[simp] theorem forgetMemories_codeDraw (s : State) : (forgetMemories s).codeDraw = s.draws + 4 := rfl
@[simp] theorem forgetMemories_draws (s : State) : (forgetMemories s).draws = s.draws + 5 := rfl
@[simp] theorem forgetMemories_inputs (s : State) : (forgetMemories s).inputs = s.inputs := rfl
@[simp] theorem forgetMemories_rsp (s : State) : (forgetMemories s).rsp = s.rsp := rfl

@[simp] theorem latchError_rstN (e : CmdError) (s : State) : (latchError e s).rstN = s.rstN := rfl
@[simp] theorem latchError_phase (e : CmdError) (s : State) : (latchError e s).phase = .idle := rfl
@[simp] theorem latchError_symLen (e : CmdError) (s : State) : (latchError e s).symLen = s.symLen := rfl
@[simp] theorem latchError_byteLen (e : CmdError) (s : State) : (latchError e s).byteLen = s.byteLen := rfl
@[simp] theorem latchError_pad (e : CmdError) (s : State) : (latchError e s).pad = s.pad := rfl
@[simp] theorem latchError_bitLen (e : CmdError) (s : State) : (latchError e s).bitLen = s.bitLen := rfl
@[simp] theorem latchError_rootValid (e : CmdError) (s : State) : (latchError e s).rootValid = s.rootValid := rfl
@[simp] theorem latchError_rootIdx (e : CmdError) (s : State) : (latchError e s).rootIdx = s.rootIdx := rfl
@[simp] theorem latchError_nnode (e : CmdError) (s : State) : (latchError e s).nnode = s.nnode := rfl
@[simp] theorem latchError_nleaf (e : CmdError) (s : State) : (latchError e s).nleaf = s.nleaf := rfl
@[simp] theorem latchError_cmd (e : CmdError) (s : State) : (latchError e s).cmd = s.cmd := rfl
@[simp] theorem latchError_done (e : CmdError) (s : State) : (latchError e s).done = true := rfl
@[simp] theorem latchError_err (e : CmdError) (s : State) : (latchError e s).err = true := rfl
@[simp] theorem latchError_empty (e : CmdError) (s : State) : (latchError e s).empty = s.empty := rfl
@[simp] theorem latchError_drop (e : CmdError) (s : State) : (latchError e s).drop = s.drop := rfl
@[simp] theorem latchError_errCode (e : CmdError) (s : State) : (latchError e s).errCode = e.kind.code := rfl
@[simp] theorem latchError_errInfo (e : CmdError) (s : State) : (latchError e s).errInfo = e.info := rfl
@[simp] theorem latchError_doneIe (e : CmdError) (s : State) : (latchError e s).doneIe = s.doneIe := rfl
@[simp] theorem latchError_errIe (e : CmdError) (s : State) : (latchError e s).errIe = s.errIe := rfl
@[simp] theorem latchError_param1 (e : CmdError) (s : State) : (latchError e s).param1 = s.param1 := rfl
@[simp] theorem latchError_param2 (e : CmdError) (s : State) : (latchError e s).param2 = s.param2 := rfl
@[simp] theorem latchError_sym (e : CmdError) (s : State) : (latchError e s).sym = s.sym := rfl
@[simp] theorem latchError_byte (e : CmdError) (s : State) : (latchError e s).byte = s.byte := rfl
@[simp] theorem latchError_freq (e : CmdError) (s : State) : (latchError e s).freq = s.freq := rfl
@[simp] theorem latchError_node (e : CmdError) (s : State) : (latchError e s).node = s.node := rfl
@[simp] theorem latchError_code (e : CmdError) (s : State) : (latchError e s).code = s.code := rfl
@[simp] theorem latchError_symDraw (e : CmdError) (s : State) : (latchError e s).symDraw = s.symDraw := rfl
@[simp] theorem latchError_byteDraw (e : CmdError) (s : State) : (latchError e s).byteDraw = s.byteDraw := rfl
@[simp] theorem latchError_freqDraw (e : CmdError) (s : State) : (latchError e s).freqDraw = s.freqDraw := rfl
@[simp] theorem latchError_nodeDraw (e : CmdError) (s : State) : (latchError e s).nodeDraw = s.nodeDraw := rfl
@[simp] theorem latchError_codeDraw (e : CmdError) (s : State) : (latchError e s).codeDraw = s.codeDraw := rfl
@[simp] theorem latchError_draws (e : CmdError) (s : State) : (latchError e s).draws = s.draws := rfl
@[simp] theorem latchError_inputs (e : CmdError) (s : State) : (latchError e s).inputs = s.inputs := rfl
@[simp] theorem latchError_rsp (e : CmdError) (s : State) : (latchError e s).rsp = s.rsp := rfl

@[simp] theorem acceptCommand_rstN (w : Word) (s : State) : (acceptCommand w s).rstN = s.rstN := rfl
@[simp] theorem acceptCommand_phase (w : Word) (s : State) : (acceptCommand w s).phase = .busy := rfl
@[simp] theorem acceptCommand_symLen (w : Word) (s : State) : (acceptCommand w s).symLen = s.symLen := rfl
@[simp] theorem acceptCommand_byteLen (w : Word) (s : State) : (acceptCommand w s).byteLen = s.byteLen := rfl
@[simp] theorem acceptCommand_pad (w : Word) (s : State) : (acceptCommand w s).pad = s.pad := rfl
@[simp] theorem acceptCommand_bitLen (w : Word) (s : State) : (acceptCommand w s).bitLen = s.bitLen := rfl
@[simp] theorem acceptCommand_rootValid (w : Word) (s : State) : (acceptCommand w s).rootValid = s.rootValid := rfl
@[simp] theorem acceptCommand_rootIdx (w : Word) (s : State) : (acceptCommand w s).rootIdx = s.rootIdx := rfl
@[simp] theorem acceptCommand_nnode (w : Word) (s : State) : (acceptCommand w s).nnode = s.nnode := rfl
@[simp] theorem acceptCommand_nleaf (w : Word) (s : State) : (acceptCommand w s).nleaf = s.nleaf := rfl
@[simp] theorem acceptCommand_cmd (w : Word) (s : State) : (acceptCommand w s).cmd = w := rfl
@[simp] theorem acceptCommand_done (w : Word) (s : State) : (acceptCommand w s).done = false := rfl
@[simp] theorem acceptCommand_err (w : Word) (s : State) : (acceptCommand w s).err = s.err := rfl
@[simp] theorem acceptCommand_empty (w : Word) (s : State) : (acceptCommand w s).empty = false := rfl
@[simp] theorem acceptCommand_drop (w : Word) (s : State) : (acceptCommand w s).drop = s.drop := rfl
@[simp] theorem acceptCommand_errCode (w : Word) (s : State) : (acceptCommand w s).errCode = s.errCode := rfl
@[simp] theorem acceptCommand_errInfo (w : Word) (s : State) : (acceptCommand w s).errInfo = s.errInfo := rfl
@[simp] theorem acceptCommand_doneIe (w : Word) (s : State) : (acceptCommand w s).doneIe = s.doneIe := rfl
@[simp] theorem acceptCommand_errIe (w : Word) (s : State) : (acceptCommand w s).errIe = s.errIe := rfl
@[simp] theorem acceptCommand_param1 (w : Word) (s : State) : (acceptCommand w s).param1 = s.param1 := rfl
@[simp] theorem acceptCommand_param2 (w : Word) (s : State) : (acceptCommand w s).param2 = s.param2 := rfl
@[simp] theorem acceptCommand_sym (w : Word) (s : State) : (acceptCommand w s).sym = s.sym := rfl
@[simp] theorem acceptCommand_byte (w : Word) (s : State) : (acceptCommand w s).byte = s.byte := rfl
@[simp] theorem acceptCommand_freq (w : Word) (s : State) : (acceptCommand w s).freq = s.freq := rfl
@[simp] theorem acceptCommand_node (w : Word) (s : State) : (acceptCommand w s).node = s.node := rfl
@[simp] theorem acceptCommand_code (w : Word) (s : State) : (acceptCommand w s).code = s.code := rfl
@[simp] theorem acceptCommand_symDraw (w : Word) (s : State) : (acceptCommand w s).symDraw = s.symDraw := rfl
@[simp] theorem acceptCommand_byteDraw (w : Word) (s : State) : (acceptCommand w s).byteDraw = s.byteDraw := rfl
@[simp] theorem acceptCommand_freqDraw (w : Word) (s : State) : (acceptCommand w s).freqDraw = s.freqDraw := rfl
@[simp] theorem acceptCommand_nodeDraw (w : Word) (s : State) : (acceptCommand w s).nodeDraw = s.nodeDraw := rfl
@[simp] theorem acceptCommand_codeDraw (w : Word) (s : State) : (acceptCommand w s).codeDraw = s.codeDraw := rfl
@[simp] theorem acceptCommand_draws (w : Word) (s : State) : (acceptCommand w s).draws = s.draws := rfl
@[simp] theorem acceptCommand_inputs (w : Word) (s : State) : (acceptCommand w s).inputs = s.inputs := rfl
@[simp] theorem acceptCommand_rsp (w : Word) (s : State) : (acceptCommand w s).rsp = s.rsp := rfl

@[simp] theorem dropWrite_rstN (s : State) : (dropWrite s).rstN = s.rstN := rfl
@[simp] theorem dropWrite_phase (s : State) : (dropWrite s).phase = s.phase := rfl
@[simp] theorem dropWrite_symLen (s : State) : (dropWrite s).symLen = s.symLen := rfl
@[simp] theorem dropWrite_byteLen (s : State) : (dropWrite s).byteLen = s.byteLen := rfl
@[simp] theorem dropWrite_pad (s : State) : (dropWrite s).pad = s.pad := rfl
@[simp] theorem dropWrite_bitLen (s : State) : (dropWrite s).bitLen = s.bitLen := rfl
@[simp] theorem dropWrite_rootValid (s : State) : (dropWrite s).rootValid = s.rootValid := rfl
@[simp] theorem dropWrite_rootIdx (s : State) : (dropWrite s).rootIdx = s.rootIdx := rfl
@[simp] theorem dropWrite_nnode (s : State) : (dropWrite s).nnode = s.nnode := rfl
@[simp] theorem dropWrite_nleaf (s : State) : (dropWrite s).nleaf = s.nleaf := rfl
@[simp] theorem dropWrite_cmd (s : State) : (dropWrite s).cmd = s.cmd := rfl
@[simp] theorem dropWrite_done (s : State) : (dropWrite s).done = s.done := rfl
@[simp] theorem dropWrite_err (s : State) : (dropWrite s).err = s.err := rfl
@[simp] theorem dropWrite_empty (s : State) : (dropWrite s).empty = s.empty := rfl
@[simp] theorem dropWrite_drop (s : State) : (dropWrite s).drop = true := rfl
@[simp] theorem dropWrite_errCode (s : State) : (dropWrite s).errCode = s.errCode := rfl
@[simp] theorem dropWrite_errInfo (s : State) : (dropWrite s).errInfo = s.errInfo := rfl
@[simp] theorem dropWrite_doneIe (s : State) : (dropWrite s).doneIe = s.doneIe := rfl
@[simp] theorem dropWrite_errIe (s : State) : (dropWrite s).errIe = s.errIe := rfl
@[simp] theorem dropWrite_param1 (s : State) : (dropWrite s).param1 = s.param1 := rfl
@[simp] theorem dropWrite_param2 (s : State) : (dropWrite s).param2 = s.param2 := rfl
@[simp] theorem dropWrite_sym (s : State) : (dropWrite s).sym = s.sym := rfl
@[simp] theorem dropWrite_byte (s : State) : (dropWrite s).byte = s.byte := rfl
@[simp] theorem dropWrite_freq (s : State) : (dropWrite s).freq = s.freq := rfl
@[simp] theorem dropWrite_node (s : State) : (dropWrite s).node = s.node := rfl
@[simp] theorem dropWrite_code (s : State) : (dropWrite s).code = s.code := rfl
@[simp] theorem dropWrite_symDraw (s : State) : (dropWrite s).symDraw = s.symDraw := rfl
@[simp] theorem dropWrite_byteDraw (s : State) : (dropWrite s).byteDraw = s.byteDraw := rfl
@[simp] theorem dropWrite_freqDraw (s : State) : (dropWrite s).freqDraw = s.freqDraw := rfl
@[simp] theorem dropWrite_nodeDraw (s : State) : (dropWrite s).nodeDraw = s.nodeDraw := rfl
@[simp] theorem dropWrite_codeDraw (s : State) : (dropWrite s).codeDraw = s.codeDraw := rfl
@[simp] theorem dropWrite_draws (s : State) : (dropWrite s).draws = s.draws := rfl
@[simp] theorem dropWrite_inputs (s : State) : (dropWrite s).inputs = s.inputs := rfl
@[simp] theorem dropWrite_rsp (s : State) : (dropWrite s).rsp = s.rsp := rfl

@[simp] theorem finishOk_rstN (s : State) : (finishOk s).rstN = s.rstN := rfl
@[simp] theorem finishOk_phase (s : State) : (finishOk s).phase = .idle := rfl
@[simp] theorem finishOk_symLen (s : State) : (finishOk s).symLen = s.symLen := rfl
@[simp] theorem finishOk_byteLen (s : State) : (finishOk s).byteLen = s.byteLen := rfl
@[simp] theorem finishOk_pad (s : State) : (finishOk s).pad = s.pad := rfl
@[simp] theorem finishOk_bitLen (s : State) : (finishOk s).bitLen = s.bitLen := rfl
@[simp] theorem finishOk_rootValid (s : State) : (finishOk s).rootValid = s.rootValid := rfl
@[simp] theorem finishOk_rootIdx (s : State) : (finishOk s).rootIdx = s.rootIdx := rfl
@[simp] theorem finishOk_nnode (s : State) : (finishOk s).nnode = s.nnode := rfl
@[simp] theorem finishOk_nleaf (s : State) : (finishOk s).nleaf = s.nleaf := rfl
@[simp] theorem finishOk_cmd (s : State) : (finishOk s).cmd = s.cmd := rfl
@[simp] theorem finishOk_done (s : State) : (finishOk s).done = true := rfl
@[simp] theorem finishOk_err (s : State) : (finishOk s).err = s.err := rfl
@[simp] theorem finishOk_empty (s : State) : (finishOk s).empty = s.empty := rfl
@[simp] theorem finishOk_drop (s : State) : (finishOk s).drop = s.drop := rfl
@[simp] theorem finishOk_errCode (s : State) : (finishOk s).errCode = s.errCode := rfl
@[simp] theorem finishOk_errInfo (s : State) : (finishOk s).errInfo = s.errInfo := rfl
@[simp] theorem finishOk_doneIe (s : State) : (finishOk s).doneIe = s.doneIe := rfl
@[simp] theorem finishOk_errIe (s : State) : (finishOk s).errIe = s.errIe := rfl
@[simp] theorem finishOk_param1 (s : State) : (finishOk s).param1 = s.param1 := rfl
@[simp] theorem finishOk_param2 (s : State) : (finishOk s).param2 = s.param2 := rfl
@[simp] theorem finishOk_sym (s : State) : (finishOk s).sym = s.sym := rfl
@[simp] theorem finishOk_byte (s : State) : (finishOk s).byte = s.byte := rfl
@[simp] theorem finishOk_freq (s : State) : (finishOk s).freq = s.freq := rfl
@[simp] theorem finishOk_node (s : State) : (finishOk s).node = s.node := rfl
@[simp] theorem finishOk_code (s : State) : (finishOk s).code = s.code := rfl
@[simp] theorem finishOk_symDraw (s : State) : (finishOk s).symDraw = s.symDraw := rfl
@[simp] theorem finishOk_byteDraw (s : State) : (finishOk s).byteDraw = s.byteDraw := rfl
@[simp] theorem finishOk_freqDraw (s : State) : (finishOk s).freqDraw = s.freqDraw := rfl
@[simp] theorem finishOk_nodeDraw (s : State) : (finishOk s).nodeDraw = s.nodeDraw := rfl
@[simp] theorem finishOk_codeDraw (s : State) : (finishOk s).codeDraw = s.codeDraw := rfl
@[simp] theorem finishOk_draws (s : State) : (finishOk s).draws = s.draws := rfl
@[simp] theorem finishOk_inputs (s : State) : (finishOk s).inputs = s.inputs := rfl
@[simp] theorem finishOk_rsp (s : State) : (finishOk s).rsp = s.rsp := rfl

@[simp] theorem enterReset_rstN (s : State) : (enterReset s).rstN = false := rfl
@[simp] theorem enterReset_phase (s : State) : (enterReset s).phase = .idle := rfl
@[simp] theorem enterReset_symLen (s : State) : (enterReset s).symLen = 0 := rfl
@[simp] theorem enterReset_byteLen (s : State) : (enterReset s).byteLen = 0 := rfl
@[simp] theorem enterReset_pad (s : State) : (enterReset s).pad = 0 := rfl
@[simp] theorem enterReset_bitLen (s : State) : (enterReset s).bitLen = 0 := rfl
@[simp] theorem enterReset_rootValid (s : State) : (enterReset s).rootValid = false := rfl
@[simp] theorem enterReset_rootIdx (s : State) : (enterReset s).rootIdx = 0 := rfl
@[simp] theorem enterReset_nnode (s : State) : (enterReset s).nnode = 0 := rfl
@[simp] theorem enterReset_nleaf (s : State) : (enterReset s).nleaf = 0 := rfl
@[simp] theorem enterReset_cmd (s : State) : (enterReset s).cmd = 0 := rfl
@[simp] theorem enterReset_done (s : State) : (enterReset s).done = false := rfl
@[simp] theorem enterReset_err (s : State) : (enterReset s).err = false := rfl
@[simp] theorem enterReset_empty (s : State) : (enterReset s).empty = false := rfl
@[simp] theorem enterReset_drop (s : State) : (enterReset s).drop = false := rfl
@[simp] theorem enterReset_errCode (s : State) : (enterReset s).errCode = 0 := rfl
@[simp] theorem enterReset_errInfo (s : State) : (enterReset s).errInfo = 0 := rfl
@[simp] theorem enterReset_doneIe (s : State) : (enterReset s).doneIe = false := rfl
@[simp] theorem enterReset_errIe (s : State) : (enterReset s).errIe = false := rfl
@[simp] theorem enterReset_param1 (s : State) : (enterReset s).param1 = s.param1 := rfl
@[simp] theorem enterReset_param2 (s : State) : (enterReset s).param2 = s.param2 := rfl
@[simp] theorem enterReset_sym (s : State) : (enterReset s).sym = [] := rfl
@[simp] theorem enterReset_byte (s : State) : (enterReset s).byte = [] := rfl
@[simp] theorem enterReset_freq (s : State) : (enterReset s).freq = [] := rfl
@[simp] theorem enterReset_node (s : State) : (enterReset s).node = [] := rfl
@[simp] theorem enterReset_code (s : State) : (enterReset s).code = [] := rfl
@[simp] theorem enterReset_symDraw (s : State) : (enterReset s).symDraw = s.draws := rfl
@[simp] theorem enterReset_byteDraw (s : State) : (enterReset s).byteDraw = s.draws + 1 := rfl
@[simp] theorem enterReset_freqDraw (s : State) : (enterReset s).freqDraw = s.draws + 2 := rfl
@[simp] theorem enterReset_nodeDraw (s : State) : (enterReset s).nodeDraw = s.draws + 3 := rfl
@[simp] theorem enterReset_codeDraw (s : State) : (enterReset s).codeDraw = s.draws + 4 := rfl
@[simp] theorem enterReset_draws (s : State) : (enterReset s).draws = s.draws + 5 := rfl
@[simp] theorem enterReset_inputs (s : State) : (enterReset s).inputs = s.inputs := rfl
@[simp] theorem enterReset_rsp (s : State) : (enterReset s).rsp = none := rfl

@[simp] theorem leaveReset_rstN (s : State) : (leaveReset s).rstN = true := rfl
@[simp] theorem leaveReset_phase (s : State) : (leaveReset s).phase = s.phase := rfl
@[simp] theorem leaveReset_symLen (s : State) : (leaveReset s).symLen = s.symLen := rfl
@[simp] theorem leaveReset_byteLen (s : State) : (leaveReset s).byteLen = s.byteLen := rfl
@[simp] theorem leaveReset_pad (s : State) : (leaveReset s).pad = s.pad := rfl
@[simp] theorem leaveReset_bitLen (s : State) : (leaveReset s).bitLen = s.bitLen := rfl
@[simp] theorem leaveReset_rootValid (s : State) : (leaveReset s).rootValid = s.rootValid := rfl
@[simp] theorem leaveReset_rootIdx (s : State) : (leaveReset s).rootIdx = s.rootIdx := rfl
@[simp] theorem leaveReset_nnode (s : State) : (leaveReset s).nnode = s.nnode := rfl
@[simp] theorem leaveReset_nleaf (s : State) : (leaveReset s).nleaf = s.nleaf := rfl
@[simp] theorem leaveReset_cmd (s : State) : (leaveReset s).cmd = s.cmd := rfl
@[simp] theorem leaveReset_done (s : State) : (leaveReset s).done = s.done := rfl
@[simp] theorem leaveReset_err (s : State) : (leaveReset s).err = s.err := rfl
@[simp] theorem leaveReset_empty (s : State) : (leaveReset s).empty = s.empty := rfl
@[simp] theorem leaveReset_drop (s : State) : (leaveReset s).drop = s.drop := rfl
@[simp] theorem leaveReset_errCode (s : State) : (leaveReset s).errCode = s.errCode := rfl
@[simp] theorem leaveReset_errInfo (s : State) : (leaveReset s).errInfo = s.errInfo := rfl
@[simp] theorem leaveReset_doneIe (s : State) : (leaveReset s).doneIe = s.doneIe := rfl
@[simp] theorem leaveReset_errIe (s : State) : (leaveReset s).errIe = s.errIe := rfl
@[simp] theorem leaveReset_param1 (s : State) : (leaveReset s).param1 = s.param1 := rfl
@[simp] theorem leaveReset_param2 (s : State) : (leaveReset s).param2 = s.param2 := rfl
@[simp] theorem leaveReset_sym (s : State) : (leaveReset s).sym = s.sym := rfl
@[simp] theorem leaveReset_byte (s : State) : (leaveReset s).byte = s.byte := rfl
@[simp] theorem leaveReset_freq (s : State) : (leaveReset s).freq = s.freq := rfl
@[simp] theorem leaveReset_node (s : State) : (leaveReset s).node = s.node := rfl
@[simp] theorem leaveReset_code (s : State) : (leaveReset s).code = s.code := rfl
@[simp] theorem leaveReset_symDraw (s : State) : (leaveReset s).symDraw = s.symDraw := rfl
@[simp] theorem leaveReset_byteDraw (s : State) : (leaveReset s).byteDraw = s.byteDraw := rfl
@[simp] theorem leaveReset_freqDraw (s : State) : (leaveReset s).freqDraw = s.freqDraw := rfl
@[simp] theorem leaveReset_nodeDraw (s : State) : (leaveReset s).nodeDraw = s.nodeDraw := rfl
@[simp] theorem leaveReset_codeDraw (s : State) : (leaveReset s).codeDraw = s.codeDraw := rfl
@[simp] theorem leaveReset_draws (s : State) : (leaveReset s).draws = s.draws := rfl
@[simp] theorem leaveReset_inputs (s : State) : (leaveReset s).inputs = s.inputs := rfl
@[simp] theorem leaveReset_rsp (s : State) : (leaveReset s).rsp = s.rsp := rfl

@[simp] theorem installTree_rstN (nodes : List Node) (n : Nat) (s : State) : (installTree nodes n s).rstN = s.rstN := rfl
@[simp] theorem installTree_phase (nodes : List Node) (n : Nat) (s : State) : (installTree nodes n s).phase = s.phase := rfl
@[simp] theorem installTree_symLen (nodes : List Node) (n : Nat) (s : State) : (installTree nodes n s).symLen = s.symLen := rfl
@[simp] theorem installTree_byteLen (nodes : List Node) (n : Nat) (s : State) : (installTree nodes n s).byteLen = s.byteLen := rfl
@[simp] theorem installTree_pad (nodes : List Node) (n : Nat) (s : State) : (installTree nodes n s).pad = s.pad := rfl
@[simp] theorem installTree_bitLen (nodes : List Node) (n : Nat) (s : State) : (installTree nodes n s).bitLen = s.bitLen := rfl
@[simp] theorem installTree_rootValid (nodes : List Node) (n : Nat) (s : State) : (installTree nodes n s).rootValid = true := rfl
@[simp] theorem installTree_rootIdx (nodes : List Node) (n : Nat) (s : State) : (installTree nodes n s).rootIdx = BitVec.ofNat 9 (nodes.length - 1) := rfl
@[simp] theorem installTree_nnode (nodes : List Node) (n : Nat) (s : State) : (installTree nodes n s).nnode = BitVec.ofNat 10 nodes.length := rfl
@[simp] theorem installTree_nleaf (nodes : List Node) (n : Nat) (s : State) : (installTree nodes n s).nleaf = BitVec.ofNat 9 n := rfl
@[simp] theorem installTree_cmd (nodes : List Node) (n : Nat) (s : State) : (installTree nodes n s).cmd = s.cmd := rfl
@[simp] theorem installTree_done (nodes : List Node) (n : Nat) (s : State) : (installTree nodes n s).done = s.done := rfl
@[simp] theorem installTree_err (nodes : List Node) (n : Nat) (s : State) : (installTree nodes n s).err = s.err := rfl
@[simp] theorem installTree_empty (nodes : List Node) (n : Nat) (s : State) : (installTree nodes n s).empty = s.empty := rfl
@[simp] theorem installTree_drop (nodes : List Node) (n : Nat) (s : State) : (installTree nodes n s).drop = s.drop := rfl
@[simp] theorem installTree_errCode (nodes : List Node) (n : Nat) (s : State) : (installTree nodes n s).errCode = s.errCode := rfl
@[simp] theorem installTree_errInfo (nodes : List Node) (n : Nat) (s : State) : (installTree nodes n s).errInfo = s.errInfo := rfl
@[simp] theorem installTree_doneIe (nodes : List Node) (n : Nat) (s : State) : (installTree nodes n s).doneIe = s.doneIe := rfl
@[simp] theorem installTree_errIe (nodes : List Node) (n : Nat) (s : State) : (installTree nodes n s).errIe = s.errIe := rfl
@[simp] theorem installTree_param1 (nodes : List Node) (n : Nat) (s : State) : (installTree nodes n s).param1 = s.param1 := rfl
@[simp] theorem installTree_param2 (nodes : List Node) (n : Nat) (s : State) : (installTree nodes n s).param2 = s.param2 := rfl
@[simp] theorem installTree_sym (nodes : List Node) (n : Nat) (s : State) : (installTree nodes n s).sym = s.sym := rfl
@[simp] theorem installTree_byte (nodes : List Node) (n : Nat) (s : State) : (installTree nodes n s).byte = s.byte := rfl
@[simp] theorem installTree_freq (nodes : List Node) (n : Nat) (s : State) : (installTree nodes n s).freq = s.freq := rfl
@[simp] theorem installTree_node (nodes : List Node) (n : Nat) (s : State) : (installTree nodes n s).node = Memory.writePrefix s.node (arenaWords nodes) := rfl
@[simp] theorem installTree_code (nodes : List Node) (n : Nat) (s : State) : (installTree nodes n s).code = s.code := rfl
@[simp] theorem installTree_symDraw (nodes : List Node) (n : Nat) (s : State) : (installTree nodes n s).symDraw = s.symDraw := rfl
@[simp] theorem installTree_byteDraw (nodes : List Node) (n : Nat) (s : State) : (installTree nodes n s).byteDraw = s.byteDraw := rfl
@[simp] theorem installTree_freqDraw (nodes : List Node) (n : Nat) (s : State) : (installTree nodes n s).freqDraw = s.freqDraw := rfl
@[simp] theorem installTree_nodeDraw (nodes : List Node) (n : Nat) (s : State) : (installTree nodes n s).nodeDraw = s.nodeDraw := rfl
@[simp] theorem installTree_codeDraw (nodes : List Node) (n : Nat) (s : State) : (installTree nodes n s).codeDraw = s.codeDraw := rfl
@[simp] theorem installTree_draws (nodes : List Node) (n : Nat) (s : State) : (installTree nodes n s).draws = s.draws := rfl
@[simp] theorem installTree_inputs (nodes : List Node) (n : Nat) (s : State) : (installTree nodes n s).inputs = s.inputs := rfl
@[simp] theorem installTree_rsp (nodes : List Node) (n : Nat) (s : State) : (installTree nodes n s).rsp = s.rsp := rfl

@[simp] theorem packFailed_rstN (s : State) : (packFailed s).rstN = s.rstN := rfl
@[simp] theorem packFailed_phase (s : State) : (packFailed s).phase = s.phase := rfl
@[simp] theorem packFailed_symLen (s : State) : (packFailed s).symLen = s.symLen := rfl
@[simp] theorem packFailed_byteLen (s : State) : (packFailed s).byteLen = 0 := rfl
@[simp] theorem packFailed_pad (s : State) : (packFailed s).pad = 0 := rfl
@[simp] theorem packFailed_bitLen (s : State) : (packFailed s).bitLen = 0 := rfl
@[simp] theorem packFailed_rootValid (s : State) : (packFailed s).rootValid = s.rootValid := rfl
@[simp] theorem packFailed_rootIdx (s : State) : (packFailed s).rootIdx = s.rootIdx := rfl
@[simp] theorem packFailed_nnode (s : State) : (packFailed s).nnode = s.nnode := rfl
@[simp] theorem packFailed_nleaf (s : State) : (packFailed s).nleaf = s.nleaf := rfl
@[simp] theorem packFailed_cmd (s : State) : (packFailed s).cmd = s.cmd := rfl
@[simp] theorem packFailed_done (s : State) : (packFailed s).done = s.done := rfl
@[simp] theorem packFailed_err (s : State) : (packFailed s).err = s.err := rfl
@[simp] theorem packFailed_empty (s : State) : (packFailed s).empty = s.empty := rfl
@[simp] theorem packFailed_drop (s : State) : (packFailed s).drop = s.drop := rfl
@[simp] theorem packFailed_errCode (s : State) : (packFailed s).errCode = s.errCode := rfl
@[simp] theorem packFailed_errInfo (s : State) : (packFailed s).errInfo = s.errInfo := rfl
@[simp] theorem packFailed_doneIe (s : State) : (packFailed s).doneIe = s.doneIe := rfl
@[simp] theorem packFailed_errIe (s : State) : (packFailed s).errIe = s.errIe := rfl
@[simp] theorem packFailed_param1 (s : State) : (packFailed s).param1 = s.param1 := rfl
@[simp] theorem packFailed_param2 (s : State) : (packFailed s).param2 = s.param2 := rfl
@[simp] theorem packFailed_sym (s : State) : (packFailed s).sym = s.sym := rfl
@[simp] theorem packFailed_byte (s : State) : (packFailed s).byte = [] := rfl
@[simp] theorem packFailed_freq (s : State) : (packFailed s).freq = s.freq := rfl
@[simp] theorem packFailed_node (s : State) : (packFailed s).node = s.node := rfl
@[simp] theorem packFailed_code (s : State) : (packFailed s).code = s.code := rfl
@[simp] theorem packFailed_symDraw (s : State) : (packFailed s).symDraw = s.symDraw := rfl
@[simp] theorem packFailed_byteDraw (s : State) : (packFailed s).byteDraw = s.draws := rfl
@[simp] theorem packFailed_freqDraw (s : State) : (packFailed s).freqDraw = s.freqDraw := rfl
@[simp] theorem packFailed_nodeDraw (s : State) : (packFailed s).nodeDraw = s.nodeDraw := rfl
@[simp] theorem packFailed_codeDraw (s : State) : (packFailed s).codeDraw = s.codeDraw := rfl
@[simp] theorem packFailed_draws (s : State) : (packFailed s).draws = s.draws + 1 := rfl
@[simp] theorem packFailed_inputs (s : State) : (packFailed s).inputs = s.inputs := rfl
@[simp] theorem packFailed_rsp (s : State) : (packFailed s).rsp = s.rsp := rfl

@[simp] theorem storePayload_rstN (stream : List Bool) (s : State) : (storePayload stream s).rstN = s.rstN := rfl
@[simp] theorem storePayload_phase (stream : List Bool) (s : State) : (storePayload stream s).phase = s.phase := rfl
@[simp] theorem storePayload_symLen (stream : List Bool) (s : State) : (storePayload stream s).symLen = s.symLen := rfl
@[simp] theorem storePayload_byteLen (stream : List Bool) (s : State) : (storePayload stream s).byteLen = BitVec.ofNat 32 ((stream.length + padding stream.length) / 8) := rfl
@[simp] theorem storePayload_pad (stream : List Bool) (s : State) : (storePayload stream s).pad = BitVec.ofNat 32 (padding stream.length) := rfl
@[simp] theorem storePayload_bitLen (stream : List Bool) (s : State) : (storePayload stream s).bitLen = BitVec.ofNat 32 stream.length := rfl
@[simp] theorem storePayload_rootValid (stream : List Bool) (s : State) : (storePayload stream s).rootValid = s.rootValid := rfl
@[simp] theorem storePayload_rootIdx (stream : List Bool) (s : State) : (storePayload stream s).rootIdx = s.rootIdx := rfl
@[simp] theorem storePayload_nnode (stream : List Bool) (s : State) : (storePayload stream s).nnode = s.nnode := rfl
@[simp] theorem storePayload_nleaf (stream : List Bool) (s : State) : (storePayload stream s).nleaf = s.nleaf := rfl
@[simp] theorem storePayload_cmd (stream : List Bool) (s : State) : (storePayload stream s).cmd = s.cmd := rfl
@[simp] theorem storePayload_done (stream : List Bool) (s : State) : (storePayload stream s).done = s.done := rfl
@[simp] theorem storePayload_err (stream : List Bool) (s : State) : (storePayload stream s).err = s.err := rfl
@[simp] theorem storePayload_empty (stream : List Bool) (s : State) : (storePayload stream s).empty = s.empty := rfl
@[simp] theorem storePayload_drop (stream : List Bool) (s : State) : (storePayload stream s).drop = s.drop := rfl
@[simp] theorem storePayload_errCode (stream : List Bool) (s : State) : (storePayload stream s).errCode = s.errCode := rfl
@[simp] theorem storePayload_errInfo (stream : List Bool) (s : State) : (storePayload stream s).errInfo = s.errInfo := rfl
@[simp] theorem storePayload_doneIe (stream : List Bool) (s : State) : (storePayload stream s).doneIe = s.doneIe := rfl
@[simp] theorem storePayload_errIe (stream : List Bool) (s : State) : (storePayload stream s).errIe = s.errIe := rfl
@[simp] theorem storePayload_param1 (stream : List Bool) (s : State) : (storePayload stream s).param1 = s.param1 := rfl
@[simp] theorem storePayload_param2 (stream : List Bool) (s : State) : (storePayload stream s).param2 = s.param2 := rfl
@[simp] theorem storePayload_sym (stream : List Bool) (s : State) : (storePayload stream s).sym = s.sym := rfl
@[simp] theorem storePayload_byte (stream : List Bool) (s : State) : (storePayload stream s).byte = Memory.writePrefix s.byte (groupBytes (stream ++ List.replicate (padding stream.length) false)) := rfl
@[simp] theorem storePayload_freq (stream : List Bool) (s : State) : (storePayload stream s).freq = s.freq := rfl
@[simp] theorem storePayload_node (stream : List Bool) (s : State) : (storePayload stream s).node = s.node := rfl
@[simp] theorem storePayload_code (stream : List Bool) (s : State) : (storePayload stream s).code = s.code := rfl
@[simp] theorem storePayload_symDraw (stream : List Bool) (s : State) : (storePayload stream s).symDraw = s.symDraw := rfl
@[simp] theorem storePayload_byteDraw (stream : List Bool) (s : State) : (storePayload stream s).byteDraw = s.byteDraw := rfl
@[simp] theorem storePayload_freqDraw (stream : List Bool) (s : State) : (storePayload stream s).freqDraw = s.freqDraw := rfl
@[simp] theorem storePayload_nodeDraw (stream : List Bool) (s : State) : (storePayload stream s).nodeDraw = s.nodeDraw := rfl
@[simp] theorem storePayload_codeDraw (stream : List Bool) (s : State) : (storePayload stream s).codeDraw = s.codeDraw := rfl
@[simp] theorem storePayload_draws (stream : List Bool) (s : State) : (storePayload stream s).draws = s.draws := rfl
@[simp] theorem storePayload_inputs (stream : List Bool) (s : State) : (storePayload stream s).inputs = s.inputs := rfl
@[simp] theorem storePayload_rsp (stream : List Bool) (s : State) : (storePayload stream s).rsp = s.rsp := rfl

@[simp] theorem unpackFailed_rstN (s : State) : (unpackFailed s).rstN = s.rstN := rfl
@[simp] theorem unpackFailed_phase (s : State) : (unpackFailed s).phase = s.phase := rfl
@[simp] theorem unpackFailed_symLen (s : State) : (unpackFailed s).symLen = 0 := rfl
@[simp] theorem unpackFailed_byteLen (s : State) : (unpackFailed s).byteLen = s.byteLen := rfl
@[simp] theorem unpackFailed_pad (s : State) : (unpackFailed s).pad = s.pad := rfl
@[simp] theorem unpackFailed_bitLen (s : State) : (unpackFailed s).bitLen = s.bitLen := rfl
@[simp] theorem unpackFailed_rootValid (s : State) : (unpackFailed s).rootValid = s.rootValid := rfl
@[simp] theorem unpackFailed_rootIdx (s : State) : (unpackFailed s).rootIdx = s.rootIdx := rfl
@[simp] theorem unpackFailed_nnode (s : State) : (unpackFailed s).nnode = s.nnode := rfl
@[simp] theorem unpackFailed_nleaf (s : State) : (unpackFailed s).nleaf = s.nleaf := rfl
@[simp] theorem unpackFailed_cmd (s : State) : (unpackFailed s).cmd = s.cmd := rfl
@[simp] theorem unpackFailed_done (s : State) : (unpackFailed s).done = s.done := rfl
@[simp] theorem unpackFailed_err (s : State) : (unpackFailed s).err = s.err := rfl
@[simp] theorem unpackFailed_empty (s : State) : (unpackFailed s).empty = s.empty := rfl
@[simp] theorem unpackFailed_drop (s : State) : (unpackFailed s).drop = s.drop := rfl
@[simp] theorem unpackFailed_errCode (s : State) : (unpackFailed s).errCode = s.errCode := rfl
@[simp] theorem unpackFailed_errInfo (s : State) : (unpackFailed s).errInfo = s.errInfo := rfl
@[simp] theorem unpackFailed_doneIe (s : State) : (unpackFailed s).doneIe = s.doneIe := rfl
@[simp] theorem unpackFailed_errIe (s : State) : (unpackFailed s).errIe = s.errIe := rfl
@[simp] theorem unpackFailed_param1 (s : State) : (unpackFailed s).param1 = s.param1 := rfl
@[simp] theorem unpackFailed_param2 (s : State) : (unpackFailed s).param2 = s.param2 := rfl
@[simp] theorem unpackFailed_sym (s : State) : (unpackFailed s).sym = [] := rfl
@[simp] theorem unpackFailed_byte (s : State) : (unpackFailed s).byte = s.byte := rfl
@[simp] theorem unpackFailed_freq (s : State) : (unpackFailed s).freq = s.freq := rfl
@[simp] theorem unpackFailed_node (s : State) : (unpackFailed s).node = s.node := rfl
@[simp] theorem unpackFailed_code (s : State) : (unpackFailed s).code = s.code := rfl
@[simp] theorem unpackFailed_symDraw (s : State) : (unpackFailed s).symDraw = s.draws := rfl
@[simp] theorem unpackFailed_byteDraw (s : State) : (unpackFailed s).byteDraw = s.byteDraw := rfl
@[simp] theorem unpackFailed_freqDraw (s : State) : (unpackFailed s).freqDraw = s.freqDraw := rfl
@[simp] theorem unpackFailed_nodeDraw (s : State) : (unpackFailed s).nodeDraw = s.nodeDraw := rfl
@[simp] theorem unpackFailed_codeDraw (s : State) : (unpackFailed s).codeDraw = s.codeDraw := rfl
@[simp] theorem unpackFailed_draws (s : State) : (unpackFailed s).draws = s.draws + 1 := rfl
@[simp] theorem unpackFailed_inputs (s : State) : (unpackFailed s).inputs = s.inputs := rfl
@[simp] theorem unpackFailed_rsp (s : State) : (unpackFailed s).rsp = s.rsp := rfl

@[simp] theorem storeSymbols_rstN (syms : List Byte) (s : State) : (storeSymbols syms s).rstN = s.rstN := rfl
@[simp] theorem storeSymbols_phase (syms : List Byte) (s : State) : (storeSymbols syms s).phase = s.phase := rfl
@[simp] theorem storeSymbols_symLen (syms : List Byte) (s : State) : (storeSymbols syms s).symLen = BitVec.ofNat 32 syms.length := rfl
@[simp] theorem storeSymbols_byteLen (syms : List Byte) (s : State) : (storeSymbols syms s).byteLen = s.byteLen := rfl
@[simp] theorem storeSymbols_pad (syms : List Byte) (s : State) : (storeSymbols syms s).pad = s.pad := rfl
@[simp] theorem storeSymbols_bitLen (syms : List Byte) (s : State) : (storeSymbols syms s).bitLen = s.bitLen := rfl
@[simp] theorem storeSymbols_rootValid (syms : List Byte) (s : State) : (storeSymbols syms s).rootValid = s.rootValid := rfl
@[simp] theorem storeSymbols_rootIdx (syms : List Byte) (s : State) : (storeSymbols syms s).rootIdx = s.rootIdx := rfl
@[simp] theorem storeSymbols_nnode (syms : List Byte) (s : State) : (storeSymbols syms s).nnode = s.nnode := rfl
@[simp] theorem storeSymbols_nleaf (syms : List Byte) (s : State) : (storeSymbols syms s).nleaf = s.nleaf := rfl
@[simp] theorem storeSymbols_cmd (syms : List Byte) (s : State) : (storeSymbols syms s).cmd = s.cmd := rfl
@[simp] theorem storeSymbols_done (syms : List Byte) (s : State) : (storeSymbols syms s).done = s.done := rfl
@[simp] theorem storeSymbols_err (syms : List Byte) (s : State) : (storeSymbols syms s).err = s.err := rfl
@[simp] theorem storeSymbols_empty (syms : List Byte) (s : State) : (storeSymbols syms s).empty = s.empty := rfl
@[simp] theorem storeSymbols_drop (syms : List Byte) (s : State) : (storeSymbols syms s).drop = s.drop := rfl
@[simp] theorem storeSymbols_errCode (syms : List Byte) (s : State) : (storeSymbols syms s).errCode = s.errCode := rfl
@[simp] theorem storeSymbols_errInfo (syms : List Byte) (s : State) : (storeSymbols syms s).errInfo = s.errInfo := rfl
@[simp] theorem storeSymbols_doneIe (syms : List Byte) (s : State) : (storeSymbols syms s).doneIe = s.doneIe := rfl
@[simp] theorem storeSymbols_errIe (syms : List Byte) (s : State) : (storeSymbols syms s).errIe = s.errIe := rfl
@[simp] theorem storeSymbols_param1 (syms : List Byte) (s : State) : (storeSymbols syms s).param1 = s.param1 := rfl
@[simp] theorem storeSymbols_param2 (syms : List Byte) (s : State) : (storeSymbols syms s).param2 = s.param2 := rfl
@[simp] theorem storeSymbols_sym (syms : List Byte) (s : State) : (storeSymbols syms s).sym = Memory.writePrefix s.sym syms := rfl
@[simp] theorem storeSymbols_byte (syms : List Byte) (s : State) : (storeSymbols syms s).byte = s.byte := rfl
@[simp] theorem storeSymbols_freq (syms : List Byte) (s : State) : (storeSymbols syms s).freq = s.freq := rfl
@[simp] theorem storeSymbols_node (syms : List Byte) (s : State) : (storeSymbols syms s).node = s.node := rfl
@[simp] theorem storeSymbols_code (syms : List Byte) (s : State) : (storeSymbols syms s).code = s.code := rfl
@[simp] theorem storeSymbols_symDraw (syms : List Byte) (s : State) : (storeSymbols syms s).symDraw = s.symDraw := rfl
@[simp] theorem storeSymbols_byteDraw (syms : List Byte) (s : State) : (storeSymbols syms s).byteDraw = s.byteDraw := rfl
@[simp] theorem storeSymbols_freqDraw (syms : List Byte) (s : State) : (storeSymbols syms s).freqDraw = s.freqDraw := rfl
@[simp] theorem storeSymbols_nodeDraw (syms : List Byte) (s : State) : (storeSymbols syms s).nodeDraw = s.nodeDraw := rfl
@[simp] theorem storeSymbols_codeDraw (syms : List Byte) (s : State) : (storeSymbols syms s).codeDraw = s.codeDraw := rfl
@[simp] theorem storeSymbols_draws (syms : List Byte) (s : State) : (storeSymbols syms s).draws = s.draws := rfl
@[simp] theorem storeSymbols_inputs (syms : List Byte) (s : State) : (storeSymbols syms s).inputs = s.inputs := rfl
@[simp] theorem storeSymbols_rsp (syms : List Byte) (s : State) : (storeSymbols syms s).rsp = s.rsp := rfl

@[simp] theorem emptyPayload_rstN (s : State) : (emptyPayload s).rstN = s.rstN := rfl
@[simp] theorem emptyPayload_phase (s : State) : (emptyPayload s).phase = s.phase := rfl
@[simp] theorem emptyPayload_symLen (s : State) : (emptyPayload s).symLen = s.symLen := rfl
@[simp] theorem emptyPayload_byteLen (s : State) : (emptyPayload s).byteLen = 0 := rfl
@[simp] theorem emptyPayload_pad (s : State) : (emptyPayload s).pad = 0 := rfl
@[simp] theorem emptyPayload_bitLen (s : State) : (emptyPayload s).bitLen = 0 := rfl
@[simp] theorem emptyPayload_rootValid (s : State) : (emptyPayload s).rootValid = false := rfl
@[simp] theorem emptyPayload_rootIdx (s : State) : (emptyPayload s).rootIdx = s.rootIdx := rfl
@[simp] theorem emptyPayload_nnode (s : State) : (emptyPayload s).nnode = s.nnode := rfl
@[simp] theorem emptyPayload_nleaf (s : State) : (emptyPayload s).nleaf = s.nleaf := rfl
@[simp] theorem emptyPayload_cmd (s : State) : (emptyPayload s).cmd = s.cmd := rfl
@[simp] theorem emptyPayload_done (s : State) : (emptyPayload s).done = s.done := rfl
@[simp] theorem emptyPayload_err (s : State) : (emptyPayload s).err = s.err := rfl
@[simp] theorem emptyPayload_empty (s : State) : (emptyPayload s).empty = s.empty := rfl
@[simp] theorem emptyPayload_drop (s : State) : (emptyPayload s).drop = s.drop := rfl
@[simp] theorem emptyPayload_errCode (s : State) : (emptyPayload s).errCode = s.errCode := rfl
@[simp] theorem emptyPayload_errInfo (s : State) : (emptyPayload s).errInfo = s.errInfo := rfl
@[simp] theorem emptyPayload_doneIe (s : State) : (emptyPayload s).doneIe = s.doneIe := rfl
@[simp] theorem emptyPayload_errIe (s : State) : (emptyPayload s).errIe = s.errIe := rfl
@[simp] theorem emptyPayload_param1 (s : State) : (emptyPayload s).param1 = s.param1 := rfl
@[simp] theorem emptyPayload_param2 (s : State) : (emptyPayload s).param2 = s.param2 := rfl
@[simp] theorem emptyPayload_sym (s : State) : (emptyPayload s).sym = s.sym := rfl
@[simp] theorem emptyPayload_byte (s : State) : (emptyPayload s).byte = s.byte := rfl
@[simp] theorem emptyPayload_freq (s : State) : (emptyPayload s).freq = s.freq := rfl
@[simp] theorem emptyPayload_node (s : State) : (emptyPayload s).node = s.node := rfl
@[simp] theorem emptyPayload_code (s : State) : (emptyPayload s).code = s.code := rfl
@[simp] theorem emptyPayload_symDraw (s : State) : (emptyPayload s).symDraw = s.symDraw := rfl
@[simp] theorem emptyPayload_byteDraw (s : State) : (emptyPayload s).byteDraw = s.byteDraw := rfl
@[simp] theorem emptyPayload_freqDraw (s : State) : (emptyPayload s).freqDraw = s.freqDraw := rfl
@[simp] theorem emptyPayload_nodeDraw (s : State) : (emptyPayload s).nodeDraw = s.nodeDraw := rfl
@[simp] theorem emptyPayload_codeDraw (s : State) : (emptyPayload s).codeDraw = s.codeDraw := rfl
@[simp] theorem emptyPayload_draws (s : State) : (emptyPayload s).draws = s.draws := rfl
@[simp] theorem emptyPayload_inputs (s : State) : (emptyPayload s).inputs = s.inputs := rfl
@[simp] theorem emptyPayload_rsp (s : State) : (emptyPayload s).rsp = s.rsp := rfl

@[simp] theorem emptyCompression_rstN (s : State) : (emptyCompression s).rstN = s.rstN := rfl
@[simp] theorem emptyCompression_phase (s : State) : (emptyCompression s).phase = s.phase := rfl
@[simp] theorem emptyCompression_symLen (s : State) : (emptyCompression s).symLen = s.symLen := rfl
@[simp] theorem emptyCompression_byteLen (s : State) : (emptyCompression s).byteLen = s.byteLen := rfl
@[simp] theorem emptyCompression_pad (s : State) : (emptyCompression s).pad = s.pad := rfl
@[simp] theorem emptyCompression_bitLen (s : State) : (emptyCompression s).bitLen = s.bitLen := rfl
@[simp] theorem emptyCompression_rootValid (s : State) : (emptyCompression s).rootValid = s.rootValid := rfl
@[simp] theorem emptyCompression_rootIdx (s : State) : (emptyCompression s).rootIdx = s.rootIdx := rfl
@[simp] theorem emptyCompression_nnode (s : State) : (emptyCompression s).nnode = 0 := rfl
@[simp] theorem emptyCompression_nleaf (s : State) : (emptyCompression s).nleaf = 0 := rfl
@[simp] theorem emptyCompression_cmd (s : State) : (emptyCompression s).cmd = s.cmd := rfl
@[simp] theorem emptyCompression_done (s : State) : (emptyCompression s).done = s.done := rfl
@[simp] theorem emptyCompression_err (s : State) : (emptyCompression s).err = s.err := rfl
@[simp] theorem emptyCompression_empty (s : State) : (emptyCompression s).empty = true := rfl
@[simp] theorem emptyCompression_drop (s : State) : (emptyCompression s).drop = s.drop := rfl
@[simp] theorem emptyCompression_errCode (s : State) : (emptyCompression s).errCode = s.errCode := rfl
@[simp] theorem emptyCompression_errInfo (s : State) : (emptyCompression s).errInfo = s.errInfo := rfl
@[simp] theorem emptyCompression_doneIe (s : State) : (emptyCompression s).doneIe = s.doneIe := rfl
@[simp] theorem emptyCompression_errIe (s : State) : (emptyCompression s).errIe = s.errIe := rfl
@[simp] theorem emptyCompression_param1 (s : State) : (emptyCompression s).param1 = s.param1 := rfl
@[simp] theorem emptyCompression_param2 (s : State) : (emptyCompression s).param2 = s.param2 := rfl
@[simp] theorem emptyCompression_sym (s : State) : (emptyCompression s).sym = s.sym := rfl
@[simp] theorem emptyCompression_byte (s : State) : (emptyCompression s).byte = s.byte := rfl
@[simp] theorem emptyCompression_freq (s : State) : (emptyCompression s).freq = s.freq := rfl
@[simp] theorem emptyCompression_node (s : State) : (emptyCompression s).node = s.node := rfl
@[simp] theorem emptyCompression_code (s : State) : (emptyCompression s).code = emptyCodeTable := rfl
@[simp] theorem emptyCompression_symDraw (s : State) : (emptyCompression s).symDraw = s.symDraw := rfl
@[simp] theorem emptyCompression_byteDraw (s : State) : (emptyCompression s).byteDraw = s.byteDraw := rfl
@[simp] theorem emptyCompression_freqDraw (s : State) : (emptyCompression s).freqDraw = s.freqDraw := rfl
@[simp] theorem emptyCompression_nodeDraw (s : State) : (emptyCompression s).nodeDraw = s.nodeDraw := rfl
@[simp] theorem emptyCompression_codeDraw (s : State) : (emptyCompression s).codeDraw = s.codeDraw := rfl
@[simp] theorem emptyCompression_draws (s : State) : (emptyCompression s).draws = s.draws := rfl
@[simp] theorem emptyCompression_inputs (s : State) : (emptyCompression s).inputs = s.inputs := rfl
@[simp] theorem emptyCompression_rsp (s : State) : (emptyCompression s).rsp = s.rsp := rfl

@[simp] theorem clearTables_rstN (s : State) : (clearTables s).rstN = s.rstN := rfl
@[simp] theorem clearTables_phase (s : State) : (clearTables s).phase = s.phase := rfl
@[simp] theorem clearTables_symLen (s : State) : (clearTables s).symLen = 0 := rfl
@[simp] theorem clearTables_byteLen (s : State) : (clearTables s).byteLen = 0 := rfl
@[simp] theorem clearTables_pad (s : State) : (clearTables s).pad = 0 := rfl
@[simp] theorem clearTables_bitLen (s : State) : (clearTables s).bitLen = 0 := rfl
@[simp] theorem clearTables_rootValid (s : State) : (clearTables s).rootValid = false := rfl
@[simp] theorem clearTables_rootIdx (s : State) : (clearTables s).rootIdx = 0 := rfl
@[simp] theorem clearTables_nnode (s : State) : (clearTables s).nnode = 0 := rfl
@[simp] theorem clearTables_nleaf (s : State) : (clearTables s).nleaf = 0 := rfl
@[simp] theorem clearTables_cmd (s : State) : (clearTables s).cmd = s.cmd := rfl
@[simp] theorem clearTables_done (s : State) : (clearTables s).done = s.done := rfl
@[simp] theorem clearTables_err (s : State) : (clearTables s).err = s.err := rfl
@[simp] theorem clearTables_empty (s : State) : (clearTables s).empty = s.empty := rfl
@[simp] theorem clearTables_drop (s : State) : (clearTables s).drop = s.drop := rfl
@[simp] theorem clearTables_errCode (s : State) : (clearTables s).errCode = s.errCode := rfl
@[simp] theorem clearTables_errInfo (s : State) : (clearTables s).errInfo = s.errInfo := rfl
@[simp] theorem clearTables_doneIe (s : State) : (clearTables s).doneIe = s.doneIe := rfl
@[simp] theorem clearTables_errIe (s : State) : (clearTables s).errIe = s.errIe := rfl
@[simp] theorem clearTables_param1 (s : State) : (clearTables s).param1 = s.param1 := rfl
@[simp] theorem clearTables_param2 (s : State) : (clearTables s).param2 = s.param2 := rfl
@[simp] theorem clearTables_sym (s : State) : (clearTables s).sym = s.sym := rfl
@[simp] theorem clearTables_byte (s : State) : (clearTables s).byte = s.byte := rfl
@[simp] theorem clearTables_freq (s : State) : (clearTables s).freq = Memory.ofList (List.replicate Config.nsym 0) := rfl
@[simp] theorem clearTables_node (s : State) : (clearTables s).node = Memory.ofList ((List.replicate Config.nodeMax clearedNode).flatMap nodeWords) := rfl
@[simp] theorem clearTables_code (s : State) : (clearTables s).code = emptyCodeTable := rfl
@[simp] theorem clearTables_symDraw (s : State) : (clearTables s).symDraw = s.symDraw := rfl
@[simp] theorem clearTables_byteDraw (s : State) : (clearTables s).byteDraw = s.byteDraw := rfl
@[simp] theorem clearTables_freqDraw (s : State) : (clearTables s).freqDraw = s.freqDraw := rfl
@[simp] theorem clearTables_nodeDraw (s : State) : (clearTables s).nodeDraw = s.nodeDraw := rfl
@[simp] theorem clearTables_codeDraw (s : State) : (clearTables s).codeDraw = s.codeDraw := rfl
@[simp] theorem clearTables_draws (s : State) : (clearTables s).draws = s.draws := rfl
@[simp] theorem clearTables_inputs (s : State) : (clearTables s).inputs = s.inputs := rfl
@[simp] theorem clearTables_rsp (s : State) : (clearTables s).rsp = s.rsp := rfl

@[simp] theorem writeIe_rstN (v : Word) (s : State) : (writeIe v s).rstN = s.rstN := rfl
@[simp] theorem writeIe_phase (v : Word) (s : State) : (writeIe v s).phase = s.phase := rfl
@[simp] theorem writeIe_symLen (v : Word) (s : State) : (writeIe v s).symLen = s.symLen := rfl
@[simp] theorem writeIe_byteLen (v : Word) (s : State) : (writeIe v s).byteLen = s.byteLen := rfl
@[simp] theorem writeIe_pad (v : Word) (s : State) : (writeIe v s).pad = s.pad := rfl
@[simp] theorem writeIe_bitLen (v : Word) (s : State) : (writeIe v s).bitLen = s.bitLen := rfl
@[simp] theorem writeIe_rootValid (v : Word) (s : State) : (writeIe v s).rootValid = s.rootValid := rfl
@[simp] theorem writeIe_rootIdx (v : Word) (s : State) : (writeIe v s).rootIdx = s.rootIdx := rfl
@[simp] theorem writeIe_nnode (v : Word) (s : State) : (writeIe v s).nnode = s.nnode := rfl
@[simp] theorem writeIe_nleaf (v : Word) (s : State) : (writeIe v s).nleaf = s.nleaf := rfl
@[simp] theorem writeIe_cmd (v : Word) (s : State) : (writeIe v s).cmd = s.cmd := rfl
@[simp] theorem writeIe_done (v : Word) (s : State) : (writeIe v s).done = s.done := rfl
@[simp] theorem writeIe_err (v : Word) (s : State) : (writeIe v s).err = s.err := rfl
@[simp] theorem writeIe_empty (v : Word) (s : State) : (writeIe v s).empty = s.empty := rfl
@[simp] theorem writeIe_drop (v : Word) (s : State) : (writeIe v s).drop = s.drop := rfl
@[simp] theorem writeIe_errCode (v : Word) (s : State) : (writeIe v s).errCode = s.errCode := rfl
@[simp] theorem writeIe_errInfo (v : Word) (s : State) : (writeIe v s).errInfo = s.errInfo := rfl
@[simp] theorem writeIe_doneIe (v : Word) (s : State) : (writeIe v s).doneIe = v.getLsbD 1 := rfl
@[simp] theorem writeIe_errIe (v : Word) (s : State) : (writeIe v s).errIe = v.getLsbD 2 := rfl
@[simp] theorem writeIe_param1 (v : Word) (s : State) : (writeIe v s).param1 = s.param1 := rfl
@[simp] theorem writeIe_param2 (v : Word) (s : State) : (writeIe v s).param2 = s.param2 := rfl
@[simp] theorem writeIe_sym (v : Word) (s : State) : (writeIe v s).sym = s.sym := rfl
@[simp] theorem writeIe_byte (v : Word) (s : State) : (writeIe v s).byte = s.byte := rfl
@[simp] theorem writeIe_freq (v : Word) (s : State) : (writeIe v s).freq = s.freq := rfl
@[simp] theorem writeIe_node (v : Word) (s : State) : (writeIe v s).node = s.node := rfl
@[simp] theorem writeIe_code (v : Word) (s : State) : (writeIe v s).code = s.code := rfl
@[simp] theorem writeIe_symDraw (v : Word) (s : State) : (writeIe v s).symDraw = s.symDraw := rfl
@[simp] theorem writeIe_byteDraw (v : Word) (s : State) : (writeIe v s).byteDraw = s.byteDraw := rfl
@[simp] theorem writeIe_freqDraw (v : Word) (s : State) : (writeIe v s).freqDraw = s.freqDraw := rfl
@[simp] theorem writeIe_nodeDraw (v : Word) (s : State) : (writeIe v s).nodeDraw = s.nodeDraw := rfl
@[simp] theorem writeIe_codeDraw (v : Word) (s : State) : (writeIe v s).codeDraw = s.codeDraw := rfl
@[simp] theorem writeIe_draws (v : Word) (s : State) : (writeIe v s).draws = s.draws := rfl
@[simp] theorem writeIe_inputs (v : Word) (s : State) : (writeIe v s).inputs = s.inputs := rfl
@[simp] theorem writeIe_rsp (v : Word) (s : State) : (writeIe v s).rsp = s.rsp := rfl

@[simp] theorem writeRoot_rstN (v : Word) (s : State) : (writeRoot v s).rstN = s.rstN := rfl
@[simp] theorem writeRoot_phase (v : Word) (s : State) : (writeRoot v s).phase = s.phase := rfl
@[simp] theorem writeRoot_symLen (v : Word) (s : State) : (writeRoot v s).symLen = s.symLen := rfl
@[simp] theorem writeRoot_byteLen (v : Word) (s : State) : (writeRoot v s).byteLen = s.byteLen := rfl
@[simp] theorem writeRoot_pad (v : Word) (s : State) : (writeRoot v s).pad = s.pad := rfl
@[simp] theorem writeRoot_bitLen (v : Word) (s : State) : (writeRoot v s).bitLen = s.bitLen := rfl
@[simp] theorem writeRoot_rootValid (v : Word) (s : State) : (writeRoot v s).rootValid = v.getLsbD 31 := rfl
@[simp] theorem writeRoot_rootIdx (v : Word) (s : State) : (writeRoot v s).rootIdx = v.extractLsb' 0 9 := rfl
@[simp] theorem writeRoot_nnode (v : Word) (s : State) : (writeRoot v s).nnode = s.nnode := rfl
@[simp] theorem writeRoot_nleaf (v : Word) (s : State) : (writeRoot v s).nleaf = s.nleaf := rfl
@[simp] theorem writeRoot_cmd (v : Word) (s : State) : (writeRoot v s).cmd = s.cmd := rfl
@[simp] theorem writeRoot_done (v : Word) (s : State) : (writeRoot v s).done = s.done := rfl
@[simp] theorem writeRoot_err (v : Word) (s : State) : (writeRoot v s).err = s.err := rfl
@[simp] theorem writeRoot_empty (v : Word) (s : State) : (writeRoot v s).empty = s.empty := rfl
@[simp] theorem writeRoot_drop (v : Word) (s : State) : (writeRoot v s).drop = s.drop := rfl
@[simp] theorem writeRoot_errCode (v : Word) (s : State) : (writeRoot v s).errCode = s.errCode := rfl
@[simp] theorem writeRoot_errInfo (v : Word) (s : State) : (writeRoot v s).errInfo = s.errInfo := rfl
@[simp] theorem writeRoot_doneIe (v : Word) (s : State) : (writeRoot v s).doneIe = s.doneIe := rfl
@[simp] theorem writeRoot_errIe (v : Word) (s : State) : (writeRoot v s).errIe = s.errIe := rfl
@[simp] theorem writeRoot_param1 (v : Word) (s : State) : (writeRoot v s).param1 = s.param1 := rfl
@[simp] theorem writeRoot_param2 (v : Word) (s : State) : (writeRoot v s).param2 = s.param2 := rfl
@[simp] theorem writeRoot_sym (v : Word) (s : State) : (writeRoot v s).sym = s.sym := rfl
@[simp] theorem writeRoot_byte (v : Word) (s : State) : (writeRoot v s).byte = s.byte := rfl
@[simp] theorem writeRoot_freq (v : Word) (s : State) : (writeRoot v s).freq = s.freq := rfl
@[simp] theorem writeRoot_node (v : Word) (s : State) : (writeRoot v s).node = s.node := rfl
@[simp] theorem writeRoot_code (v : Word) (s : State) : (writeRoot v s).code = s.code := rfl
@[simp] theorem writeRoot_symDraw (v : Word) (s : State) : (writeRoot v s).symDraw = s.symDraw := rfl
@[simp] theorem writeRoot_byteDraw (v : Word) (s : State) : (writeRoot v s).byteDraw = s.byteDraw := rfl
@[simp] theorem writeRoot_freqDraw (v : Word) (s : State) : (writeRoot v s).freqDraw = s.freqDraw := rfl
@[simp] theorem writeRoot_nodeDraw (v : Word) (s : State) : (writeRoot v s).nodeDraw = s.nodeDraw := rfl
@[simp] theorem writeRoot_codeDraw (v : Word) (s : State) : (writeRoot v s).codeDraw = s.codeDraw := rfl
@[simp] theorem writeRoot_draws (v : Word) (s : State) : (writeRoot v s).draws = s.draws := rfl
@[simp] theorem writeRoot_inputs (v : Word) (s : State) : (writeRoot v s).inputs = s.inputs := rfl
@[simp] theorem writeRoot_rsp (v : Word) (s : State) : (writeRoot v s).rsp = s.rsp := rfl

@[simp] theorem readAny_rstN (s : State) : (readAny s).rstN = s.rstN := rfl
@[simp] theorem readAny_phase (s : State) : (readAny s).phase = s.phase := rfl
@[simp] theorem readAny_symLen (s : State) : (readAny s).symLen = s.symLen := rfl
@[simp] theorem readAny_byteLen (s : State) : (readAny s).byteLen = s.byteLen := rfl
@[simp] theorem readAny_pad (s : State) : (readAny s).pad = s.pad := rfl
@[simp] theorem readAny_bitLen (s : State) : (readAny s).bitLen = s.bitLen := rfl
@[simp] theorem readAny_rootValid (s : State) : (readAny s).rootValid = s.rootValid := rfl
@[simp] theorem readAny_rootIdx (s : State) : (readAny s).rootIdx = s.rootIdx := rfl
@[simp] theorem readAny_nnode (s : State) : (readAny s).nnode = s.nnode := rfl
@[simp] theorem readAny_nleaf (s : State) : (readAny s).nleaf = s.nleaf := rfl
@[simp] theorem readAny_cmd (s : State) : (readAny s).cmd = s.cmd := rfl
@[simp] theorem readAny_done (s : State) : (readAny s).done = s.done := rfl
@[simp] theorem readAny_err (s : State) : (readAny s).err = s.err := rfl
@[simp] theorem readAny_empty (s : State) : (readAny s).empty = s.empty := rfl
@[simp] theorem readAny_drop (s : State) : (readAny s).drop = s.drop := rfl
@[simp] theorem readAny_errCode (s : State) : (readAny s).errCode = s.errCode := rfl
@[simp] theorem readAny_errInfo (s : State) : (readAny s).errInfo = s.errInfo := rfl
@[simp] theorem readAny_doneIe (s : State) : (readAny s).doneIe = s.doneIe := rfl
@[simp] theorem readAny_errIe (s : State) : (readAny s).errIe = s.errIe := rfl
@[simp] theorem readAny_param1 (s : State) : (readAny s).param1 = s.param1 := rfl
@[simp] theorem readAny_param2 (s : State) : (readAny s).param2 = s.param2 := rfl
@[simp] theorem readAny_sym (s : State) : (readAny s).sym = s.sym := rfl
@[simp] theorem readAny_byte (s : State) : (readAny s).byte = s.byte := rfl
@[simp] theorem readAny_freq (s : State) : (readAny s).freq = s.freq := rfl
@[simp] theorem readAny_node (s : State) : (readAny s).node = s.node := rfl
@[simp] theorem readAny_code (s : State) : (readAny s).code = s.code := rfl
@[simp] theorem readAny_symDraw (s : State) : (readAny s).symDraw = s.symDraw := rfl
@[simp] theorem readAny_byteDraw (s : State) : (readAny s).byteDraw = s.byteDraw := rfl
@[simp] theorem readAny_freqDraw (s : State) : (readAny s).freqDraw = s.freqDraw := rfl
@[simp] theorem readAny_nodeDraw (s : State) : (readAny s).nodeDraw = s.nodeDraw := rfl
@[simp] theorem readAny_codeDraw (s : State) : (readAny s).codeDraw = s.codeDraw := rfl
@[simp] theorem readAny_draws (s : State) : (readAny s).draws = s.draws + 1 := rfl
@[simp] theorem readAny_inputs (s : State) : (readAny s).inputs = s.inputs := rfl
@[simp] theorem readAny_rsp (s : State) : (readAny s).rsp = some (.read (Config.anyRead s.draws) false) := rfl

@[simp] theorem poiseCommand_rstN (w : Word) (s : State) : (poiseCommand w s).rstN = true := rfl
@[simp] theorem poiseCommand_phase (w : Word) (s : State) : (poiseCommand w s).phase = .busy := rfl
@[simp] theorem poiseCommand_symLen (w : Word) (s : State) : (poiseCommand w s).symLen = s.symLen := rfl
@[simp] theorem poiseCommand_byteLen (w : Word) (s : State) : (poiseCommand w s).byteLen = s.byteLen := rfl
@[simp] theorem poiseCommand_pad (w : Word) (s : State) : (poiseCommand w s).pad = s.pad := rfl
@[simp] theorem poiseCommand_bitLen (w : Word) (s : State) : (poiseCommand w s).bitLen = s.bitLen := rfl
@[simp] theorem poiseCommand_rootValid (w : Word) (s : State) : (poiseCommand w s).rootValid = s.rootValid := rfl
@[simp] theorem poiseCommand_rootIdx (w : Word) (s : State) : (poiseCommand w s).rootIdx = s.rootIdx := rfl
@[simp] theorem poiseCommand_nnode (w : Word) (s : State) : (poiseCommand w s).nnode = s.nnode := rfl
@[simp] theorem poiseCommand_nleaf (w : Word) (s : State) : (poiseCommand w s).nleaf = s.nleaf := rfl
@[simp] theorem poiseCommand_cmd (w : Word) (s : State) : (poiseCommand w s).cmd = w := rfl
@[simp] theorem poiseCommand_done (w : Word) (s : State) : (poiseCommand w s).done = false := rfl
@[simp] theorem poiseCommand_err (w : Word) (s : State) : (poiseCommand w s).err = false := rfl
@[simp] theorem poiseCommand_empty (w : Word) (s : State) : (poiseCommand w s).empty = false := rfl
@[simp] theorem poiseCommand_drop (w : Word) (s : State) : (poiseCommand w s).drop = s.drop := rfl
@[simp] theorem poiseCommand_errCode (w : Word) (s : State) : (poiseCommand w s).errCode = 0 := rfl
@[simp] theorem poiseCommand_errInfo (w : Word) (s : State) : (poiseCommand w s).errInfo = 0 := rfl
@[simp] theorem poiseCommand_doneIe (w : Word) (s : State) : (poiseCommand w s).doneIe = s.doneIe := rfl
@[simp] theorem poiseCommand_errIe (w : Word) (s : State) : (poiseCommand w s).errIe = s.errIe := rfl
@[simp] theorem poiseCommand_param1 (w : Word) (s : State) : (poiseCommand w s).param1 = s.param1 := rfl
@[simp] theorem poiseCommand_param2 (w : Word) (s : State) : (poiseCommand w s).param2 = s.param2 := rfl
@[simp] theorem poiseCommand_sym (w : Word) (s : State) : (poiseCommand w s).sym = s.sym := rfl
@[simp] theorem poiseCommand_byte (w : Word) (s : State) : (poiseCommand w s).byte = s.byte := rfl
@[simp] theorem poiseCommand_freq (w : Word) (s : State) : (poiseCommand w s).freq = s.freq := rfl
@[simp] theorem poiseCommand_node (w : Word) (s : State) : (poiseCommand w s).node = s.node := rfl
@[simp] theorem poiseCommand_code (w : Word) (s : State) : (poiseCommand w s).code = s.code := rfl
@[simp] theorem poiseCommand_symDraw (w : Word) (s : State) : (poiseCommand w s).symDraw = s.symDraw := rfl
@[simp] theorem poiseCommand_byteDraw (w : Word) (s : State) : (poiseCommand w s).byteDraw = s.byteDraw := rfl
@[simp] theorem poiseCommand_freqDraw (w : Word) (s : State) : (poiseCommand w s).freqDraw = s.freqDraw := rfl
@[simp] theorem poiseCommand_nodeDraw (w : Word) (s : State) : (poiseCommand w s).nodeDraw = s.nodeDraw := rfl
@[simp] theorem poiseCommand_codeDraw (w : Word) (s : State) : (poiseCommand w s).codeDraw = s.codeDraw := rfl
@[simp] theorem poiseCommand_draws (w : Word) (s : State) : (poiseCommand w s).draws = s.draws := rfl
@[simp] theorem poiseCommand_inputs (w : Word) (s : State) : (poiseCommand w s).inputs = .core :: s.inputs := rfl
@[simp] theorem poiseCommand_rsp (w : Word) (s : State) : (poiseCommand w s).rsp = s.rsp := rfl

end Sys2Proof.Machine
end

