-- ==== Sys2Proof/Laws/Effects.lean ====
section
/-! SUPPORT. Every command as one pseudocode effect followed by the completion, what each effect can end in, and what no
effect touches. -/

namespace Sys2Proof.Machine

/-- The pseudocode of each command. -/
def effectOf : Instr → State → Result
  | .nop, s        => .ok s
  | .analyze, s    => analyzeEffect s
  | .buildSf, s    => buildSfEffect s
  | .buildHuf, s   => buildHufEffect s
  | .gencodes, s   => gencodesEffect s
  | .pack, s       => packEffect s
  | .unpack, s     => unpackEffect s
  | .compress a, s => compressEffect a s
  | .decompress, s => decompressEffect s
  | .checktree, s  => checktreeEffect s
  | .clear, s      => .ok (clearTables s)

/-- The state a pseudocode leaves. -/
def Result.state : Result → State
  | .ok s => s
  | .raised _ s => s

/-- The error a pseudocode raises, if any. -/
def Result.error? : Result → Option CmdError
  | .ok _ => none
  | .raised e _ => some e

/-- Every command completes through its effect (R252). -/
theorem exec_eq (i : Instr) (s : State) : exec i s = .next (finish (effectOf i s)) := by cases i <;> rfl

/-! ## What each effect can end in -/

theorem analyzeEffect_cases (s : State) :
    (s.maxLen < s.symLen.toNat ∧ analyzeEffect s = .raised badSymLen s) ∨
    (s.symLen.toNat ≤ s.maxLen ∧
      analyzeEffect s = .ok { s with freq := Memory.ofList (countTable (symbols s s.symLen.toNat)) }) := by
  unfold analyzeEffect; split
  · next h => exact .inl ⟨h, rfl⟩
  · next h => exact .inr ⟨by omega, rfl⟩

theorem buildEffect_cases (a : Alg) (s : State) :
    (keyItems s = [] ∧ buildEffect a s = noTree s) ∨
    (keyItems s ≠ [] ∧ ∃ nodes, buildEffect a s = .ok (installTree nodes (keyItems s).length s)) := by
  cases a
  · simp only [buildEffect, buildSfEffect]; split
    · next h => exact .inl ⟨h, rfl⟩
    · next h => exact .inr ⟨h, _, rfl⟩
  · simp only [buildEffect, buildHufEffect]; split
    · next h => exact .inl ⟨h, rfl⟩
    · next h => exact .inr ⟨h, _, rfl⟩

theorem checktreeEffect_cases (s : State) :
    (treeCheck s = .ok ∧ checktreeEffect s = .ok s) ∨
    (∃ info, treeCheck s = .bad info ∧ checktreeEffect s = .raised (malformedTree info) s) := by
  unfold checktreeEffect; split
  · next h => exact .inl ⟨h, rfl⟩
  · next info h => exact .inr ⟨info, h, rfl⟩

theorem gencodesEffect_cases (s : State) :
    (treeCheck s = .ok ∧ gencodesEffect s =
      .ok { s with code := Memory.ofList (codeTableWords (entryOf (treeCodes (nodeAt s) s.rootIdx.toNat))) }) ∨
    (∃ info, treeCheck s = .bad info ∧ gencodesEffect s = .raised (malformedTree info) { s with code := emptyCodeTable }) := by
  unfold gencodesEffect; split
  · next info h => exact .inr ⟨info, h, rfl⟩
  · next h => exact .inl ⟨h, rfl⟩

/-- The errors of `PACK`'s loop (R201). -/
theorem packStream_error_kind {codeOf : Byte → List Bool} {maxBytes : Nat} {syms : List Byte} {i len : Nat} {e : CmdError}
    (h : packStream codeOf maxBytes syms i len = .error e) : e.kind = .unknownSymbol ∨ e.kind = .capacity := by
  induction syms generalizing i len with
  | nil => cases h
  | cons v rest ih =>
    simp only [packStream] at h
    split at h
    · cases h; exact .inl rfl
    · split at h
      · cases h; exact .inr rfl
      · split at h
        · cases h
        · next he => cases h; exact ih he

theorem packEffect_cases (s : State) :
    (s.maxLen < s.symLen.toNat ∧ packEffect s = .raised badSymLen (packFailed s)) ∨
    (s.symLen.toNat ≤ s.maxLen ∧ ∃ e, (e.kind = .unknownSymbol ∨ e.kind = .capacity) ∧
      packStream (fun v => codeString s v.toNat) s.maxBytes (symbols s s.symLen.toNat) 0 0 = .error e ∧
      packEffect s = .raised e (packFailed s)) ∨
    (s.symLen.toNat ≤ s.maxLen ∧ ∃ stream,
      packStream (fun v => codeString s v.toNat) s.maxBytes (symbols s s.symLen.toNat) 0 0 = .ok stream ∧
      packEffect s = .ok (storePayload stream s)) := by
  unfold packEffect; split
  · next h => exact .inl ⟨h, rfl⟩
  · next h =>
    split
    · next e he => exact .inr (.inl ⟨by omega, e, packStream_error_kind he, he, rfl⟩)
    · next st he => exact .inr (.inr ⟨by omega, st, he, rfl⟩)

/-- The errors of `UNPACK`'s loop (R210). -/
theorem unpackLoop_error_kind {nodeOf : Nat → Node} {root maxLen : Nat} {bits : List Bool} {j cur out : Nat} {e : CmdError}
    (h : unpackLoop nodeOf root maxLen bits j cur out = .error e) : e.kind = .corruptPayload ∨ e.kind = .capacity := by
  induction bits generalizing j cur out e with
  | nil =>
    simp only [unpackLoop] at h
    split at h
    · cases h
    · cases h; exact .inl rfl
  | cons b bits ih =>
    have emit : ∀ {out sym m}, (∀ e', m = .error e' → e'.kind = .corruptPayload ∨ e'.kind = .capacity) →
        emitSymbol maxLen j out sym m = .error e → e.kind = .corruptPayload ∨ e.kind = .capacity := by
      intro out sym m hm he
      simp only [emitSymbol] at he
      split at he
      · cases he; exact .inr rfl
      · split at he
        · cases he
        · cases he; exact hm _ rfl
    simp only [unpackLoop] at h
    split at h
    · split at h
      · cases h; exact .inl rfl
      · exact emit (fun e' he' => ih he') h
    · generalize (if b then (nodeOf cur).right else (nodeOf cur).left).toNat = next at h
      split at h
      · exact emit (fun e' he' => ih he') h
      · exact ih h

/-- How `UNPACK` ends when it raises an error: the failure effects, and the kinds of R273. -/
theorem unpackEffect_cases (s : State) :
    (s.byteLen = 0 ∧ unpackEffect s = .ok { s with symLen := 0 }) ∨
    (s.byteLen ≠ 0 ∧ ∃ e, unpackEffect s = .raised e (unpackFailed s) ∧
      ((s.maxBytes < s.byteLen.toNat ∧ e = { kind := .badOperand, info := 0x024 }) ∨
       (s.byteLen.toNat ≤ s.maxBytes ∧ 7 < s.pad.toNat ∧ e = { kind := .badOperand, info := 0x028 }) ∨
       (s.byteLen.toNat ≤ s.maxBytes ∧ s.pad.toNat ≤ 7 ∧ ∃ info, treeCheck s = .bad info ∧ e = malformedTree info) ∨
       (s.byteLen.toNat ≤ s.maxBytes ∧ s.pad.toNat ≤ 7 ∧ treeCheck s = .ok ∧
        unpackLoop (nodeAt s) s.rootIdx.toNat s.maxLen (payloadBits s (payloadLength s)) 0 s.rootIdx.toNat 0 = .error e ∧
        (e.kind = .corruptPayload ∨ e.kind = .capacity)))) ∨
    (s.byteLen ≠ 0 ∧ s.byteLen.toNat ≤ s.maxBytes ∧ s.pad.toNat ≤ 7 ∧ treeCheck s = .ok ∧ ∃ syms,
      unpackLoop (nodeAt s) s.rootIdx.toNat s.maxLen (payloadBits s (payloadLength s)) 0 s.rootIdx.toNat 0 = .ok syms ∧
      unpackEffect s = .ok (storeSymbols syms s)) := by
  unfold unpackEffect; split
  · next h => exact .inl ⟨h, rfl⟩
  · next h0 =>
    right
    split
    · next h => exact .inl ⟨h0, _, rfl, .inl ⟨h, rfl⟩⟩
    · next h1 =>
      split
      · next h => exact .inl ⟨h0, _, rfl, .inr (.inl ⟨by omega, h, rfl⟩)⟩
      · next h2 =>
        split
        · next info h => exact .inl ⟨h0, _, rfl, .inr (.inr (.inl ⟨by omega, by omega, info, h, rfl⟩))⟩
        · next h3 =>
          split
          · next e he =>
            exact .inl ⟨h0, e, rfl, .inr (.inr (.inr ⟨by omega, by omega, h3, he, unpackLoop_error_kind he⟩))⟩
          · next syms he => exact .inr ⟨h0, by omega, by omega, h3, syms, he, rfl⟩

theorem decompressEffect_cases (s : State) :
    ((s.rootValid = false ∨ s.byteLen = 0) ∧ decompressEffect s = .ok { s with symLen := 0 }) ∨
    (s.rootValid = true ∧ s.byteLen ≠ 0 ∧ decompressEffect s = unpackEffect s) := by
  unfold decompressEffect; split
  · next h => exact .inl ⟨h, rfl⟩
  · next h => exact .inr ⟨by cases hr : s.rootValid <;> simp [hr] at h ⊢, fun hb => h (.inr hb), rfl⟩

/-- The states in which `COMPRESS` can stop (R230, R277). -/
theorem compressEffect_cases (a : Alg) (s : State) :
    (s.symLen = 0 ∧ compressEffect a s = .ok (emptyCompression (emptyPayload s))) ∨
    (s.symLen ≠ 0 ∧ compressEffect a s =
      (((analyzeEffect (emptyPayload s)).andThen (buildEffect a)).andThen gencodesEffect).andThen packEffect) := by
  unfold compressEffect; split
  · next h => exact .inl ⟨h, rfl⟩
  · next h => exact .inr ⟨h, rfl⟩

/-! ## What no effect touches -/

/-- What every pseudocode leaves as it was. -/
structure SameControl (s t : State) : Prop where
  rstN     : t.rstN = s.rstN
  phase    : t.phase = s.phase
  cmd      : t.cmd = s.cmd
  done     : t.done = s.done
  err      : t.err = s.err
  errCode  : t.errCode = s.errCode
  errInfo  : t.errInfo = s.errInfo
  drop     : t.drop = s.drop
  doneIe   : t.doneIe = s.doneIe
  errIe    : t.errIe = s.errIe
  param1   : t.param1 = s.param1
  param2   : t.param2 = s.param2
  inputs   : t.inputs = s.inputs
  rsp      : t.rsp = s.rsp
  freqDraw : t.freqDraw = s.freqDraw
  nodeDraw : t.nodeDraw = s.nodeDraw
  codeDraw : t.codeDraw = s.codeDraw

theorem SameControl.refl (s : State) : SameControl s s := by constructor <;> rfl

theorem SameControl.trans {s t u : State} (h : SameControl s t) (h' : SameControl t u) : SameControl s u where
  rstN     := h'.rstN.trans h.rstN
  phase    := h'.phase.trans h.phase
  cmd      := h'.cmd.trans h.cmd
  done     := h'.done.trans h.done
  err      := h'.err.trans h.err
  errCode  := h'.errCode.trans h.errCode
  errInfo  := h'.errInfo.trans h.errInfo
  drop     := h'.drop.trans h.drop
  doneIe   := h'.doneIe.trans h.doneIe
  errIe    := h'.errIe.trans h.errIe
  param1   := h'.param1.trans h.param1
  param2   := h'.param2.trans h.param2
  inputs   := h'.inputs.trans h.inputs
  rsp      := h'.rsp.trans h.rsp
  freqDraw := h'.freqDraw.trans h.freqDraw
  nodeDraw := h'.nodeDraw.trans h.nodeDraw
  codeDraw := h'.codeDraw.trans h.codeDraw

theorem andThen_control {r : Result} {f : State → Result} {s : State} (h : SameControl s r.state)
    (hf : ∀ t, SameControl t (f t).state) : SameControl s (r.andThen f).state := by
  cases r with
  | ok t => exact h.trans (hf t)
  | raised e t => exact h

theorem analyzeEffect_control (s : State) : SameControl s (analyzeEffect s).state := by
  rcases analyzeEffect_cases s with ⟨-, h⟩ | ⟨-, h⟩ <;> rw [h] <;> constructor <;> rfl

theorem buildEffect_control (a : Alg) (s : State) : SameControl s (buildEffect a s).state := by
  rcases buildEffect_cases a s with ⟨-, h⟩ | ⟨-, nodes, h⟩ <;> rw [h] <;> constructor <;> rfl

theorem gencodesEffect_control (s : State) : SameControl s (gencodesEffect s).state := by
  rcases gencodesEffect_cases s with ⟨-, h⟩ | ⟨info, -, h⟩ <;> rw [h] <;> constructor <;> rfl

theorem packEffect_control (s : State) : SameControl s (packEffect s).state := by
  rcases packEffect_cases s with ⟨-, h⟩ | ⟨-, e, -, -, h⟩ | ⟨-, st, -, h⟩ <;> rw [h] <;> constructor <;> rfl

theorem unpackEffect_control (s : State) : SameControl s (unpackEffect s).state := by
  rcases unpackEffect_cases s with ⟨-, h⟩ | ⟨-, e, h, -⟩ | ⟨-, -, -, -, syms, -, h⟩ <;> rw [h] <;> constructor <;> rfl

theorem compressEffect_control (a : Alg) (s : State) : SameControl s (compressEffect a s).state := by
  rcases compressEffect_cases a s with ⟨-, h⟩ | ⟨-, h⟩
  · rw [h]; constructor <;> rfl
  · rw [h]
    refine andThen_control (andThen_control (andThen_control ?_ (buildEffect_control a)) gencodesEffect_control) packEffect_control
    exact SameControl.trans (t := emptyPayload s) (by constructor <;> rfl) (analyzeEffect_control _)

/-- No pseudocode touches the sequencer, the latch, the interrupt enables, the constants or the pins: only the completion
step does (R252). -/
theorem effect_control (i : Instr) (s : State) : SameControl s (effectOf i s).state := by
  cases i with
  | nop => exact .refl s
  | analyze => exact analyzeEffect_control s
  | buildSf => exact buildEffect_control .shannonFano s
  | buildHuf => exact buildEffect_control .huffman s
  | gencodes => exact gencodesEffect_control s
  | pack => exact packEffect_control s
  | unpack => exact unpackEffect_control s
  | compress a => exact compressEffect_control a s
  | decompress =>
    rcases decompressEffect_cases s with ⟨-, h⟩ | ⟨-, -, h⟩ <;> simp only [effectOf, h]
    · constructor <;> rfl
    · exact unpackEffect_control s
  | checktree =>
    rcases checktreeEffect_cases s with ⟨-, h⟩ | ⟨info, -, h⟩ <;> simp only [effectOf, h] <;> exact .refl s
  | clear => constructor <;> rfl

/-- The completion's own writes (R252, R276). -/
theorem finish_phase (r : Result) : (finish r).phase = .idle := by cases r <;> rfl

theorem finish_done (r : Result) : (finish r).done = true := by cases r <;> rfl

end Sys2Proof.Machine
end

