-- ==== Sys2Proof/Laws/Memory.lean ====
section
/-! SUPPORT. The laws of the canonical memories: what a read finds after each write, that every operation keeps the
canonical form, and that memories with equal contents are equal data. -/

namespace Sys2Proof.Machine

section
variable {α : Type}

/-! ## What a lookup finds -/

theorem lookup_put (m : Memory α) (i j : Nat) (v : α) :
    Memory.lookup (Memory.put m i v) j = if j = i then some v else Memory.lookup m j := by
  induction m with
  | nil => simp [Memory.put, Memory.lookup]
  | cons c m ih =>
    obtain ⟨k, w⟩ := c
    simp only [Memory.put]
    split
    · simp only [Memory.lookup]
    · split
      · next h => subst h; simp only [Memory.lookup]; split <;> rfl
      · next h1 h2 =>
        simp only [Memory.lookup, ih]
        by_cases hj : j = k
        · subst hj; simp [Ne.symm h2]
        · simp [hj]

theorem lookup_append (m m' : Memory α) (i : Nat) :
    Memory.lookup (m ++ m') i = (Memory.lookup m i).or (Memory.lookup m' i) := by
  induction m with
  | nil => simp [Memory.lookup]
  | cons c m ih =>
    obtain ⟨k, w⟩ := c
    simp only [List.cons_append, Memory.lookup]
    split <;> simp [ih]

theorem lookup_indexed (base : Nat) (vs : List α) (i : Nat) :
    Memory.lookup (Memory.indexed base vs) i = if base ≤ i then vs[i - base]? else none := by
  induction vs generalizing base with
  | nil => simp [Memory.indexed, Memory.lookup]
  | cons v vs ih =>
    simp only [Memory.indexed, Memory.lookup, ih]
    by_cases h : i = base
    · subst h; simp
    · by_cases h2 : base ≤ i
      · obtain ⟨d, rfl⟩ : ∃ d, i = base + 1 + d := ⟨i - (base + 1), by omega⟩
        have e1 : base + 1 + d - base = d + 1 := by omega
        have e2 : base + 1 + d - (base + 1) = d := by omega
        simp [h, h2, e1]
      · simp [h, h2, show ¬ base + 1 ≤ i by omega]

theorem lookup_filter_ge (n : Nat) (m : Memory α) (i : Nat) :
    Memory.lookup (m.filter fun c => decide (n ≤ c.1)) i = if n ≤ i then Memory.lookup m i else none := by
  induction m with
  | nil => simp [Memory.lookup]
  | cons c m ih =>
    obtain ⟨k, w⟩ := c
    by_cases hk : n ≤ k
    · simp only [List.filter_cons, hk, decide_true, if_true, Memory.lookup, ih]
      by_cases h : i = k
      · subst h; simp [hk]
      · simp [h]
    · simp only [List.filter_cons, hk, decide_false, Bool.false_eq_true, if_false, Memory.lookup, ih]
      by_cases h : i = k
      · subst h; simp [hk]
      · simp [h]

theorem lookup_ofList (vs : List α) (i : Nat) : Memory.lookup (Memory.ofList vs) i = vs[i]? := by
  simp [Memory.ofList, lookup_indexed]

theorem lookup_writePrefix (m : Memory α) (vs : List α) (i : Nat) :
    Memory.lookup (Memory.writePrefix m vs) i = if i < vs.length then vs[i]? else Memory.lookup m i := by
  simp only [Memory.writePrefix, lookup_append, lookup_indexed, lookup_filter_ge]
  by_cases h : i < vs.length
  · simp [h]
  · simp [h, show vs.length ≤ i by omega]

/-! ## What a read finds -/

theorem readWith_put (free : Nat → α) (m : Memory α) (i j : Nat) (v : α) :
    Memory.readWith free (Memory.put m i v) j = if j = i then v else Memory.readWith free m j := by
  simp only [Memory.readWith, lookup_put]; split <;> rfl

theorem readWith_writePrefix_lt (free : Nat → α) (m : Memory α) (vs : List α) (i : Nat) (h : i < vs.length) :
    Memory.readWith free (Memory.writePrefix m vs) i = vs[i] := by
  simp [Memory.readWith, lookup_writePrefix, h]

theorem readWith_writePrefix_ge (free : Nat → α) (m : Memory α) (vs : List α) (i : Nat) (h : vs.length ≤ i) :
    Memory.readWith free (Memory.writePrefix m vs) i = Memory.readWith free m i := by
  simp [Memory.readWith, lookup_writePrefix, Nat.not_lt.mpr h]

theorem readWith_ofList (free : Nat → α) (vs : List α) (i : Nat) (h : i < vs.length) :
    Memory.readWith free (Memory.ofList vs) i = vs[i] := by
  simp [Memory.readWith, lookup_ofList, h]

/-! ## The canonical form -/

theorem rising_mono {lo lo' : Nat} (h : lo' ≤ lo) {m : Memory α} (r : Memory.rising lo m = true) :
    Memory.rising lo' m = true := by
  cases m with
  | nil => rfl
  | cons c m =>
    obtain ⟨k, w⟩ := c
    simp only [Memory.rising, Bool.and_eq_true, decide_eq_true_eq] at r ⊢
    exact ⟨by omega, r.2⟩

theorem rising_put {lo : Nat} {m : Memory α} (r : Memory.rising lo m = true) {i : Nat} (h : lo ≤ i) (v : α) :
    Memory.rising lo (Memory.put m i v) = true := by
  induction m generalizing lo with
  | nil => simp [Memory.put, Memory.rising, h]
  | cons c m ih =>
    obtain ⟨k, w⟩ := c
    simp only [Memory.rising, Bool.and_eq_true, decide_eq_true_eq] at r
    simp only [Memory.put]
    split
    · simp only [Memory.rising, Bool.and_eq_true, decide_eq_true_eq]; exact ⟨h, by omega, r.2⟩
    · split
      · next e => subst e; simp only [Memory.rising, Bool.and_eq_true, decide_eq_true_eq]; exact ⟨h, r.2⟩
      · simp only [Memory.rising, Bool.and_eq_true, decide_eq_true_eq]; exact ⟨r.1, ih r.2 (by omega)⟩

theorem rising_indexed_append (base : Nat) (vs : List α) {m : Memory α}
    (r : Memory.rising (base + vs.length) m = true) : Memory.rising base (Memory.indexed base vs ++ m) = true := by
  induction vs generalizing base with
  | nil => simpa [Memory.indexed] using r
  | cons v vs ih =>
    simp only [Memory.indexed, List.cons_append, Memory.rising, Nat.le_refl, decide_true, Bool.true_and]
    exact ih (base + 1) (by simpa [Nat.add_assoc, Nat.add_comm 1] using r)

theorem rising_filter_ge {lo n : Nat} {m : Memory α} (r : Memory.rising lo m = true) :
    Memory.rising (max lo n) (m.filter fun c => decide (n ≤ c.1)) = true := by
  induction m generalizing lo with
  | nil => rfl
  | cons c m ih =>
    obtain ⟨k, w⟩ := c
    simp only [Memory.rising, Bool.and_eq_true, decide_eq_true_eq] at r
    by_cases hk : n ≤ k
    · simp only [List.filter_cons, hk, decide_true, if_true, Memory.rising, Bool.and_eq_true, decide_eq_true_eq]
      exact ⟨by omega, rising_mono (by omega) (ih r.2)⟩
    · simp only [List.filter_cons, hk, decide_false, Bool.false_eq_true, if_false]
      exact rising_mono (by omega) (ih r.2)

theorem all_put {p : Nat × α → Bool} {m : Memory α} (h : m.all p = true) {i : Nat} {v : α} (hv : p (i, v) = true) :
    (Memory.put m i v).all p = true := by
  induction m with
  | nil => simpa [Memory.put] using hv
  | cons c m ih =>
    obtain ⟨k, w⟩ := c
    simp only [List.all_cons, Bool.and_eq_true] at h
    simp only [Memory.put]
    split
    · simp only [List.all_cons, Bool.and_eq_true]; exact ⟨hv, h.1, h.2⟩
    · split
      · simp only [List.all_cons, Bool.and_eq_true]; exact ⟨hv, h.2⟩
      · simp only [List.all_cons, Bool.and_eq_true]; exact ⟨h.1, ih h.2⟩

theorem all_lt_indexed {cap base : Nat} {vs : List α} (h : base + vs.length ≤ cap) :
    (Memory.indexed base vs).all (fun c => decide (c.1 < cap)) = true := by
  induction vs generalizing base with
  | nil => rfl
  | cons v vs ih =>
    simp only [List.length_cons] at h
    simp only [Memory.indexed, List.all_cons, Bool.and_eq_true, decide_eq_true_eq]
    exact ⟨by omega, ih (by omega)⟩

theorem wf_nil (cap : Nat) : Memory.wf cap ([] : Memory α) = true := rfl

/-- A host write keeps the canonical form. -/
theorem wf_put {cap : Nat} {m : Memory α} (h : Memory.wf cap m = true) {i : Nat} (hi : i < cap) (v : α) :
    Memory.wf cap (Memory.put m i v) = true := by
  simp only [Memory.wf, Bool.and_eq_true] at h ⊢
  exact ⟨rising_put h.1 (Nat.zero_le _) v, all_put h.2 (by simpa using hi)⟩

/-- A command's bulk write keeps the canonical form. -/
theorem wf_writePrefix {cap : Nat} {m : Memory α} (h : Memory.wf cap m = true) {vs : List α} (hv : vs.length ≤ cap) :
    Memory.wf cap (Memory.writePrefix m vs) = true := by
  simp only [Memory.wf, Memory.writePrefix, Bool.and_eq_true] at h ⊢
  refine ⟨rising_indexed_append 0 vs ?_, ?_⟩
  · exact rising_mono (by omega) (rising_filter_ge (n := vs.length) h.1)
  · rw [List.all_append, all_lt_indexed (by simpa using hv), Bool.true_and]
    simp only [List.all_eq_true] at h ⊢
    exact fun c hc => h.2 c (List.mem_of_mem_filter hc)

/-- A memory written whole is in canonical form. -/
theorem wf_ofList {cap : Nat} {vs : List α} (hv : vs.length ≤ cap) : Memory.wf cap (Memory.ofList vs) = true := by
  have := wf_writePrefix (wf_nil (α := α) cap) hv
  simpa [Memory.writePrefix, Memory.ofList] using this

theorem lookup_lt_of_rising {lo : Nat} {m : Memory α} (r : Memory.rising lo m = true) {i : Nat} (h : i < lo) :
    Memory.lookup m i = none := by
  induction m generalizing lo with
  | nil => rfl
  | cons c m ih =>
    obtain ⟨k, w⟩ := c
    simp only [Memory.rising, Bool.and_eq_true, decide_eq_true_eq] at r
    simp only [Memory.lookup, show i ≠ k by omega, if_false]
    exact ih r.2 (by omega)

/-- Two canonical memories that list the same elements with the same values are the same data. -/
theorem rising_ext {lo lo' : Nat} {m m' : Memory α} (r : Memory.rising lo m = true) (r' : Memory.rising lo' m' = true)
    (h : ∀ i, Memory.lookup m i = Memory.lookup m' i) : m = m' := by
  induction m generalizing lo lo' m' with
  | nil =>
    cases m' with
    | nil => rfl
    | cons c m' => obtain ⟨k, w⟩ := c; have := h k; simp [Memory.lookup] at this
  | cons c m ih =>
    obtain ⟨k, w⟩ := c
    cases m' with
    | nil => have := h k; simp [Memory.lookup] at this
    | cons c' m' =>
      obtain ⟨k', w'⟩ := c'
      simp only [Memory.rising, Bool.and_eq_true, decide_eq_true_eq] at r r'
      have hk : k = k' := by
        rcases Nat.lt_trichotomy k k' with hlt | heq | hgt
        · have := h k
          simp only [Memory.lookup, if_true, show k ≠ k' by omega, if_false] at this
          rw [lookup_lt_of_rising r'.2 (by omega)] at this; cases this
        · exact heq
        · have := h k'
          simp only [Memory.lookup, if_true, show k' ≠ k by omega, if_false] at this
          rw [lookup_lt_of_rising r.2 (by omega)] at this; cases this
      subst hk
      have hw : w = w' := by have := h k; simpa [Memory.lookup] using this
      subst hw
      congr 1
      refine ih r.2 r'.2 fun i => ?_
      by_cases hi : i = k
      · subst hi; rw [lookup_lt_of_rising r.2 (by omega), lookup_lt_of_rising r'.2 (by omega)]
      · have := h i; simpa [Memory.lookup, hi] using this

theorem wf_ext {cap : Nat} {m m' : Memory α} (h : Memory.wf cap m = true) (h' : Memory.wf cap m' = true)
    (e : ∀ i, Memory.lookup m i = Memory.lookup m' i) : m = m' := by
  simp only [Memory.wf, Bool.and_eq_true] at h h'
  exact rising_ext h.1 h'.1 e

end

end Sys2Proof.Machine
end

