-- ==== Sys2Proof/Laws/Operands.lean ====
section
/-! SUPPORT. The element views of `NODE` and `CODE`: what is read back from the words that were written. -/

namespace Sys2Proof.Machine

/-! ## NODE -/

theorem nodeOfWords_nodeWords (n : Node) :
    nodeOfWords (n.weight.extractLsb' 0 32) ((n.weight.extractLsb' 32 8).setWidth 32)
      ((0 : BitVec 7) ++ (n.right ++ ((0 : BitVec 7) ++ n.left))) ((0 : BitVec 23) ++ (BitVec.ofBool n.tag ++ n.sym)) = n := by
  obtain ⟨tag, weight, sym, left, right⟩ := n
  simp only [nodeOfWords, Node.mk.injEq]
  refine ⟨?_, ?_, ?_, ?_, ?_⟩
  · rw [BitVec.getLsbD_append, BitVec.getLsbD_append]; simp
  · apply BitVec.eq_of_getLsbD_eq
    intro i hi
    simp only [BitVec.getLsbD_append, BitVec.getLsbD_extractLsb', BitVec.getLsbD_setWidth]
    by_cases h : i < 32
    · simp [h]
    · have h8 : i - 32 < 8 := by omega
      have h32 : i - 32 < 32 := by omega
      simp [h, h8, h32, show 32 + (i - 32) = i by omega]
  · apply BitVec.eq_of_getLsbD_eq
    intro i hi
    simp only [BitVec.getLsbD_append, BitVec.getLsbD_extractLsb']
    simp [hi, show i < 9 by omega]
  · apply BitVec.eq_of_getLsbD_eq
    intro i hi
    simp only [BitVec.getLsbD_append, BitVec.getLsbD_extractLsb']
    simp [hi, show i < 16 by omega, show i < 25 by omega]
  · apply BitVec.eq_of_getLsbD_eq
    intro i hi
    simp only [BitVec.getLsbD_append, BitVec.getLsbD_extractLsb']
    have e : 16 + i - 16 = i := by omega
    simp [e, hi, show ¬ 16 + i < 16 by omega, show i < 16 by omega]; omega

/-- A bit the mask leaves out is 0 in a masked word. -/
theorem getLsbD_of_masked {w m : Word} (h : w &&& m = w) {k : Nat} (hm : m.getLsbD k = false) : w.getLsbD k = false := by
  rw [← h, BitVec.getLsbD_and, hm, Bool.and_false]

/-- The words of the element read from four words without unimplemented bits are these words (R76). -/
theorem nodeWords_nodeOfWords {w0 w1 w2 w3 : Word} (h1 : w1 &&& nodeMask 1 = w1) (h2 : w2 &&& nodeMask 2 = w2)
    (h3 : w3 &&& nodeMask 3 = w3) : nodeWords (nodeOfWords w0 w1 w2 w3) = [w0, w1, w2, w3] := by
  have m1 : ∀ k, k < 32 → ¬ k < 8 → (nodeMask 1).getLsbD k = false := by decide
  have m2 : ∀ k, k < 32 → ¬ k < 9 → ¬ (16 ≤ k ∧ k < 25) → (nodeMask 2).getLsbD k = false := by decide
  have m3 : ∀ k, k < 32 → ¬ k < 9 → (nodeMask 3).getLsbD k = false := by decide
  simp only [nodeWords, nodeOfWords, List.cons.injEq, and_true]
  refine ⟨?_, ?_, ?_, ?_⟩ <;> (apply BitVec.eq_of_getLsbD_eq; intro k hk)
  · rw [BitVec.getLsbD_extractLsb', BitVec.getLsbD_append]; simp [hk]
  · rw [BitVec.getLsbD_setWidth, BitVec.getLsbD_extractLsb', BitVec.getLsbD_append, BitVec.getLsbD_extractLsb']
    by_cases h : k < 8
    · simp [h, hk]
    · rw [getLsbD_of_masked h1 (m1 k hk h)]; simp [h]
  · simp only [BitVec.getLsbD_append, BitVec.getLsbD_extractLsb']
    by_cases h : k < 9
    · simp [h, show k < 16 by omega, show k < 25 by omega]
    · by_cases h' : 16 ≤ k ∧ k < 25
      · simp [h, h'.2, show ¬ k < 16 by omega, show k - 16 < 9 by omega, show 16 + (k - 16) = k by omega]
      · rw [getLsbD_of_masked h2 (m2 k hk h h')]
        by_cases h16 : k < 16
        · simp [h, h16]
        · simp [h, h16, show ¬ k < 25 by omega]
  · simp only [BitVec.getLsbD_append, BitVec.getLsbD_extractLsb']
    by_cases h : k < 8
    · simp [h, show k < 9 by omega]
    · by_cases h' : k < 9
      · have : k = 8 := by omega
        subst this; simp
      · rw [getLsbD_of_masked h3 (m3 k hk h')]; simp [h, h']

theorem nodeWords_length (n : Node) : (nodeWords n).length = 4 := rfl

theorem arenaWords_length (nodes : List Node) : (arenaWords nodes).length = 4 * nodes.length := by
  induction nodes with
  | nil => rfl
  | cons n ns ih => simp only [arenaWords, List.flatMap_cons, List.length_append, nodeWords_length, List.length_cons] at ih ⊢; omega

theorem arenaWords_getElem? (nodes : List Node) (i w : Nat) (hw : w < 4) :
    (arenaWords nodes)[4 * i + w]? = (nodes[i]?).bind fun n => (nodeWords n)[w]? := by
  induction nodes generalizing i with
  | nil => simp [arenaWords]
  | cons n ns ih =>
    have e : arenaWords (n :: ns) = nodeWords n ++ arenaWords ns := by simp [arenaWords]
    rw [e]
    cases i with
    | zero => rw [List.getElem?_append_left (by simp [nodeWords_length]; omega)]; simp
    | succ i =>
      rw [List.getElem?_append_right (by simp [nodeWords_length]; omega), nodeWords_length,
        show 4 * (i + 1) + w - 4 = 4 * i + w by omega, ih i]
      simp

/-- `NODE[i]` after a build that wrote `nodes` from index 0, below `NNODE`. -/
theorem nodeAt_written {s t : State} {nodes : List Node} (hn : t.node = Memory.writePrefix s.node (arenaWords nodes))
    {i : Nat} (h : i < nodes.length) : nodeAt t i = nodes[i] := by
  have word : ∀ w (hw : w < 4), nodeWordAt t (4 * i + w) = (nodeWords nodes[i])[w]'(by simpa [nodeWords_length] using hw) := by
    intro w hw
    have hlt : 4 * i + w < (arenaWords nodes).length := by rw [arenaWords_length]; omega
    simp only [nodeWordAt, hn]
    rw [readWith_writePrefix_lt _ _ _ _ hlt]
    have := arenaWords_getElem? nodes i w hw
    rw [List.getElem?_eq_getElem hlt, List.getElem?_eq_getElem h] at this
    simp only [Option.bind_some] at this
    rw [List.getElem?_eq_getElem (by simpa [nodeWords_length] using hw)] at this
    exact Option.some.inj this
  have h0 := word 0 (by omega)
  have h1 := word 1 (by omega)
  have h2 := word 2 (by omega)
  have h3 := word 3 (by omega)
  simp only [Nat.add_zero] at h0
  rw [nodeAt, h0, h1, h2, h3]
  exact nodeOfWords_nodeWords nodes[i]

/-- `NODE[i]` at and above `NNODE` keeps its contents. -/
theorem nodeAt_kept {s t : State} {nodes : List Node} (hn : t.node = Memory.writePrefix s.node (arenaWords nodes))
    (hd : t.nodeDraw = s.nodeDraw) {i : Nat} (h : nodes.length ≤ i) : nodeAt t i = nodeAt s i := by
  have word : ∀ w, nodeWordAt t (4 * i + w) = nodeWordAt s (4 * i + w) := by
    intro w
    simp only [nodeWordAt, hn, hd]
    rw [readWith_writePrefix_ge]
    rw [arenaWords_length]; omega
  have h0 := word 0
  simp only [Nat.add_zero] at h0
  simp only [nodeAt, h0, word]

/-- `NODE[i]` depends only on the contents of the arena. -/
theorem nodeAt_congr {s t : State} (hn : t.node = s.node) (hd : t.nodeDraw = s.nodeDraw) : nodeAt t = nodeAt s := by
  funext i; simp only [nodeAt, nodeWordAt, hn, hd]

/-- A stored node word has no unimplemented bit: reading the words and masking them again changes nothing. -/
theorem nodeWords_masked (n : Node) (w : Nat) (hw : w < 4) :
    ∀ v, (nodeWords n)[w]? = some v → v &&& nodeMask w = v := by
  obtain ⟨tag, weight, sym, left, right⟩ := n
  intro v hv
  have : w = 0 ∨ w = 1 ∨ w = 2 ∨ w = 3 := by omega
  rcases this with rfl | rfl | rfl | rfl
  · simp only [nodeWords, List.getElem?_cons_zero, Option.some.injEq] at hv
    subst hv; simp only [nodeMask]
    have : (0xFFFFFFFF : Word) = BitVec.allOnes 32 := by decide
    exact this ▸ BitVec.and_allOnes
  all_goals
    simp only [nodeWords, List.getElem?_cons_zero, List.getElem?_cons_succ, Option.some.injEq] at hv
    subst hv; simp only [nodeMask]
  · have hm : (255 : Word) = (0 : BitVec 24) ++ BitVec.allOnes 8 := by decide
    rw [hm]
    apply BitVec.eq_of_getLsbD_eq; intro i hi
    simp only [BitVec.getLsbD_and, BitVec.getLsbD_append, BitVec.getLsbD_setWidth, BitVec.getLsbD_extractLsb',
      BitVec.getLsbD_allOnes]
    by_cases h : i < 8 <;> simp [h]
  · have hm : (33489407 : Word) = (0 : BitVec 7) ++ (BitVec.allOnes 9 ++ ((0 : BitVec 7) ++ BitVec.allOnes 9)) := by decide
    rw [hm]
    apply BitVec.eq_of_getLsbD_eq; intro i hi
    simp only [BitVec.getLsbD_and, BitVec.getLsbD_append, BitVec.getLsbD_allOnes]
    by_cases h : i < 9
    · simp [h, show i < 16 by omega, show i < 25 by omega]
    · by_cases h' : i < 16
      · simp [h, h']
      · by_cases h'' : i - 16 < 9
        · simp [h', show i < 25 by omega, h'']
        · simp [h', show ¬ i < 25 by omega, h'']
  · have hm : (511 : Word) = (0 : BitVec 23) ++ (BitVec.allOnes 1 ++ BitVec.allOnes 8) := by decide
    rw [hm]
    apply BitVec.eq_of_getLsbD_eq; intro i hi
    simp only [BitVec.getLsbD_and, BitVec.getLsbD_append, BitVec.getLsbD_allOnes]
    by_cases h : i < 8
    · simp [h, show i < 9 by omega]
    · by_cases h' : i < 9
      · simp [h, h', show i - 8 < 1 by omega]
      · simp [h, h']

/-! ## CODE -/

theorem codeWords_length (c : Code) : (codeWords c).length = 9 := by simp [codeWords]

theorem flatMap_nine_length (f : Nat → Code) (l : List Nat) : (l.flatMap fun v => codeWords (f v)).length = 9 * l.length := by
  induction l with
  | nil => rfl
  | cons a l ih => simp only [List.flatMap_cons, List.length_append, codeWords_length, List.length_cons, ih]; omega

theorem codeTableWords_length (f : Nat → Code) : (codeTableWords f).length = 9 * Config.nsym := by
  rw [codeTableWords, flatMap_nine_length, List.length_range]

theorem flatMap_nine_getElem? (f : Nat → Code) (l : List Nat) (i w : Nat) (hw : w < 9) :
    (l.flatMap fun v => codeWords (f v))[9 * i + w]? = (l[i]?).bind fun v => (codeWords (f v))[w]? := by
  induction l generalizing i with
  | nil => simp
  | cons a l ih =>
    rw [List.flatMap_cons]
    cases i with
    | zero => rw [List.getElem?_append_left (by simp [codeWords_length]; omega)]; simp
    | succ i =>
      rw [List.getElem?_append_right (by simp [codeWords_length]; omega), codeWords_length,
        show 9 * (i + 1) + w - 9 = 9 * i + w by omega, ih i]
      simp

theorem codeTableWords_getElem? (f : Nat → Code) (v w : Nat) (hv : v < Config.nsym) (hw : w < 9) :
    (codeTableWords f)[9 * v + w]? = (codeWords (f v))[w]? := by
  rw [codeTableWords, flatMap_nine_getElem? _ _ _ _ hw, List.getElem?_range hv]; rfl

theorem codeWord_written {t : State} {f : Nat → Code} (hc : t.code = Memory.ofList (codeTableWords f))
    {v w : Nat} (hv : v < Config.nsym) (hw : w < 9) : some (codeWordAt t (9 * v + w)) = (codeWords (f v))[w]? := by
  have hlt : 9 * v + w < (codeTableWords f).length := by rw [codeTableWords_length]; omega
  simp only [codeWordAt, hc]
  rw [readWith_ofList _ _ _ hlt, ← codeTableWords_getElem? f v w hv hw, List.getElem?_eq_getElem hlt]

theorem codeWord_zero_written {t : State} {f : Nat → Code} (hc : t.code = Memory.ofList (codeTableWords f))
    {v : Nat} (hv : v < Config.nsym) : codeWordAt t (9 * v) = (f v).len.setWidth 32 := by
  have := codeWord_written hc hv (w := 0) (by omega)
  simpa [codeWords] using this

theorem codeWord_succ_written {t : State} {f : Nat → Code} (hc : t.code = Memory.ofList (codeTableWords f))
    {v w : Nat} (hv : v < Config.nsym) (hw : w < 8) :
    codeWordAt t (9 * v + 1 + w) = (f v).bits.extractLsb' (32 * w) 32 := by
  have := codeWord_written hc hv (w := w + 1) (by omega)
  rw [codeWords, List.getElem?_cons_succ, List.getElem?_map, List.getElem?_range hw] at this
  simp only [Option.map_some, Option.some.injEq] at this
  rw [← this]; congr 1; omega

theorem codeLen_written {t : State} {f : Nat → Code} (hc : t.code = Memory.ofList (codeTableWords f))
    {v : Nat} (hv : v < Config.nsym) : codeLen t v = (f v).len.toNat := by
  rw [codeLen, codeWord_zero_written hc hv]
  congr 1
  apply BitVec.eq_of_getLsbD_eq; intro i hi
  simp [hi, show i < 32 by omega]

theorem codeBit_written {t : State} {f : Nat → Code} (hc : t.code = Memory.ofList (codeTableWords f))
    {v : Nat} (hv : v < Config.nsym) {k : Nat} (hk : k < 256) : codeBit t v k = (f v).bits.getLsbD k := by
  rw [codeBit, codeWord_succ_written hc hv (by omega), BitVec.getLsbD_extractLsb',
    show 32 * (k / 32) + k % 32 = k by omega]
  simp [show k % 32 < 32 by omega]

/-- `BITS` of the view, bit by bit: the words hold the 256 bits, least significant word first (R78). -/
theorem codeAt_bits (s : State) (v k : Nat) (hk : k < 256) : (codeAt s v).bits.getLsbD k = codeBit s v k := by
  have hword : ∀ w, w < 8 → 32 * w ≤ k → k < 32 * (w + 1) → codeBit s v k = (codeWordAt s (9 * v + 1 + w)).getLsbD (k - 32 * w) := by
    intro w _ h1 h2
    rw [codeBit, show k / 32 = w by omega, show k % 32 = k - 32 * w by omega]
  simp only [codeAt, BitVec.getLsbD_append]
  by_cases h0 : k < 32
  · rw [hword 0 (by omega) (by omega) (by omega)]
    simp [show k < 32 by omega, show k < 64 by omega, show k < 96 by omega, show k < 128 by omega, show k < 160 by omega, show k < 192 by omega, show k < 224 by omega]
  by_cases h1 : k < 64
  · rw [hword 1 (by omega) (by omega) (by omega)]
    simp [show k < 64 by omega, show k < 96 by omega, show k < 128 by omega, show k < 160 by omega, show k < 192 by omega, show k < 224 by omega, show ¬ k < 32 by omega]
  by_cases h2 : k < 96
  · rw [hword 2 (by omega) (by omega) (by omega)]
    simp [show k < 96 by omega, show k < 128 by omega, show k < 160 by omega, show k < 192 by omega, show k < 224 by omega, show ¬ k < 32 by omega, show ¬ k < 64 by omega]
  by_cases h3 : k < 128
  · rw [hword 3 (by omega) (by omega) (by omega)]
    simp [show k < 128 by omega, show k < 160 by omega, show k < 192 by omega, show k < 224 by omega, show ¬ k < 32 by omega, show ¬ k < 64 by omega, show ¬ k < 96 by omega]
  by_cases h4 : k < 160
  · rw [hword 4 (by omega) (by omega) (by omega)]
    simp [show k < 160 by omega, show k < 192 by omega, show k < 224 by omega, show ¬ k < 32 by omega, show ¬ k < 64 by omega, show ¬ k < 96 by omega, show ¬ k < 128 by omega]
  by_cases h5 : k < 192
  · rw [hword 5 (by omega) (by omega) (by omega)]
    simp [show k < 192 by omega, show k < 224 by omega, show ¬ k < 32 by omega, show ¬ k < 64 by omega, show ¬ k < 96 by omega, show ¬ k < 128 by omega, show ¬ k < 160 by omega]
  by_cases h6 : k < 224
  · rw [hword 6 (by omega) (by omega) (by omega)]
    simp [show k < 224 by omega, show ¬ k < 32 by omega, show ¬ k < 64 by omega, show ¬ k < 96 by omega, show ¬ k < 128 by omega, show ¬ k < 160 by omega, show ¬ k < 192 by omega]
  · rw [hword 7 (by omega) (by omega) (by omega)]
    simp [show ¬ k < 32 by omega, show ¬ k < 64 by omega, show ¬ k < 96 by omega, show ¬ k < 128 by omega, show ¬ k < 160 by omega, show ¬ k < 192 by omega, show ¬ k < 224 by omega]

/-- `CODE[v]` after the whole table was written. -/
theorem codeAt_written {t : State} {f : Nat → Code} (hc : t.code = Memory.ofList (codeTableWords f))
    {v : Nat} (hv : v < Config.nsym) : codeAt t v = f v := by
  have hlen : (codeAt t v).len = (f v).len := BitVec.eq_of_toNat_eq (codeLen_written hc hv)
  have hbits : (codeAt t v).bits = (f v).bits := by
    apply BitVec.eq_of_getLsbD_eq; intro k hk
    rw [codeAt_bits t v k hk, codeBit_written hc hv hk]
  cases hf : f v; rw [hf] at hlen hbits
  cases hcode : codeAt t v; rw [hcode] at hlen hbits
  simp_all

/-- The code string of a symbol in its element: the low `LEN` bits of `BITS`, the first bit most significant (R33). -/
theorem codeString_eq (s : State) (v : Nat) :
    codeString s v =
      (List.range (codeAt s v).len.toNat).map fun j => (codeAt s v).bits.getLsbD ((codeAt s v).len.toNat - 1 - j) := by
  have hl : (codeAt s v).len.toNat = codeLen s v := rfl
  have := (codeAt s v).len.isLt
  rw [hl] at this ⊢
  exact List.map_congr_left fun j _ => (codeAt_bits s v _ (by omega)).symm

/-- The code string of a symbol after the whole table was written. -/
theorem codeString_written {t : State} {f : Nat → Code} (hc : t.code = Memory.ofList (codeTableWords f))
    {v : Nat} (hv : v < Config.nsym) :
    codeString t v = (List.range (f v).len.toNat).map fun j => (f v).bits.getLsbD ((f v).len.toNat - 1 - j) := by
  simp only [codeString, codeLen_written hc hv]
  apply List.map_congr_left
  intro j hj
  have := (f v).len.isLt
  exact codeBit_written hc hv (by simp at hj; omega)

theorem codeWords_masked (c : Code) (w : Nat) (hw : w < 9) : ∀ v, (codeWords c)[w]? = some v → v &&& codeMask w = v := by
  intro v hv
  have ones : ∀ x : Word, x &&& 0xFFFFFFFF = x := by
    intro x
    have : (0xFFFFFFFF : Word) = BitVec.allOnes 32 := by decide
    exact this ▸ BitVec.and_allOnes
  cases w with
  | zero =>
    simp only [codeWords, List.getElem?_cons_zero, Option.some.injEq] at hv
    subst hv
    have hm : codeMask 0 = (0 : BitVec 24) ++ BitVec.allOnes 8 := by decide
    rw [hm]
    apply BitVec.eq_of_getLsbD_eq; intro i hi
    simp only [BitVec.getLsbD_and, BitVec.getLsbD_append, BitVec.getLsbD_setWidth, BitVec.getLsbD_allOnes]
    by_cases h : i < 8
    · simp [h]
    · simp [h, BitVec.getLsbD_of_ge c.len i (by omega)]
  | succ w => exact ones v

theorem codeString_congr {s t : State} (hc : t.code = s.code) (hd : t.codeDraw = s.codeDraw) : codeString t = codeString s := by
  funext v; simp only [codeString, codeLen, codeBit, codeWordAt, hc, hd]

theorem symAt_congr {s t : State} (hc : t.sym = s.sym) (hd : t.symDraw = s.symDraw) : symAt t = symAt s := by
  funext v; simp only [symAt, hc, hd]

theorem symbols_congr {s t : State} (hc : t.sym = s.sym) (hd : t.symDraw = s.symDraw) : symbols t = symbols s := by
  funext n; simp only [symbols, symAt_congr hc hd]

end Sys2Proof.Machine
end

