-- ==== Sys2Proof/Laws/Keys.lean ====
section
/-! SUPPORT. The FrequencyTable: what `ANALYZE` counts, and the list of keys the builders start from. -/

namespace Sys2Proof.Machine

/-! ## Counting -/

theorem countTable_length (syms : List Byte) : (countTable syms).length = Config.nsym := by simp [countTable]

/-- `FREQ[v]` after the table of `syms` was written. -/
theorem freqAt_countTable {t : State} {syms : List Byte} (hf : t.freq = Memory.ofList (countTable syms))
    (hl : syms.length < 2 ^ 32) {v : Nat} (hv : v < Config.nsym) :
    (freqAt t v).toNat = syms.count (BitVec.ofNat 8 v) := by
  have hlt : v < (countTable syms).length := by rw [countTable_length]; exact hv
  rw [freqAt, hf, readWith_ofList _ _ _ hlt]
  simp only [countTable, List.getElem_map, List.getElem_range, BitVec.toNat_ofNat]
  exact Nat.mod_eq_of_lt (Nat.lt_of_le_of_lt List.count_le_length hl)

theorem sum_map_add {α : Type} (l : List α) (f g : α → Nat) :
    (l.map fun x => f x + g x).sum = (l.map f).sum + (l.map g).sum := by
  induction l with
  | nil => rfl
  | cons a l ih => simp only [List.map_cons, List.sum_cons, ih]; omega

theorem sum_map_indicator (l : List Nat) (hl : l.Nodup) (a : Nat) (ha : a ∈ l) :
    (l.map fun v => if v = a then 1 else 0).sum = 1 := by
  induction l with
  | nil => cases ha
  | cons b l ih =>
    rw [List.nodup_cons] at hl
    simp only [List.map_cons, List.sum_cons]
    by_cases hb : b = a
    · subst hb
      have : (l.map fun v => if v = b then 1 else 0) = l.map fun _ => 0 := by
        apply List.map_congr_left; intro v hv
        rw [if_neg]; rintro rfl; exact hl.1 hv
      simp [this]
    · have ha' : a ∈ l := by cases ha with | head => exact absurd rfl hb | tail _ h => exact h
      simp [hb, ih hl.2 ha']

theorem ofNat_toNat_byte (b : Byte) : BitVec.ofNat 8 b.toNat = b := by simp

theorem ofNat_eq_iff_byte {v : Nat} (hv : v < 256) (b : Byte) : BitVec.ofNat 8 v = b ↔ v = b.toNat := by
  constructor
  · rintro rfl; simp; omega
  · rintro rfl; simp

theorem sum_counts_over (l : List Nat) (hl : l.Nodup) (lt : ∀ v ∈ l, v < 256) (all : ∀ b : Byte, b.toNat ∈ l)
    (syms : List Byte) : (l.map fun v => syms.count (BitVec.ofNat 8 v)).sum = syms.length := by
  induction syms with
  | nil => induction l <;> simp
  | cons b syms ih =>
    have : (l.map fun v => (b :: syms).count (BitVec.ofNat 8 v)) =
        l.map fun v => syms.count (BitVec.ofNat 8 v) + if v = b.toNat then 1 else 0 := by
      apply List.map_congr_left; intro v hv
      rw [List.count_cons]
      congr 1
      by_cases h : v = b.toNat
      · subst h; simp
      · have : ¬ (b = BitVec.ofNat 8 v) := fun e => h ((ofNat_eq_iff_byte (lt v hv) b).1 e.symm)
        simp [h, this]
    rw [this, sum_map_add, ih, sum_map_indicator _ hl _ (all b)]
    rfl

/-- The counts of all 256 symbol values sum to the length (R132). -/
theorem sum_counts (syms : List Byte) :
    ((List.range 256).map fun v => syms.count (BitVec.ofNat 8 v)).sum = syms.length :=
  sum_counts_over _ List.nodup_range (fun _ => List.mem_range.1) (fun b => List.mem_range.2 b.isLt) syms

/-! ## The keys -/

/-- The item of a symbol value, when it is a key. -/
theorem mem_keyItems (s : State) (x : Item) : x ∈ keyItems s ↔ x.freq = freqAt s x.sym.toNat ∧ x.freq ≠ 0 := by
  simp only [keyItems, List.mem_filterMap, List.mem_range]
  constructor
  · rintro ⟨v, hv, h⟩
    split at h
    · cases h
    · next hz =>
      simp only [Option.some.injEq] at h
      subst h
      have : (BitVec.ofNat 8 v).toNat = v := by simp [Config.nsym] at hv ⊢; omega
      simp only [this]; exact ⟨trivial, hz⟩
  · rintro ⟨h1, h2⟩
    refine ⟨x.sym.toNat, x.sym.isLt, ?_⟩
    rw [if_neg (by rw [← h1]; exact h2)]
    simp [← h1]

theorem keyItems_pairwise (s : State) : (keyItems s).Pairwise fun a b => a.sym.toNat < b.sym.toNat := by
  rw [keyItems, List.pairwise_filterMap]
  have h := List.pairwise_lt_range (n := Config.nsym)
  have h' : (List.range Config.nsym).Pairwise fun a b => a < b ∧ b < Config.nsym := by
    rw [List.pairwise_iff_forall_sublist] at h ⊢
    intro a b hab
    exact ⟨h hab, List.mem_range.1 (hab.subset (by simp))⟩
  refine h'.imp ?_
  intro a b hab x hx y hy
  split at hx
  · cases hx
  · split at hy
    · cases hy
    · simp only [Option.some.injEq] at hx hy
      subst hx; subst hy
      simp only [BitVec.toNat_ofNat, Config.nsym] at hab ⊢
      omega

theorem keyItems_length_le (s : State) : (keyItems s).length ≤ 256 := by
  have := List.length_filterMap_le (fun v => if freqAt s v = 0 then none else some { sym := BitVec.ofNat 8 v, freq := freqAt s v : Item })
    (List.range Config.nsym)
  simpa [keyItems, Config.nsym] using this

theorem keyItems_symbols_nodup (s : State) : ((keyItems s).map Item.sym).Nodup := by
  rw [List.Nodup, List.pairwise_map]
  exact (keyItems_pairwise s).imp fun h e => by rw [e] at h; omega

theorem keyItems_eq_nil_iff (s : State) : keyItems s = [] ↔ ∀ v, v < 256 → freqAt s v = 0 := by
  constructor
  · intro h v hv
    by_contra hz
    have e : (BitVec.ofNat 8 v).toNat = v := by simp; omega
    have : ({ sym := BitVec.ofNat 8 v, freq := freqAt s v } : Item) ∈ keyItems s := by
      rw [mem_keyItems]; simp only [e]; exact ⟨trivial, hz⟩
    rw [h] at this; cases this
  · intro h
    rw [List.eq_nil_iff_forall_not_mem]
    intro x hx
    rw [mem_keyItems] at hx
    exact hx.2 (by rw [hx.1]; exact h _ x.sym.isLt)

theorem keyItems_ne_nil {s : State} (h : ∃ v, v < 256 ∧ freqAt s v ≠ 0) : keyItems s ≠ [] := by
  rw [Ne, keyItems_eq_nil_iff]; rintro h'; obtain ⟨v, hv, hz⟩ := h; exact hz (h' v hv)

/-- The keys are a function of the table's contents. -/
theorem keyItems_congr {s s' : State} (h : ∀ v, v < 256 → freqAt s v = freqAt s' v) : keyItems s = keyItems s' := by
  rw [keyItems, keyItems]
  apply List.filterMap_congr
  intro v hv
  rw [h v (List.mem_range.1 hv)]

/-- The keys' counts sum to the sum of all counts. -/
theorem sum_keyItems (s : State) :
    ((keyItems s).map fun x => x.freq.toNat).sum = ((List.range 256).map fun v => (freqAt s v).toNat).sum := by
  rw [keyItems, show Config.nsym = 256 from rfl]
  induction List.range 256 with
  | nil => rfl
  | cons v l ih =>
    rw [List.filterMap_cons]
    by_cases h : freqAt s v = 0
    · simp only [h, if_true, List.map_cons, List.sum_cons, ih]; simp
    · simp only [h, if_false, List.map_cons, List.sum_cons, ih]

end Sys2Proof.Machine
end

