-- ==== Sys2Proof/Laws/ShannonFano.lean ====
section
/-! SUPPORT. The Shannon-Fano builder: the sorted list, the first-minimum split, the tree and its arena layout. -/

namespace Sys2Proof.Machine

/-! ## The sorted list -/

theorem insertItem_perm (x : Item) (ys : List Item) : (insertItem x ys).Perm (x :: ys) := by
  induction ys with
  | nil => exact List.Perm.refl _
  | cons y ys ih =>
    simp only [insertItem]
    split
    · exact List.Perm.refl _
    · exact (List.Perm.cons y ih).trans (List.Perm.swap x y ys)

theorem sortItems_perm (xs : List Item) : (sortItems xs).Perm xs := by
  induction xs with
  | nil => exact List.Perm.refl _
  | cons x xs ih => exact (insertItem_perm x _).trans (List.Perm.cons x ih)

theorem before_iff (a b : Item) :
    a.before b = true ↔ b.freq.toNat < a.freq.toNat ∨ (a.freq = b.freq ∧ a.sym.toNat < b.sym.toNat) := by
  simp [Item.before]

theorem before_trans {a b c : Item} (h : a.before b = true) (h' : b.before c = true) : a.before c = true := by
  rw [before_iff] at *
  rcases h with h | ⟨e, h⟩ <;> rcases h' with h' | ⟨e', h'⟩
  · left; omega
  · left; rw [← e']; exact h
  · left; rw [e]; exact h'
  · right; exact ⟨e.trans e', by omega⟩

theorem before_total {a b : Item} (hs : a.sym ≠ b.sym) (h : ¬ a.before b = true) : b.before a = true := by
  rw [before_iff] at *
  have hne : a.sym.toNat ≠ b.sym.toNat := fun e => hs (BitVec.eq_of_toNat_eq e)
  by_cases hf : a.freq = b.freq
  · right; exact ⟨hf.symm, by have : ¬ a.sym.toNat < b.sym.toNat := fun hl => h (Or.inr ⟨hf, hl⟩); omega⟩
  · have : a.freq.toNat ≠ b.freq.toNat := fun e => hf (BitVec.eq_of_toNat_eq e)
    left; have : ¬ b.freq.toNat < a.freq.toNat := fun hl => h (Or.inl hl); omega

theorem insertItem_sorted {x : Item} {ys : List Item} (hx : ∀ y ∈ ys, x.sym ≠ y.sym)
    (h : ys.Pairwise fun a b => a.before b = true) : (insertItem x ys).Pairwise fun a b => a.before b = true := by
  induction ys with
  | nil => exact List.pairwise_singleton _ _
  | cons y ys ih =>
    rw [List.pairwise_cons] at h
    simp only [insertItem]
    split
    · next hb =>
      refine List.Pairwise.cons ?_ (List.Pairwise.cons h.1 h.2)
      intro z hz
      cases hz with
      | head => exact hb
      | tail _ hz => exact before_trans hb (h.1 z hz)
    · next hb =>
      refine List.Pairwise.cons ?_ (ih (fun z hz => hx z (List.mem_cons_of_mem _ hz)) h.2)
      intro z hz
      rcases List.mem_cons.1 ((insertItem_perm x ys).subset hz) with rfl | hz
      · exact before_total (hx y (by simp)) hb
      · exact h.1 z hz

/-- The list is sorted as R141 says when the symbols are distinct. -/
theorem sortItems_sorted {xs : List Item} (h : (xs.map Item.sym).Nodup) :
    (sortItems xs).Pairwise fun a b => a.before b = true := by
  induction xs with
  | nil => exact List.Pairwise.nil
  | cons x xs ih =>
    rw [List.map_cons, List.nodup_cons] at h
    refine insertItem_sorted ?_ (ih h.2)
    intro y hy e
    exact h.1 (e ▸ List.mem_map_of_mem ((sortItems_perm xs).subset hy))

theorem sortItems_length (xs : List Item) : (sortItems xs).length = xs.length := (sortItems_perm xs).length_eq

/-! ## The split -/

/-- `k` is the first index of `[1, hi]` at which `d` is least. -/
structure FirstMin (d : Nat → Nat) (hi k : Nat) : Prop where
  ge    : 1 ≤ k
  le    : k ≤ hi
  least : ∀ j, 1 ≤ j → j ≤ hi → d k ≤ d j
  first : ∀ j, 1 ≤ j → j < k → d k < d j

/-- `|2*L(k) - T|` (R143). -/
def splitDiff (fs : List Nat) (k : Nat) : Nat := absDiff (2 * (fs.take k).sum) fs.sum

theorem splitScan_firstMin (fs : List Nat) (rest : List Nat) : ∀ (k cum bestD bestK : Nat), 2 ≤ k → rest ≠ [] →
    rest = fs.drop (k - 1) → cum = (fs.take (k - 1)).sum → bestD = splitDiff fs bestK → FirstMin (splitDiff fs) (k - 1) bestK →
    FirstMin (splitDiff fs) (fs.length - 1) (splitScan fs.sum rest cum k bestD bestK) := by
  induction rest with
  | nil => intro _ _ _ _ _ h; exact absurd rfl h
  | cons x rest ih =>
    intro k cum bestD bestK hk _ hr hc hd hm
    have hlen : rest.length + 1 = fs.length - (k - 1) := by
      have := congrArg List.length hr; simpa using this
    cases rest with
    | nil =>
      simp only [splitScan]
      have : fs.length - 1 = k - 1 := by simp at hlen; omega
      rw [this]; exact hm
    | cons y rest =>
      simp only [List.length_cons] at hlen
      have hx : fs[k - 1]? = some x := by
        have := congrArg (fun l => l[0]?) hr
        simpa using this.symm
      have hsum : cum + x = (fs.take k).sum := by
        have : fs.take k = fs.take (k - 1) ++ [x] := by
          conv => lhs; rw [show k = k - 1 + 1 by omega]
          rw [List.take_add_one, hx]; rfl
        rw [this, List.sum_append, hc]; simp
      have hdrop : y :: rest = fs.drop (k + 1 - 1) := by
        have : fs.drop (k - 1 + 1) = (fs.drop (k - 1)).tail := by rw [List.tail_drop]
        rw [show k + 1 - 1 = k - 1 + 1 by omega, this, ← hr]; rfl
      have hdk : absDiff (2 * (cum + x)) fs.sum = splitDiff fs k := by rw [splitDiff, hsum]
      simp only [splitScan]
      rw [hdk]
      split
      · next hlt =>
        refine ih (k + 1) (cum + x) _ k (by omega) (by simp) hdrop ?_ rfl ?_
        · rw [hsum]; rfl
        · refine ⟨by omega, by omega, ?_, ?_⟩
          · intro j hj1 hj2
            by_cases h : j = k
            · subst h; exact Nat.le_refl _
            · have := hm.least j hj1 (by omega); rw [hd] at hlt; omega
          · intro j hj1 hj2
            have := hm.least j hj1 (by omega); rw [hd] at hlt; omega
      · next hge =>
        refine ih (k + 1) (cum + x) _ bestK (by omega) (by simp) hdrop ?_ hd ?_
        · rw [hsum]; rfl
        · refine ⟨hm.ge, by have := hm.le; omega, ?_, hm.first⟩
          intro j hj1 hj2
          by_cases h : j = k
          · subst h; rw [hd] at hge; omega
          · exact hm.least j hj1 (by omega)

/-- `Split` is the first minimum (R143). -/
theorem splitIndex_firstMin (fs : List Nat) (h : 2 ≤ fs.length) :
    FirstMin (splitDiff fs) (fs.length - 1) (splitIndex fs) := by
  cases fs with
  | nil => simp at h
  | cons f rest =>
    simp only [List.length_cons] at h
    have hne : rest ≠ [] := by rintro rfl; simp at h
    have := splitScan_firstMin (f :: rest) rest 2 f (splitDiff (f :: rest) 1) 1 (by omega) hne (by simp) (by simp) rfl
      ⟨by omega, by omega, fun j h1 h2 => by have : j = 1 := by omega
                                             subst this; exact Nat.le_refl _, fun j h1 h2 => by omega⟩
    simpa [splitIndex, splitDiff] using this

theorem splitIndex_bounds {fs : List Nat} (h : 2 ≤ fs.length) : 1 ≤ splitIndex fs ∧ splitIndex fs < fs.length := by
  have := splitIndex_firstMin fs h
  exact ⟨this.ge, by have := this.le; omega⟩

/-! ## The tree -/

theorem freqs_length (items : List Item) : (freqs items).length = items.length := by simp [freqs]

/-- One level of `Build` (R142). -/
theorem sfTree_succ (fuel : Nat) {items : List Item} (h : 2 ≤ items.length) :
    sfTree (fuel + 1) items =
      .internal (sfTree fuel (items.take (splitIndex (freqs items)))) (sfTree fuel (items.drop (splitIndex (freqs items))))
        ((sfTree fuel (items.take (splitIndex (freqs items)))).weight +
          (sfTree fuel (items.drop (splitIndex (freqs items)))).weight) := by
  match items, h with
  | x :: y :: rest, _ => rfl

theorem sfTree_singleton (fuel : Nat) (x : Item) : sfTree fuel [x] = .leaf x.sym (x.freq.setWidth 40) := by
  cases fuel <;> rfl

theorem split_lengths {items : List Item} (h : 2 ≤ items.length) :
    (items.take (splitIndex (freqs items))).length = splitIndex (freqs items) ∧
    (items.drop (splitIndex (freqs items))).length = items.length - splitIndex (freqs items) ∧
    1 ≤ splitIndex (freqs items) ∧ splitIndex (freqs items) < items.length := by
  have hb := splitIndex_bounds (fs := freqs items) (by rw [freqs_length]; exact h)
  rw [freqs_length] at hb
  refine ⟨?_, ?_, hb.1, hb.2⟩
  · rw [List.length_take]; omega
  · rw [List.length_drop]

/-- The recursion bound is never what ends the recursion. -/
theorem sfTree_fuel : ∀ (fuel : Nat) (items : List Item), items ≠ [] → items.length ≤ fuel →
    sfTree fuel items = sfTree items.length items := by
  intro fuel
  induction fuel using Nat.strong_induction_on with
  | _ fuel ih =>
    intro items hne hle
    match items, hne with
    | [x], _ => rw [sfTree_singleton, sfTree_singleton]
    | x :: y :: rest, _ =>
      generalize hit : x :: y :: rest = items at hle ⊢
      have h2 : 2 ≤ items.length := by rw [← hit]; simp
      obtain ⟨ht, hd, hb1, hb2⟩ := split_lengths h2
      obtain ⟨f, rfl⟩ : ∃ f, fuel = f + 1 := ⟨fuel - 1, by omega⟩
      obtain ⟨g, hg⟩ : ∃ g, items.length = g + 1 := ⟨items.length - 1, by omega⟩
      have htne : items.take (splitIndex (freqs items)) ≠ [] := by intro e; rw [e] at ht; simp at ht; omega
      have hdne : items.drop (splitIndex (freqs items)) ≠ [] := by intro e; rw [e] at hd; simp at hd; omega
      rw [hg, sfTree_succ f h2, sfTree_succ g h2]
      rw [ih f (by omega) _ htne (by omega), ih f (by omega) _ hdne (by omega)]
      rw [ih g (by omega) _ htne (by omega), ih g (by omega) _ hdne (by omega)]

/-- Induction along `Build`. -/
theorem sfTree_induction {P : List Item → Tree → Prop}
    (one : ∀ x : Item, P [x] (.leaf x.sym (x.freq.setWidth 40)))
    (two : ∀ (l r : List Item) (tl tr : Tree), l ≠ [] → r ≠ [] → tl = sfTree l.length l → tr = sfTree r.length r →
      P l tl → P r tr → P (l ++ r) (.internal tl tr (tl.weight + tr.weight)))
    (items : List Item) (hne : items ≠ []) : P items (sfTree items.length items) := by
  generalize hn : items.length = n
  induction n using Nat.strong_induction_on generalizing items with
  | _ n ih =>
    match items, hne with
    | [x], _ => rw [sfTree_singleton]; exact one x
    | x :: y :: rest, _ =>
      generalize hit : x :: y :: rest = items at hn ⊢
      have h2 : 2 ≤ items.length := by rw [← hit]; simp
      obtain ⟨ht, hd, hb1, hb2⟩ := split_lengths h2
      have htne : items.take (splitIndex (freqs items)) ≠ [] := by intro e; rw [e] at ht; simp at ht; omega
      have hdne : items.drop (splitIndex (freqs items)) ≠ [] := by intro e; rw [e] at hd; simp at hd; omega
      obtain ⟨g, rfl⟩ : ∃ g, n = g + 1 := ⟨n - 1, by omega⟩
      rw [sfTree_succ g h2, sfTree_fuel g _ htne (by omega), sfTree_fuel g _ hdne (by omega)]
      have := two _ _ _ _ htne hdne rfl rfl (ih _ (by omega) _ htne rfl) (ih _ (by omega) _ hdne rfl)
      rwa [List.take_append_drop] at this

theorem sfTree_symbols (items : List Item) (hne : items ≠ []) :
    (sfTree items.length items).symbols = items.map Item.sym := by
  refine sfTree_induction (P := fun l t => t.symbols = l.map Item.sym) ?_ ?_ items hne
  · intro x; rfl
  · intro l r tl tr _ _ _ _ hl hr
    simp only [Tree.symbols, hl, hr, List.map_append]

theorem sfTree_size (items : List Item) (hne : items ≠ []) : (sfTree items.length items).size = 2 * items.length - 1 := by
  refine sfTree_induction (P := fun l t => t.size = 2 * l.length - 1) ?_ ?_ items hne
  · intro x; rfl
  · intro l r tl tr hl0 hr0 _ _ hl hr
    have := List.length_pos_iff.2 hl0
    have := List.length_pos_iff.2 hr0
    simp only [Tree.size, hl, hr, List.length_append]; omega

theorem sfTree_depth (items : List Item) (hne : items ≠ []) : (sfTree items.length items).depth ≤ items.length - 1 := by
  refine sfTree_induction (P := fun l t => t.depth ≤ l.length - 1) ?_ ?_ items hne
  · intro x; simp [Tree.depth]
  · intro l r tl tr hl0 hr0 _ _ hl hr
    have := List.length_pos_iff.2 hl0
    have := List.length_pos_iff.2 hr0
    simp only [Tree.depth, List.length_append]; omega

theorem sum_freqs_le (items : List Item) : (freqs items).sum ≤ items.length * (2 ^ 32 - 1) := by
  induction items with
  | nil => simp [freqs]
  | cons x xs ih =>
    have := x.freq.isLt
    simp only [freqs, List.map_cons, List.sum_cons, List.length_cons] at ih ⊢
    rw [Nat.add_mul]; omega

theorem freqs_append (l r : List Item) : freqs (l ++ r) = freqs l ++ freqs r := by simp [freqs]

/-- The weights are exact: no sum wraps with at most 256 counts of 32 bits (R145). -/
theorem sfTree_weights (items : List Item) (hne : items ≠ []) (hle : items.length ≤ 256) :
    (sfTree items.length items).weight.toNat = (freqs items).sum ∧ (sfTree items.length items).WeightsAdd := by
  refine sfTree_induction (P := fun l t => l.length ≤ 256 → t.weight.toNat = (freqs l).sum ∧ t.WeightsAdd) ?_ ?_ items hne hle
  · intro x _
    refine ⟨?_, trivial⟩
    have := x.freq.isLt
    simp only [Tree.weight, freqs, List.map_cons, List.map_nil, List.sum_cons, List.sum_nil, BitVec.toNat_setWidth]
    rw [Nat.mod_eq_of_lt (by omega)]; omega
  · intro l r tl tr _ _ _ _ hl hr hlen
    rw [List.length_append] at hlen
    obtain ⟨hl1, hl2⟩ := hl (by omega)
    obtain ⟨hr1, hr2⟩ := hr (by omega)
    have hs := sum_freqs_le (l ++ r)
    rw [List.length_append, freqs_append, List.sum_append] at hs
    have hw : (tl.weight + tr.weight).toNat = tl.weight.toNat + tr.weight.toNat := by
      rw [BitVec.toNat_add, Nat.mod_eq_of_lt]
      rw [hl1, hr1]
      have : (l.length + r.length) * (2 ^ 32 - 1) ≤ 256 * (2 ^ 32 - 1) := Nat.mul_le_mul_right _ hlen
      omega
    refine ⟨?_, hw, hl2, hr2⟩
    change (tl.weight + tr.weight).toNat = _
    rw [hw, hl1, hr1, freqs_append, List.sum_append]

/-! ## The arena layout -/

theorem postorder_length (t : Tree) (base : Nat) : (t.postorder base).length = t.size := by
  induction t generalizing base with
  | leaf => rfl
  | internal l r w ihl ihr => simp [Tree.postorder, Tree.size, ihl, ihr]; omega

theorem size_pos (t : Tree) : 0 < t.size := by cases t <;> simp [Tree.size]

/-- A tree laid out from `base` is denoted by its last node, and every child comes before its parent. -/
theorem postorder_denotes (nodeOf : Nat → Node) (t : Tree) : ∀ base, base + t.size ≤ Config.nodeMax →
    (∀ j (h : j < t.size), nodeOf (base + j) = (t.postorder base)[j]'(by rw [postorder_length]; exact h)) →
    DenotesTree nodeOf (base + t.size - 1) t ∧
    ∀ j, j < t.size → (nodeOf (base + j)).tag = false →
      base ≤ (nodeOf (base + j)).left.toNat ∧ (nodeOf (base + j)).left.toNat < base + j ∧
      base ≤ (nodeOf (base + j)).right.toNat ∧ (nodeOf (base + j)).right.toNat < base + j := by
  induction t with
  | leaf v w =>
    intro base hb hn
    have h0 := hn 0 (by simp [Tree.size])
    simp only [Nat.add_zero, Tree.postorder, List.getElem_cons_zero] at h0
    refine ⟨?_, ?_⟩
    · have := DenotesTree.leaf (nodeOf := nodeOf) (i := base) (by simp only [Tree.size] at hb; omega) (by rw [h0]; rfl)
      rw [h0] at this
      simpa [Tree.size, leafNode] using this
    · intro j hj htag
      have : j = 0 := by simp only [Tree.size] at hj; omega
      subst this
      rw [Nat.add_zero, h0] at htag; simp [leafNode] at htag
  | internal l r w ihl ihr =>
    intro base hb hn
    simp only [Tree.size] at hb hn ⊢
    have hl := size_pos l
    have hr := size_pos r
    have hN : Config.nodeMax = 511 := rfl
    have nl : ∀ j (h : j < l.size), nodeOf (base + j) = (l.postorder base)[j]'(by rw [postorder_length]; exact h) := by
      intro j h
      rw [hn j (by omega)]
      simp only [Tree.postorder]
      rw [List.getElem_append_left (by rw [List.length_append, postorder_length]; omega),
        List.getElem_append_left (by rw [postorder_length]; exact h)]
    have nr : ∀ j (h : j < r.size), nodeOf (base + l.size + j) = (r.postorder (base + l.size))[j]'(by rw [postorder_length]; exact h) := by
      intro j h
      rw [Nat.add_assoc, hn (l.size + j) (by omega)]
      simp only [Tree.postorder]
      rw [List.getElem_append_left (by rw [List.length_append, postorder_length, postorder_length]; omega),
        List.getElem_append_right (by rw [postorder_length]; omega)]
      congr 1; rw [postorder_length]; omega
    have nroot : nodeOf (base + l.size + r.size) = internalNode (base + l.size - 1) (base + l.size + r.size - 1) w := by
      have e : base + l.size + r.size = base + (l.size + r.size) := Nat.add_assoc _ _ _
      have h := hn (l.size + r.size) (by omega)
      rw [e, h]
      simp only [Tree.postorder]
      rw [List.getElem_append_right (by rw [List.length_append, postorder_length, postorder_length])]
      simp [Nat.add_assoc]
    obtain ⟨dl, cl⟩ := ihl base (by omega) nl
    obtain ⟨dr, cr⟩ := ihr (base + l.size) (by omega) nr
    have eleft : (nodeOf (base + l.size + r.size)).left.toNat = base + l.size - 1 := by
      rw [nroot]; simp only [internalNode, BitVec.toNat_ofNat]; omega
    have eright : (nodeOf (base + l.size + r.size)).right.toNat = base + l.size + r.size - 1 := by
      rw [nroot]; simp only [internalNode, BitVec.toNat_ofNat]; omega
    refine ⟨?_, ?_⟩
    · rw [show base + (l.size + r.size + 1) - 1 = base + l.size + r.size by omega]
      have := DenotesTree.internal (nodeOf := nodeOf) (i := base + l.size + r.size) (l := l) (r := r) (by omega)
        (by rw [nroot]; rfl) (by rw [eleft]; exact dl) (by rw [eright]; exact dr)
      rw [nroot] at this; exact this
    · intro j hj htag
      by_cases h1 : j < l.size
      · exact cl j h1 htag
      · by_cases h2 : j < l.size + r.size
        · obtain ⟨j', rfl⟩ : ∃ j', j = l.size + j' := ⟨j - l.size, by omega⟩
          rw [← Nat.add_assoc] at htag ⊢
          have := cr j' (by omega) htag
          omega
        · have : j = l.size + r.size := by omega
          subst this
          rw [← Nat.add_assoc, eleft, eright]; omega

end Sys2Proof.Machine
end

