-- ==== Sys2Proof/Laws/TreeCheck.lean ====
section
/-! SUPPORT. Trees in the arena: an index denotes at most one tree, sizes and depths, and what the loop of `TreeCheck`
(spec/43_codes_and_tree_check.md R181) accepts and reports. -/

namespace Sys2Proof.Machine

/-! ## Trees as values -/

theorem symbols_ne_nil (t : Tree) : t.symbols ≠ [] := by
  induction t with
  | leaf v w => simp [Tree.symbols]
  | internal l r w ihl _ => simp [Tree.symbols, ihl]

theorem symbols_length_pos (t : Tree) : 0 < t.symbols.length := List.length_pos_iff.2 (symbols_ne_nil t)

/-- A tree with `n` leaves has `2n - 1` nodes. -/
theorem size_eq (t : Tree) : t.size + 1 = 2 * t.symbols.length := by
  induction t with
  | leaf v w => rfl
  | internal l r w ihl ihr => simp only [Tree.size, Tree.symbols, List.length_append]; omega

/-- A tree with `n` leaves has depth at most `n - 1`. -/
theorem depth_lt (t : Tree) : t.depth < t.symbols.length := by
  induction t with
  | leaf v w => simp [Tree.depth, Tree.symbols]
  | internal l r w ihl ihr =>
    have := symbols_length_pos l
    have := symbols_length_pos r
    simp only [Tree.depth, Tree.symbols, List.length_append]; omega

/-- Distinct bytes: at most 256 of them. -/
theorem nodup_bytes_length {l : List Byte} (h : l.Nodup) : l.length ≤ 256 := by
  have h' : (l.map BitVec.toNat).Nodup := h.map fun a b e => BitVec.eq_of_toNat_eq e
  have : (l.map BitVec.toNat) ⊆ List.range 256 := by
    intro x hx
    obtain ⟨b, -, rfl⟩ := List.mem_map.1 hx
    exact List.mem_range.2 b.isLt
  have := (h'.subperm this).length_le
  simpa using this

theorem mem_paths_symbol {t : Tree} {v : Byte} {p : List Bool} (h : (v, p) ∈ t.paths) : v ∈ t.symbols := by
  induction t generalizing p with
  | leaf u w => simp [Tree.paths] at h; simp [Tree.symbols, h.1]
  | internal l r w ihl ihr =>
    simp only [Tree.paths, List.mem_append, List.mem_map, Prod.mk.injEq] at h
    simp only [Tree.symbols, List.mem_append]
    rcases h with ⟨⟨u, q⟩, hm, rfl, -⟩ | ⟨⟨u, q⟩, hm, rfl, -⟩
    · exact .inl (ihl hm)
    · exact .inr (ihr hm)

theorem paths_symbols (t : Tree) : t.paths.map Prod.fst = t.symbols := by
  induction t with
  | leaf v w => rfl
  | internal l r w ihl ihr =>
    simp only [Tree.paths, Tree.symbols, List.map_append, List.map_map, ← ihl, ← ihr]
    rfl

/-! ## Denotation -/

theorem DenotesTree.range {nodeOf : Nat → Node} {i : Nat} {t : Tree} (h : DenotesTree nodeOf i t) : i < Config.nodeMax := by
  cases h <;> assumption

/-- An arena index denotes at most one tree. -/
theorem DenotesTree.unique {nodeOf : Nat → Node} {i : Nat} {t t' : Tree} (h : DenotesTree nodeOf i t)
    (h' : DenotesTree nodeOf i t') : t = t' := by
  induction h generalizing t' with
  | leaf _ tag =>
    cases h' with
    | leaf => rfl
    | internal _ tag' => rw [tag] at tag'; cases tag'
  | internal _ tag _ _ ihl ihr =>
    cases h' with
    | leaf _ tag' => rw [tag] at tag'; cases tag'
    | internal _ _ hl hr => rw [ihl hl, ihr hr]

/-- Denotation looks only at the arena below `NODE_MAX`. -/
theorem DenotesTree.congr {nodeOf nodeOf' : Nat → Node} {i : Nat} {t : Tree} (h : DenotesTree nodeOf i t)
    (e : ∀ i, i < Config.nodeMax → nodeOf' i = nodeOf i) : DenotesTree nodeOf' i t := by
  induction h with
  | leaf range tag =>
    have := DenotesTree.leaf (nodeOf := nodeOf') range (by rw [e _ range]; exact tag)
    rwa [e _ range] at this
  | internal range tag _ _ ihl ihr =>
    have := DenotesTree.internal (nodeOf := nodeOf') range (by rw [e _ range]; exact tag)
      (by rw [e _ range]; exact ihl) (by rw [e _ range]; exact ihr)
    rwa [e _ range] at this

/-- A tree with the arena indices of its nodes, in pre-order. -/
inductive Spans (nodeOf : Nat → Node) : Nat → Tree → List Nat → Prop where
  | leaf {i : Nat} (range : i < Config.nodeMax) (tag : (nodeOf i).tag = true) :
      Spans nodeOf i (.leaf (nodeOf i).sym (nodeOf i).weight) [i]
  | internal {i : Nat} {l r : Tree} {li ri : List Nat} (range : i < Config.nodeMax) (tag : (nodeOf i).tag = false)
      (left : Spans nodeOf (nodeOf i).left.toNat l li) (right : Spans nodeOf (nodeOf i).right.toNat r ri) :
      Spans nodeOf i (.internal l r (nodeOf i).weight) (i :: (li ++ ri))

theorem DenotesTree.spans {nodeOf : Nat → Node} {i : Nat} {t : Tree} (h : DenotesTree nodeOf i t) :
    ∃ idxs, Spans nodeOf i t idxs := by
  induction h with
  | leaf range tag => exact ⟨_, .leaf range tag⟩
  | internal range tag _ _ ihl ihr =>
    obtain ⟨li, hl⟩ := ihl
    obtain ⟨ri, hr⟩ := ihr
    exact ⟨_, .internal range tag hl hr⟩

theorem Spans.denotes {nodeOf : Nat → Node} {i : Nat} {t : Tree} {idxs : List Nat} (h : Spans nodeOf i t idxs) :
    DenotesTree nodeOf i t := by
  induction h with
  | leaf range tag => exact .leaf range tag
  | internal range tag _ _ ihl ihr => exact .internal range tag ihl ihr

theorem Spans.mem_lt {nodeOf : Nat → Node} {i : Nat} {t : Tree} {idxs : List Nat} (h : Spans nodeOf i t idxs) :
    ∀ j ∈ idxs, j < Config.nodeMax := by
  induction h with
  | leaf range tag => intro j hj; simp at hj; omega
  | internal range tag _ _ ihl ihr =>
    intro j hj
    simp only [List.mem_cons, List.mem_append] at hj
    rcases hj with rfl | hj | hj
    · exact range
    · exact ihl j hj
    · exact ihr j hj

theorem Spans.length_eq {nodeOf : Nat → Node} {i : Nat} {t : Tree} {idxs : List Nat} (h : Spans nodeOf i t idxs) :
    idxs.length = t.size := by
  induction h with
  | leaf => rfl
  | internal _ _ _ _ ihl ihr => simp only [List.length_cons, List.length_append, Tree.size]; omega

/-- Every index of a tree denotes a tree that is no larger and has no other leaf symbols. -/
theorem Spans.subtree {nodeOf : Nat → Node} {i : Nat} {t : Tree} {idxs : List Nat} (h : Spans nodeOf i t idxs) :
    ∀ j ∈ idxs, ∃ u, DenotesTree nodeOf j u ∧ u.size ≤ t.size ∧ ∀ v ∈ u.symbols, v ∈ t.symbols := by
  induction h with
  | leaf range tag =>
    intro j hj
    simp only [List.mem_singleton] at hj
    subst hj
    exact ⟨_, .leaf range tag, Nat.le_refl _, fun _ hv => hv⟩
  | internal range tag hl hr ihl ihr =>
    intro j hj
    simp only [List.mem_cons, List.mem_append] at hj
    simp only [Tree.size, Tree.symbols, List.mem_append]
    rcases hj with rfl | hj | hj
    · exact ⟨_, .internal range tag hl.denotes hr.denotes, Nat.le_refl _, fun v hv => by simpa [Tree.symbols] using hv⟩
    · obtain ⟨u, hu, hs, hv⟩ := ihl j hj
      exact ⟨u, hu, by omega, fun v h => .inl (hv v h)⟩
    · obtain ⟨u, hu, hs, hv⟩ := ihr j hj
      exact ⟨u, hu, by omega, fun v h => .inr (hv v h)⟩

/-- With distinct leaf symbols no arena index is used twice. -/
theorem Spans.nodup {nodeOf : Nat → Node} {i : Nat} {t : Tree} {idxs : List Nat} (h : Spans nodeOf i t idxs)
    (hs : t.symbols.Nodup) : idxs.Nodup := by
  induction h with
  | leaf => simp
  | @internal i l r li ri range tag hl hr ihl ihr =>
    rw [Tree.symbols, List.nodup_append'] at hs
    have whole := DenotesTree.internal range tag hl.denotes hr.denotes
    rw [List.nodup_cons, List.nodup_append']
    refine ⟨?_, ihl hs.1, ihr hs.2.1, ?_⟩
    · intro hi
      have : ∃ u, DenotesTree nodeOf i u ∧ u.size ≤ max l.size r.size := by
        rcases List.mem_append.1 hi with hi | hi
        · obtain ⟨u, hu, hsz, -⟩ := hl.subtree i hi; exact ⟨u, hu, by omega⟩
        · obtain ⟨u, hu, hsz, -⟩ := hr.subtree i hi; exact ⟨u, hu, by omega⟩
      obtain ⟨u, hu, hsz⟩ := this
      rw [← whole.unique hu] at hsz
      simp only [Tree.size] at hsz; omega
    · intro j hjl hjr
      obtain ⟨u, hu, -, hul⟩ := hl.subtree j hjl
      obtain ⟨u', hu', -, hur⟩ := hr.subtree j hjr
      rw [← hu.unique hu'] at hur
      obtain ⟨v, hv⟩ := List.exists_mem_of_ne_nil _ (symbols_ne_nil u)
      exact hs.2.2 (hul v hv) (hur v hv)

/-! ## The loop -/

/-- What a stack of the loop accepts: a tree for every index, all leaf symbols distinct and new. -/
def Accepts (nodeOf : Nat → Node) (stack : List Nat) (seen : List Byte) : Prop :=
  ∃ trees : List Tree, List.Forall₂ (DenotesTree nodeOf) stack trees ∧ (trees.flatMap Tree.symbols).Nodup ∧
    ∀ v ∈ trees.flatMap Tree.symbols, v ∉ seen

theorem treeCheckLoop_sound {nodeOf : Nat → Node} {fuel : Nat} {stack visited : List Nat} {seen : List Byte}
    (hr : ∀ j ∈ stack, j < Config.nodeMax) (h : treeCheckLoop nodeOf fuel stack visited seen = .ok) :
    Accepts nodeOf stack seen := by
  induction fuel generalizing stack visited seen with
  | zero =>
    cases stack with
    | nil => exact ⟨[], .nil, by simp, by simp⟩
    | cons i stack => simp [treeCheckLoop] at h
  | succ fuel ih =>
    cases stack with
    | nil => exact ⟨[], .nil, by simp, by simp⟩
    | cons i stack =>
      simp only [treeCheckLoop] at h
      split at h
      · cases h
      · split at h
        · next htag =>
          split at h
          · cases h
          · next hseen =>
            obtain ⟨trees, ht, hn, hd⟩ := ih (fun j hj => hr j (List.mem_cons_of_mem _ hj)) h
            refine ⟨_ :: trees, .cons (.leaf (hr i (by simp)) htag) ht, ?_, ?_⟩
            · simp only [List.flatMap_cons, Tree.symbols, List.singleton_append, List.nodup_cons]
              exact ⟨fun hm => hd _ hm (by simp), hn⟩
            · intro v hv
              simp only [List.flatMap_cons, Tree.symbols, List.singleton_append, List.mem_cons] at hv
              rcases hv with rfl | hv
              · exact hseen
              · exact fun hs => hd v hv (List.mem_cons_of_mem _ hs)
        · next htag =>
          split at h
          · cases h
          · next hlr =>
            rw [not_or, Nat.not_le, Nat.not_le] at hlr
            obtain ⟨trees, ht, hn, hd⟩ := ih (by
              intro j hj
              simp only [List.mem_cons] at hj
              rcases hj with rfl | rfl | hj
              · exact hlr.1
              · exact hlr.2
              · exact hr j (List.mem_cons_of_mem _ hj)) h
            cases ht with
            | cons hl ht =>
              cases ht with
              | cons hr' ht =>
                refine ⟨_ :: _, .cons (.internal (hr i (by simp)) (by simpa using htag) hl hr') ht, ?_, ?_⟩
                · simpa [List.flatMap_cons, Tree.symbols] using hn
                · simpa [List.flatMap_cons, Tree.symbols] using hd

/-- The stack with the trees and the indices below each of its entries. -/
inductive StackSpans (nodeOf : Nat → Node) : List Nat → List Byte → List Nat → Prop where
  | nil : StackSpans nodeOf [] [] []
  | cons {i : Nat} {t : Tree} {idxs stack idxs' : List Nat} {syms : List Byte} (head : Spans nodeOf i t idxs)
      (tail : StackSpans nodeOf stack syms idxs') : StackSpans nodeOf (i :: stack) (t.symbols ++ syms) (idxs ++ idxs')

theorem treeCheckLoop_complete {nodeOf : Nat → Node} {fuel : Nat} {stack visited idxs : List Nat} {seen syms : List Byte}
    (h : StackSpans nodeOf stack syms idxs) (hn : syms.Nodup) (hs : ∀ v ∈ syms, v ∉ seen) (hi : idxs.Nodup)
    (hv : ∀ j ∈ idxs, j ∉ visited) (hf : idxs.length ≤ fuel) :
    treeCheckLoop nodeOf fuel stack visited seen = .ok := by
  induction fuel generalizing stack visited idxs seen syms with
  | zero =>
    cases h with
    | nil => rfl
    | cons head tail => cases head <;> simp at hf
  | succ fuel ih =>
    cases h with
    | nil => rfl
    | @cons i t idxs stack idxs' syms head tail =>
      cases head with
      | leaf range tag =>
        simp only [List.singleton_append, List.nodup_cons, List.length_cons, Tree.symbols, List.mem_cons, forall_eq_or_imp] at *
        simp only [treeCheckLoop, hv.1, tag, hs.1, if_true, if_false]
        refine ih tail hn.2 ?_ hi.2 ?_ (by omega)
        · intro v hm
          simp only [List.mem_cons, not_or]
          exact ⟨fun e => hn.1 (e ▸ hm), hs.2 v hm⟩
        · intro j hj
          simp only [List.mem_cons, not_or]
          exact ⟨fun e => hi.1 (e ▸ hj), hv.2 j hj⟩
      | @internal _ l r li ri range tag hl hr =>
        simp only [List.cons_append, List.nodup_cons, List.length_cons, Tree.symbols, List.mem_cons, forall_eq_or_imp] at *
        have h1 : ¬ Config.nodeMax ≤ (nodeOf i).left.toNat := Nat.not_le.2 hl.denotes.range
        have h2 : ¬ Config.nodeMax ≤ (nodeOf i).right.toNat := Nat.not_le.2 hr.denotes.range
        simp only [treeCheckLoop, hv.1, tag, h1, h2, or_self, if_false, Bool.false_eq_true]
        have st := StackSpans.cons hl (StackSpans.cons hr tail)
        rw [← List.append_assoc, ← List.append_assoc] at st
        refine ih st hn hs hi.2 ?_ (by omega)
        intro j hj
        simp only [List.mem_cons, not_or]
        exact ⟨fun e => hi.1 (e ▸ hj), hv.2 j hj⟩

/-- A rejection by the loop names an index of the arena. -/
theorem treeCheckLoop_info {nodeOf : Nat → Node} {fuel : Nat} {stack visited : List Nat} {seen : List Byte} {info : Word}
    (hr : ∀ j ∈ stack, j < Config.nodeMax) (h : treeCheckLoop nodeOf fuel stack visited seen = .bad info) :
    info.toNat < Config.nodeMax := by
  have small : ∀ i, i < Config.nodeMax → (BitVec.ofNat 32 i).toNat < Config.nodeMax := by
    intro i hi; simp only [BitVec.toNat_ofNat]; exact Nat.lt_of_le_of_lt (Nat.mod_le _ _) hi
  induction fuel generalizing stack visited seen with
  | zero =>
    cases stack with
    | nil => simp [treeCheckLoop] at h
    | cons i stack => simp only [treeCheckLoop, TreeVerdict.bad.injEq] at h; subst h; exact small i (hr i (by simp))
  | succ fuel ih =>
    cases stack with
    | nil => simp [treeCheckLoop] at h
    | cons i stack =>
      have hi := small i (hr i (by simp))
      have tail : ∀ j ∈ stack, j < Config.nodeMax := fun j hj => hr j (List.mem_cons_of_mem _ hj)
      simp only [treeCheckLoop] at h
      split at h
      · cases h; exact hi
      · split at h
        · split at h
          · cases h; exact hi
          · exact ih tail h
        · split at h
          · cases h; exact hi
          · next hlr =>
            rw [not_or, Nat.not_le, Nat.not_le] at hlr
            refine ih ?_ h
            intro j hj
            simp only [List.mem_cons] at hj
            rcases hj with rfl | rfl | hj
            · exact hlr.1
            · exact hlr.2
            · exact tail j hj

/-- `TreeCheck` accepts a held tree. -/
theorem treeCheck_of_holds {s : State} {t : Tree} (h : s.HoldsTree t) : treeCheck s = .ok := by
  obtain ⟨hv, hd, hn⟩ := h
  obtain ⟨idxs, hs⟩ := hd.spans
  have hle : idxs.length ≤ Config.nodeMax := by
    have := ((hs.nodup hn).subperm fun j hj => List.mem_range.2 (hs.mem_lt j hj)).length_le
    simpa using this
  simp only [treeCheck, hv, Bool.not_true, Bool.false_eq_true, if_false, Nat.not_le.2 hd.range]
  have st := StackSpans.cons hs .nil
  simp only [List.append_nil] at st
  exact treeCheckLoop_complete st hn (by simp) (hs.nodup hn) (by simp) (by omega)

/-- What `TreeCheck` accepts is a held tree. -/
theorem holds_of_treeCheck {s : State} (h : treeCheck s = .ok) : ∃ t, s.HoldsTree t := by
  unfold treeCheck at h
  split at h
  · cases h
  · next hv =>
    split at h
    · cases h
    · next hr =>
      obtain ⟨trees, ht, hn, -⟩ := treeCheckLoop_sound (by simpa using hr) h
      cases ht with
      | cons hd ht =>
        cases ht
        exact ⟨_, by simpa using hv, hd, by simpa using hn⟩

/-- A rejected tree is not held. -/
theorem not_holds_of_bad {s : State} {info : Word} (h : treeCheck s = .bad info) (t : Tree) : ¬ s.HoldsTree t := by
  intro ht; rw [treeCheck_of_holds ht] at h; cases h

/-- A held tree is unique. -/
theorem State.HoldsTree.unique {s : State} {t t' : Tree} (h : s.HoldsTree t) (h' : s.HoldsTree t') : t = t' :=
  h.2.1.unique h'.2.1

/-- `TreeCheck` looks only at `ROOT` and the arena. -/
theorem treeCheck_congr {s s' : State} (hv : s'.rootValid = s.rootValid) (hi : s'.rootIdx = s.rootIdx)
    (hn : nodeAt s' = nodeAt s) : treeCheck s' = treeCheck s := by
  simp only [treeCheck, hv, hi, hn]

end Sys2Proof.Machine
end

