-- ==== Sys2Proof/Laws/Huffman.lean ====
section
/-! SUPPORT. The Huffman builder: the priority structure is a sorted rearrangement, and what the merges make of it
(spec/42_build_huf.md R162, R163, R166). -/

namespace Sys2Proof.Machine

/-! ## The priority structure -/

theorem enqueue_perm (e : QEntry) (q : List QEntry) : (enqueue e q).Perm (e :: q) := by
  induction q with
  | nil => exact List.Perm.refl _
  | cons x q ih =>
    simp only [enqueue]
    split
    · exact List.Perm.refl _
    · exact (List.Perm.cons x ih).trans (List.Perm.swap e x q)

theorem enqueue_length (e : QEntry) (q : List QEntry) : (enqueue e q).length = q.length + 1 := (enqueue_perm e q).length_eq

theorem lower_iff (a b : QEntry) :
    a.lower b = true ↔ a.weight.toNat < b.weight.toNat ∨ (a.weight = b.weight ∧ a.idx < b.idx) := by
  simp [QEntry.lower]

theorem lower_trans {a b c : QEntry} (h : a.lower b = true) (h' : b.lower c = true) : a.lower c = true := by
  rw [lower_iff] at *
  rcases h with h | ⟨e, h⟩ <;> rcases h' with h' | ⟨e', h'⟩
  · left; omega
  · left; rw [← e']; exact h
  · left; rw [e]; exact h'
  · right; exact ⟨e.trans e', by omega⟩

theorem lower_total {a b : QEntry} (hs : a.idx ≠ b.idx) (h : ¬ a.lower b = true) : b.lower a = true := by
  rw [lower_iff] at *
  by_cases hf : a.weight = b.weight
  · right; exact ⟨hf.symm, by have : ¬ a.idx < b.idx := fun hl => h (Or.inr ⟨hf, hl⟩); omega⟩
  · have : a.weight.toNat ≠ b.weight.toNat := fun e => hf (BitVec.eq_of_toNat_eq e)
    left; have : ¬ a.weight.toNat < b.weight.toNat := fun hl => h (Or.inl hl); omega

theorem lower_weight {a b : QEntry} (h : a.lower b = true) : a.weight.toNat ≤ b.weight.toNat := by
  rw [lower_iff] at h; rcases h with h | ⟨e, -⟩
  · omega
  · rw [e]

theorem enqueue_sorted {e : QEntry} {q : List QEntry} (he : ∀ x ∈ q, e.idx ≠ x.idx)
    (h : q.Pairwise fun a b => a.lower b = true) : (enqueue e q).Pairwise fun a b => a.lower b = true := by
  induction q with
  | nil => exact List.pairwise_singleton _ _
  | cons x q ih =>
    rw [List.pairwise_cons] at h
    simp only [enqueue]
    split
    · next hb =>
      refine List.Pairwise.cons ?_ (List.Pairwise.cons h.1 h.2)
      intro z hz
      cases hz with
      | head => exact hb
      | tail _ hz => exact lower_trans hb (h.1 z hz)
    · next hb =>
      refine List.Pairwise.cons ?_ (ih (fun z hz => he z (List.mem_cons_of_mem _ hz)) h.2)
      intro z hz
      rcases List.mem_cons.1 ((enqueue_perm e q).subset hz) with rfl | hz
      · exact lower_total (he x (by simp)) hb
      · exact h.1 z hz

/-- The structure's entry of a leaf. -/
def leafEntry (i : Nat) (x : Item) : QEntry := { weight := x.freq.setWidth 40, idx := i }

theorem leafQueue_perm (items : List Item) : ∀ base,
    (leafQueue base items).Perm (items.zipIdx base |>.map fun p => leafEntry p.2 p.1) := by
  induction items with
  | nil => intro _; exact List.Perm.refl _
  | cons x xs ih =>
    intro base
    simp only [leafQueue, List.zipIdx_cons, List.map_cons]
    exact (enqueue_perm _ _).trans ((ih (base + 1)).cons _)

theorem mem_leafQueue {items : List Item} {base : Nat} {e : QEntry} :
    e ∈ leafQueue base items ↔ ∃ j x, items[j]? = some x ∧ e = leafEntry (base + j) x := by
  rw [(leafQueue_perm items base).mem_iff, List.mem_map]
  constructor
  · rintro ⟨⟨x, i⟩, hm, rfl⟩
    rw [List.mk_mem_zipIdx_iff_le_and_getElem?_sub] at hm
    exact ⟨i - base, x, hm.2, by rw [show base + (i - base) = i by omega]⟩
  · rintro ⟨j, x, hj, rfl⟩
    refine ⟨(x, base + j), ?_, rfl⟩
    rw [List.mk_mem_zipIdx_iff_le_and_getElem?_sub]
    exact ⟨by omega, by rw [show base + j - base = j by omega]; exact hj⟩

theorem leafQueue_length (items : List Item) (base : Nat) : (leafQueue base items).length = items.length := by
  rw [(leafQueue_perm items base).length_eq]; simp

theorem leafQueue_sorted (items : List Item) (base : Nat) :
    (leafQueue base items).Pairwise fun a b => a.lower b = true := by
  induction items generalizing base with
  | nil => exact List.Pairwise.nil
  | cons x xs ih =>
    refine enqueue_sorted ?_ (ih (base + 1))
    intro e he
    obtain ⟨j, y, -, rfl⟩ := mem_leafQueue.1 he
    simp only [leafEntry]; omega

/-! ## The merges -/

theorem mergeNodes_length (fuel : Nat) (q : List QEntry) (next : Nat) (hf : q.length ≤ fuel) :
    (mergeNodes fuel q next).length = q.length - 1 := by
  induction fuel generalizing q next with
  | zero =>
    have : q = [] := List.length_eq_zero_iff.1 (by omega)
    subst this; rfl
  | succ fuel ih =>
    match q with
    | [] => rfl
    | [a] => rfl
    | a :: b :: q =>
      simp only [mergeNodes, List.length_cons] at hf ⊢
      rw [ih _ _ (by rw [enqueue_length]; omega), enqueue_length]; omega

/-- What the priority structure is while node `k` is being made: sorted, its entries exactly the unmerged nodes, each with its
node's weight and the tree it denotes, all leaves and the whole weight accounted for. -/
structure QueueInv (nodeOf : Nat → Node) (n k : Nat) (q : List QEntry) (syms : List Byte) (total : Nat) (T : Nat → Tree) :
    Prop where
  sorted  : q.Pairwise fun a b => a.lower b = true
  member  : ∀ c, (∃ e ∈ q, e.idx = c) ↔ Unmerged nodeOf n k c
  weight  : ∀ e ∈ q, (nodeOf e.idx).weight = e.weight
  denotes : ∀ e ∈ q, DenotesTree nodeOf e.idx (T e.idx) ∧ (T e.idx).WeightsAdd ∧ (T e.idx).weight = e.weight
  leaves  : (q.flatMap fun e => (T e.idx).symbols).Perm syms
  whole   : (q.map fun e => e.weight.toNat).sum = total
  below   : ∀ j, n ≤ j → j < k → (nodeOf j).left.toNat < j ∧ (nodeOf j).right.toNat < j

/-- One merge (R163): what the node made at `k` is, and the structure afterwards. -/
theorem QueueInv.merge {nodeOf : Nat → Node} {n k : Nat} {a b : QEntry} {q : List QEntry} {syms : List Byte} {total : Nat}
    {T : Nat → Tree} (h : QueueInv nodeOf n k (a :: b :: q) syms total T) (hk : k < Config.nodeMax) (hn : n ≤ k)
    (ht : total < 2 ^ 40) (hnode : nodeOf k = internalNode a.idx b.idx (a.weight + b.weight)) :
    (Unmerged nodeOf n k a.idx ∧ Unmerged nodeOf n k b.idx ∧ LowerNode nodeOf a.idx b.idx ∧
      ∀ c, Unmerged nodeOf n k c → c ≠ a.idx → c ≠ b.idx → LowerNode nodeOf b.idx c) ∧
    (a.weight + b.weight).toNat = a.weight.toNat + b.weight.toNat ∧
    ∃ T', QueueInv nodeOf n (k + 1) (enqueue { weight := a.weight + b.weight, idx := k } q) syms total T' := by
  have hs := h.sorted
  rw [List.pairwise_cons, List.pairwise_cons] at hs
  have ua : Unmerged nodeOf n k a.idx := (h.member _).1 ⟨a, by simp, rfl⟩
  have ub : Unmerged nodeOf n k b.idx := (h.member _).1 ⟨b, by simp, rfl⟩
  have wa := h.weight a (by simp)
  have wb := h.weight b (by simp)
  have lowerNode : ∀ x y : QEntry, x.lower y = true → (nodeOf x.idx).weight = x.weight → (nodeOf y.idx).weight = y.weight →
      LowerNode nodeOf x.idx y.idx := by
    intro x y hl hx hy
    rw [lower_iff] at hl
    rw [LowerNode, hx, hy]; exact hl
  have hab : a.idx ≠ b.idx := by
    intro e
    have := lowerNode a b (hs.1 b (by simp)) wa wb
    rw [LowerNode, e] at this; rcases this with h | ⟨-, h⟩ <;> omega
  have idx_q : ∀ e ∈ q, e.idx ≠ a.idx ∧ e.idx ≠ b.idx := by
    intro e he
    have we := h.weight e (by simp [he])
    refine ⟨fun hi => ?_, fun hi => ?_⟩
    · have := lowerNode a e (hs.1 e (by simp [he])) wa we
      rw [LowerNode, hi] at this; rcases this with h | ⟨-, h⟩ <;> omega
    · have := lowerNode b e (hs.2.1 e he) wb we
      rw [LowerNode, hi] at this; rcases this with h | ⟨-, h⟩ <;> omega
  have hN : Config.nodeMax = 511 := rfl
  have left : (nodeOf k).left.toNat = a.idx := by
    rw [hnode]; simp only [internalNode, BitVec.toNat_ofNat]; have := ua.1; omega
  have right : (nodeOf k).right.toNat = b.idx := by
    rw [hnode]; simp only [internalNode, BitVec.toNat_ofNat]; have := ub.1; omega
  have hsum : (a.weight + b.weight).toNat = a.weight.toNat + b.weight.toNat := by
    have := h.whole
    simp only [List.map_cons, List.sum_cons] at this
    rw [BitVec.toNat_add, Nat.mod_eq_of_lt]; omega
  refine ⟨⟨ua, ub, lowerNode a b (hs.1 b (by simp)) wa wb, ?_⟩, hsum, ?_⟩
  · intro c hc hca hcb
    obtain ⟨e, he, rfl⟩ := (h.member c).2 hc
    simp only [List.mem_cons] at he
    rcases he with rfl | rfl | he
    · exact absurd rfl hca
    · exact absurd rfl hcb
    · exact lowerNode b e (hs.2.1 e he) wb (h.weight e (by simp [he]))
  · have fresh : ∀ e ∈ a :: b :: q, e.idx ≠ k := by
      intro e he hk
      have := (h.member e.idx).1 ⟨e, he, rfl⟩
      have := this.1; omega
    refine ⟨fun i => if i = k then .internal (T a.idx) (T b.idx) (a.weight + b.weight) else T i, ?_, ?_, ?_, ?_, ?_, ?_, ?_⟩
    · exact enqueue_sorted (fun x hx e => fresh x (by simp [hx]) e.symm) hs.2.2
    · intro c
      simp only [(enqueue_perm _ q).mem_iff, List.mem_cons, exists_eq_or_imp]
      constructor
      · rintro (rfl | ⟨e, he, rfl⟩)
        · refine ⟨by omega, fun j hj1 hj2 => ?_⟩
          by_cases hjk : j = k
          · subst hjk; rw [left, right]; have := ua.1; have := ub.1; omega
          · have := h.below j hj1 (by omega); omega
        · have hu := (h.member e.idx).1 ⟨e, by simp [he], rfl⟩
          refine ⟨by have := hu.1; omega, fun j hj1 hj2 => ?_⟩
          by_cases hjk : j = k
          · subst hjk; rw [left, right]
            have := idx_q e he
            exact ⟨Ne.symm this.1, Ne.symm this.2⟩
          · exact hu.2 j hj1 (by omega)
      · rintro ⟨hc, hu⟩
        by_cases hck : c = k
        · exact .inl hck.symm
        · right
          obtain ⟨e, he, rfl⟩ := (h.member c).2 ⟨by omega, fun j h1 h2 => hu j h1 (by omega)⟩
          have hkk := hu k hn (by omega)
          rw [left, right] at hkk
          simp only [List.mem_cons] at he
          rcases he with rfl | rfl | he
          · exact absurd rfl hkk.1
          · exact absurd rfl hkk.2
          · exact ⟨e, he, rfl⟩
    · intro e he
      rcases List.mem_cons.1 ((enqueue_perm _ q).subset he) with rfl | he
      · rw [hnode]; rfl
      · exact h.weight e (by simp [he])
    · intro e he
      rcases List.mem_cons.1 ((enqueue_perm _ q).subset he) with rfl | he
      · simp only [if_true]
        have da := h.denotes a (by simp)
        have db := h.denotes b (by simp)
        refine ⟨?_, ⟨?_, da.2.1, db.2.1⟩, rfl⟩
        · have := DenotesTree.internal (nodeOf := nodeOf) (i := k) hk (by rw [hnode]; rfl) (by rw [left]; exact da.1)
            (by rw [right]; exact db.1)
          rw [hnode] at this; exact this
        · rw [da.2.2, db.2.2]; exact hsum
      · rw [if_neg (fresh e (by simp [he]))]
        exact h.denotes e (by simp [he])
    · have hq : (q.flatMap fun e => (if e.idx = k then Tree.internal (T a.idx) (T b.idx) (a.weight + b.weight) else T e.idx).symbols) =
          q.flatMap fun e => (T e.idx).symbols := by
        apply List.flatMap_congr
        intro e he
        rw [if_neg (fresh e (by simp [he]))]
      refine ((enqueue_perm _ q).flatMap_right _).trans ?_
      rw [List.flatMap_cons, hq]
      simp only [if_true, Tree.symbols]
      have := h.leaves
      simpa [List.flatMap_cons] using this
    · rw [((enqueue_perm _ q).map _).sum_eq, List.map_cons, List.sum_cons, hsum]
      have := h.whole
      simp only [List.map_cons, List.sum_cons] at this
      omega
    · intro j h1 h2
      by_cases hjk : j = k
      · subst hjk; rw [left, right]; exact ⟨ua.1, ub.1⟩
      · exact h.below j h1 (by omega)

/-- All merges (R163, R166): every node made at `k + j` merges the two lowest nodes, and the last index of all denotes a tree
with all the leaves and the whole weight. -/
theorem QueueInv.merges {nodeOf : Nat → Node} {n : Nat} {syms : List Byte} {total : Nat} (ht : total < 2 ^ 40) :
    ∀ (fuel k : Nat) (q : List QEntry) (T : Nat → Tree), QueueInv nodeOf n k q syms total T → n ≤ k → q ≠ [] →
      q.length ≤ fuel → k + (q.length - 1) ≤ Config.nodeMax → (∀ e, q = [e] → e.idx = k - 1) →
      (∀ j x, (mergeNodes fuel q k)[j]? = some x → nodeOf (k + j) = x) →
      (∀ j, j < q.length - 1 → ∃ a b,
        nodeOf (k + j) = internalNode a b ((nodeOf a).weight + (nodeOf b).weight) ∧
        Unmerged nodeOf n (k + j) a ∧ Unmerged nodeOf n (k + j) b ∧ LowerNode nodeOf a b ∧
        ∀ c, Unmerged nodeOf n (k + j) c → c ≠ a → c ≠ b → LowerNode nodeOf b c) ∧
      ∃ t, DenotesTree nodeOf (k + (q.length - 1) - 1) t ∧ t.WeightsAdd ∧ t.weight.toNat = total ∧ t.symbols.Perm syms := by
  intro fuel
  induction fuel with
  | zero => intro k q T _ _ hq hf; exact absurd (List.length_eq_zero_iff.1 (by omega)) hq
  | succ fuel ih =>
    intro k q T h hn hq hf hN hlast hnodes
    match q, hq with
    | [e], _ =>
      refine ⟨fun j hj => by simp at hj, T e.idx, ?_, ?_, ?_, ?_⟩
      · have := h.denotes e (by simp)
        simp only [List.length_singleton, Nat.sub_self, Nat.add_zero, ← hlast e rfl]; exact this.1
      · exact (h.denotes e (by simp)).2.1
      · rw [(h.denotes e (by simp)).2.2]; simpa using h.whole
      · simpa using h.leaves
    | a :: b :: q, _ =>
      simp only [List.length_cons] at hf hN ⊢
      have hk : nodeOf k = internalNode a.idx b.idx (a.weight + b.weight) := hnodes 0 _ (by simp [mergeNodes])
      obtain ⟨⟨ua, ub, lab, rest⟩, -, T', inv⟩ := h.merge (by omega) hn ht hk
      have wa := h.weight a (by simp)
      have wb := h.weight b (by simp)
      have next := ih (k + 1) _ T' inv (by omega) (by intro e; have := congrArg List.length e; rw [enqueue_length] at this; simp at this)
        (by rw [enqueue_length]; omega) (by rw [enqueue_length]; omega)
        (by
          intro e he
          have hl := congrArg List.length he
          rw [enqueue_length, List.length_singleton] at hl
          have : q = [] := List.length_eq_zero_iff.1 (by omega)
          subst this
          simp only [enqueue, List.cons.injEq, and_true] at he
          rw [← he]; simp)
        (by
          intro j x hj
          rw [show k + 1 + j = k + (j + 1) by omega]
          exact hnodes (j + 1) x (by simpa [mergeNodes] using hj))
      rw [enqueue_length] at next
      refine ⟨fun j hj => ?_, ?_⟩
      · cases j with
        | zero =>
          refine ⟨a.idx, b.idx, ?_, ua, ub, lab, rest⟩
          rw [Nat.add_zero, hk, wa, wb]
        | succ j =>
          obtain h' := next.1 j (by omega)
          rwa [show k + 1 + j = k + (j + 1) by omega] at h'
      · obtain ⟨t, hd, h'⟩ := next.2
        refine ⟨t, ?_, h'⟩
        rwa [show k + 1 + (q.length + 1 - 1) - 1 = k + (q.length + 1 + 1 - 1) - 1 by omega] at hd

/-- Merged weights never decrease (R166 (f)). -/
theorem mergeNodes_weights {total : Nat} (ht : total < 2 ^ 40) : ∀ (fuel k : Nat) (q : List QEntry),
    (q.Pairwise fun a b => a.lower b = true) → (∀ e ∈ q, e.idx < k) → (q.map fun e => e.weight.toNat).sum = total →
    (mergeNodes fuel q k).Pairwise (fun x y => x.weight.toNat ≤ y.weight.toNat) ∧
    ∀ a b r, q = a :: b :: r → ∀ x ∈ mergeNodes fuel q k, a.weight.toNat + b.weight.toNat ≤ x.weight.toNat := by
  intro fuel
  induction fuel with
  | zero => intro k q _ _ _; exact ⟨List.Pairwise.nil, fun _ _ _ _ x hx => by simp [mergeNodes] at hx⟩
  | succ fuel ih =>
    intro k q hs hi hw
    match q with
    | [] => exact ⟨List.Pairwise.nil, fun _ _ _ e => by cases e⟩
    | [a] => exact ⟨List.Pairwise.nil, fun _ _ _ e => by cases e⟩
    | a :: b :: q =>
      have hs' := hs
      rw [List.pairwise_cons, List.pairwise_cons] at hs'
      simp only [List.map_cons, List.sum_cons] at hw
      have hsum : (a.weight + b.weight).toNat = a.weight.toNat + b.weight.toNat := by
        rw [BitVec.toNat_add, Nat.mod_eq_of_lt]; omega
      have hsorted : (enqueue { weight := a.weight + b.weight, idx := k } q).Pairwise fun a b => a.lower b = true :=
        enqueue_sorted (fun x hx e => by have := hi x (by simp [hx]); simp only at e; omega) hs'.2.2
      have hperm := enqueue_perm { weight := a.weight + b.weight, idx := k } q
      obtain ⟨h1, h2⟩ := ih (k + 1) _ hsorted (by
          intro e he
          rcases List.mem_cons.1 (hperm.subset he) with rfl | he
          · simp
          · have := hi e (by simp [he]); omega) (by
          rw [(hperm.map _).sum_eq, List.map_cons, List.sum_cons, hsum]; omega)
      have later : ∀ x ∈ mergeNodes fuel (enqueue { weight := a.weight + b.weight, idx := k } q) (k + 1),
          a.weight.toNat + b.weight.toNat ≤ x.weight.toNat := by
        intro x hx
        generalize hq' : enqueue { weight := a.weight + b.weight, idx := k } q = q' at hx h2 hsorted hperm
        match q' with
        | [] => cases fuel <;> simp [mergeNodes] at hx
        | [e] => cases fuel <;> simp [mergeNodes] at hx
        | e :: f :: r =>
          have hle := h2 e f r rfl x hx
          have big : ∀ y ∈ e :: f :: r, b.weight.toNat ≤ y.weight.toNat := by
            intro y hy
            rcases List.mem_cons.1 (hperm.subset hy) with rfl | hy
            · simp only [hsum]; omega
            · exact lower_weight (hs'.2.1 y hy)
          have := big e (by simp)
          have := big f (by simp)
          have := lower_weight (hs'.1 b (by simp))
          omega
      simp only [mergeNodes]
      refine ⟨List.Pairwise.cons ?_ h1, ?_⟩
      · intro x hx
        have := later x hx
        simp only [internalNode, hsum]; exact this
      · intro a' b' r' e x hx
        simp only [List.cons.injEq] at e
        obtain ⟨rfl, rfl, -⟩ := e
        rcases List.mem_cons.1 hx with rfl | hx
        · simp only [internalNode, hsum]; exact Nat.le_refl _
        · exact later x hx

/-! ## The whole arena -/

theorem huffmanNodes_length (items : List Item) (hne : items ≠ []) : (huffmanNodes items).length = 2 * items.length - 1 := by
  have := List.length_pos_iff.2 hne
  rw [huffmanNodes, List.length_append, leafNodes, List.length_map,
    mergeNodes_length _ _ _ (by rw [leafQueue_length]), leafQueue_length]
  omega

theorem huffmanNodes_leaf {items : List Item} {j : Nat} {x : Item} (h : items[j]? = some x) :
    (huffmanNodes items)[j]? = some (leafNode x.sym (x.freq.setWidth 40)) := by
  have hl : j < items.length := by
    by_contra hc; rw [List.getElem?_eq_none (by omega)] at h; cases h
  rw [huffmanNodes, List.getElem?_append_left (by simpa [leafNodes] using hl), leafNodes, List.getElem?_map, h]; rfl

theorem huffmanNodes_merged (items : List Item) (j : Nat) :
    (huffmanNodes items)[items.length + j]? = (mergeNodes items.length (leafQueue 0 items) items.length)[j]? := by
  rw [huffmanNodes, List.getElem?_append_right (by simp [leafNodes])]
  simp [leafNodes]

/-- The structure when the leaves are in place (R161, R163). -/
theorem queueInv_leaves {nodeOf : Nat → Node} {items : List Item} (hle : items.length ≤ 256)
    (hleaf : ∀ j x, items[j]? = some x → nodeOf j = leafNode x.sym (x.freq.setWidth 40)) :
    QueueInv nodeOf items.length items.length (leafQueue 0 items) (items.map Item.sym) (freqs items).sum
      (fun i => .leaf (nodeOf i).sym (nodeOf i).weight) := by
  have hw : ∀ x : Item, (x.freq.setWidth 40).toNat = x.freq.toNat := by
    intro x
    have := x.freq.isLt
    rw [BitVec.toNat_setWidth, Nat.mod_eq_of_lt (by omega)]
  refine ⟨leafQueue_sorted items 0, ?_, ?_, ?_, ?_, ?_, ?_⟩
  · intro c
    constructor
    · rintro ⟨e, he, rfl⟩
      obtain ⟨j, x, hj, rfl⟩ := mem_leafQueue.1 he
      have : j < items.length := by
        by_contra hc; rw [List.getElem?_eq_none (by omega)] at hj; cases hj
      exact ⟨by simpa [leafEntry] using this, fun j h1 h2 => by omega⟩
    · rintro ⟨hc, -⟩
      exact ⟨_, mem_leafQueue.2 ⟨c, items[c], List.getElem?_eq_getElem hc, rfl⟩, by simp [leafEntry]⟩
  · intro e he
    obtain ⟨j, x, hj, rfl⟩ := mem_leafQueue.1 he
    simp only [leafEntry, Nat.zero_add, hleaf j x hj, leafNode]
  · intro e he
    obtain ⟨j, x, hj, rfl⟩ := mem_leafQueue.1 he
    have hlt : j < items.length := by
      by_contra hc; rw [List.getElem?_eq_none (by omega)] at hj; cases hj
    simp only [leafEntry, Nat.zero_add]
    refine ⟨.leaf ?_ (by rw [hleaf j x hj]; rfl), trivial, by rw [hleaf j x hj]; rfl⟩
    simp only [Config.nodeMax]; omega
  · refine ((leafQueue_perm items 0).flatMap_right _).trans ?_
    rw [List.flatMap_map]
    simp only [Tree.symbols, List.flatMap_singleton']
    have : (items.zipIdx 0).map (fun p => (nodeOf (leafEntry p.2 p.1).idx).sym) = items.map Item.sym := by
      rw [← List.zipIdx_map_fst 0 items, List.map_map, List.zipIdx_map_fst]
      apply List.map_congr_left
      rintro ⟨x, i⟩ hm
      rw [List.mk_mem_zipIdx_iff_getElem?] at hm
      simp only [leafEntry, hleaf i x hm, leafNode, Function.comp_apply]
    rw [← this, List.map_eq_flatMap]
  · rw [((leafQueue_perm items 0).map _).sum_eq, List.map_map]
    have : (items.zipIdx 0).map ((fun e : QEntry => e.weight.toNat) ∘ fun p => leafEntry p.2 p.1) = freqs items := by
      rw [freqs, ← List.zipIdx_map_fst 0 items, List.map_map, List.zipIdx_map_fst]
      apply List.map_congr_left
      rintro ⟨x, i⟩ -
      simp [leafEntry, hw]
    rw [this]
  · intro j h1 h2; omega

end Sys2Proof.Machine
end

