-- ==== Sys2Proof/Laws/Builders.lean ====
section
/-! SUPPORT. What the two builders leave in the arena: the nodes in creation order, the kept entries, the held tree. -/

namespace Sys2Proof.Machine

theorem installTree_nodeAt {s : State} {nodes : List Node} {n i : Nat} (h : i < nodes.length) :
    nodeAt (installTree nodes n s) i = nodes[i] :=
  nodeAt_written (s := s) (t := installTree nodes n s) rfl h

theorem installTree_nodeAt_kept {s : State} {nodes : List Node} {n i : Nat} (h : nodes.length ≤ i) :
    nodeAt (installTree nodes n s) i = nodeAt s i :=
  nodeAt_kept (t := installTree nodes n s) (s := s) (nodes := nodes) rfl rfl h

theorem installTree_getElem? {s : State} {nodes : List Node} {n i : Nat} {x : Node} (h : nodes[i]? = some x) :
    nodeAt (installTree nodes n s) i = x := by
  have hl : i < nodes.length := by
    by_contra hc; rw [List.getElem?_eq_none (by omega)] at h; cases h
  rw [List.getElem?_eq_getElem hl, Option.some.injEq] at h
  rw [installTree_nodeAt hl, h]

theorem sorted_ne_nil {s : State} (h : keyItems s ≠ []) : sortItems (keyItems s) ≠ [] := by
  intro e
  have := sortItems_length (keyItems s)
  rw [e] at this
  exact h (List.length_eq_zero_iff.1 this.symm)

theorem shannonFanoTree_size {s : State} (h : keyItems s ≠ []) : (shannonFanoTree s).size = 2 * (keyItems s).length - 1 := by
  rw [shannonFanoTree, sfTree_size _ (sorted_ne_nil h), sortItems_length]

theorem shannonFanoTree_symbols {s : State} (h : keyItems s ≠ []) :
    (shannonFanoTree s).symbols = (sortItems (keyItems s)).map Item.sym := sfTree_symbols _ (sorted_ne_nil h)

/-- `BUILD_SF` leaves the Shannon-Fano tree at `ROOT` (R142). -/
theorem shannonFano_holds {s : State} (h : keyItems s ≠ []) :
    State.HoldsTree (installTree ((shannonFanoTree s).postorder 0) (keyItems s).length s) (shannonFanoTree s) ∧
    ∀ i, i < 2 * (keyItems s).length - 1 →
      (nodeAt (installTree ((shannonFanoTree s).postorder 0) (keyItems s).length s) i).tag = false →
      (nodeAt (installTree ((shannonFanoTree s).postorder 0) (keyItems s).length s) i).left.toNat < i ∧
      (nodeAt (installTree ((shannonFanoTree s).postorder 0) (keyItems s).length s) i).right.toNat < i := by
  have hpos := List.length_pos_iff.2 h
  have hle := keyItems_length_le s
  have hsz := shannonFanoTree_size h
  have hN : Config.nodeMax = 511 := rfl
  obtain ⟨hd, hc⟩ := postorder_denotes (nodeAt (installTree ((shannonFanoTree s).postorder 0) (keyItems s).length s))
    (shannonFanoTree s) 0 (by omega)
    (by
      intro j hj
      rw [Nat.zero_add]
      exact installTree_nodeAt _)
  refine ⟨⟨rfl, ?_, ?_⟩, ?_⟩
  · rw [installTree_rootIdx, BitVec.toNat_ofNat, postorder_length]
    rw [Nat.zero_add] at hd
    rwa [Nat.mod_eq_of_lt (by omega)]
  · rw [shannonFanoTree_symbols h]
    exact ((sortItems_perm (keyItems s)).map Item.sym).nodup_iff.2 (keyItems_symbols_nodup s)
  · intro i hi htag
    have := hc i (by omega) (by rw [Nat.zero_add]; exact htag)
    rw [Nat.zero_add] at this
    exact ⟨this.2.1, this.2.2.2⟩

theorem freqs_total_lt (s : State) : (freqs (keyItems s)).sum < 2 ^ 40 := by
  have h := sum_freqs_le (keyItems s)
  have : (keyItems s).length * (2 ^ 32 - 1) ≤ 256 * (2 ^ 32 - 1) := Nat.mul_le_mul_right _ (keyItems_length_le s)
  omega

/-- `BUILD_HUF` leaves the merges of R163 and a tree of all the keys at `ROOT`. -/
theorem huffman_holds {s : State} (h : keyItems s ≠ []) :
    let n := (keyItems s).length
    let t := installTree (huffmanNodes (keyItems s)) n s
    (∀ j, j < n - 1 → ∃ a b,
      nodeAt t (n + j) = internalNode a b ((nodeAt t a).weight + (nodeAt t b).weight) ∧
      Unmerged (nodeAt t) n (n + j) a ∧ Unmerged (nodeAt t) n (n + j) b ∧ LowerNode (nodeAt t) a b ∧
      ∀ c, Unmerged (nodeAt t) n (n + j) c → c ≠ a → c ≠ b → LowerNode (nodeAt t) b c) ∧
    ∃ tr, t.HoldsTree tr ∧ tr.WeightsAdd ∧ tr.weight.toNat = (freqs (keyItems s)).sum ∧
      tr.symbols.Perm ((keyItems s).map Item.sym) := by
  intro n t
  have hpos : 0 < n := List.length_pos_iff.2 h
  have hle : n ≤ 256 := keyItems_length_le s
  have hN : Config.nodeMax = 511 := rfl
  have hlen : (leafQueue 0 (keyItems s)).length = n := leafQueue_length _ _
  have inv := queueInv_leaves (nodeOf := nodeAt t) hle fun j x hj => installTree_getElem? (huffmanNodes_leaf hj)
  obtain ⟨h1, tr, hd, hw, ht, hp⟩ := QueueInv.merges (freqs_total_lt s) n n (leafQueue 0 (keyItems s)) _ inv (Nat.le_refl _)
    (by intro e; rw [e] at hlen; simp at hlen; omega) (by omega) (by omega)
    (by
      intro e he
      have h1 : e ∈ leafQueue 0 (keyItems s) := by rw [he]; simp
      obtain ⟨j, x, hj, rfl⟩ := mem_leafQueue.1 h1
      have : j < n := by
        by_contra hc; rw [List.getElem?_eq_none (by omega)] at hj; cases hj
      rw [he, List.length_singleton] at hlen
      simp only [leafEntry]; omega)
    (by
      intro j x hj
      exact installTree_getElem? (by rw [huffmanNodes_merged]; exact hj))
  rw [hlen] at h1 hd
  refine ⟨h1, tr, ⟨rfl, ?_, ?_⟩, hw, ht, hp⟩
  · rw [installTree_rootIdx, BitVec.toNat_ofNat, huffmanNodes_length _ h]
    rw [Nat.mod_eq_of_lt (by omega)]
    rwa [show n + (n - 1) - 1 = 2 * n - 1 - 1 by omega] at hd
  · exact hp.nodup_iff.2 (keyItems_symbols_nodup s)

/-- Either builder leaves a held tree whose leaves are the keys (R142, R163). -/
theorem buildEffect_holds (a : Alg) {s : State} (h : keyItems s ≠ []) :
    ∃ nodes tr, buildEffect a s = .ok (installTree nodes (keyItems s).length s) ∧
      nodes.length = 2 * (keyItems s).length - 1 ∧
      (installTree nodes (keyItems s).length s).HoldsTree tr ∧ ∀ v, v ∈ tr.symbols ↔ freqAt s v.toNat ≠ 0 := by
  have leaf : ∀ l : List Byte, l.Perm ((keyItems s).map Item.sym) → ∀ v, v ∈ l ↔ freqAt s v.toNat ≠ 0 := by
    intro l hl v
    rw [hl.mem_iff, List.mem_map]
    constructor
    · rintro ⟨x, hx, rfl⟩
      rw [mem_keyItems] at hx; rw [← hx.1]; exact hx.2
    · intro hv
      exact ⟨⟨v, freqAt s v.toNat⟩, (mem_keyItems _ _).2 ⟨rfl, hv⟩, rfl⟩
  cases a with
  | shannonFano =>
    refine ⟨_, shannonFanoTree s, ?_, ?_, (shannonFano_holds h).1, ?_⟩
    · simp only [buildEffect, buildSfEffect, h, if_false]
    · rw [postorder_length, shannonFanoTree_size h]
    · refine leaf _ ?_
      rw [shannonFanoTree_symbols h]
      exact (sortItems_perm _).map _
  | huffman =>
    obtain ⟨-, tr, ht, -, -, hp⟩ := huffman_holds h
    refine ⟨_, tr, ?_, huffmanNodes_length _ h, ht, leaf _ hp⟩
    simp only [buildEffect, buildHufEffect, h, if_false]

end Sys2Proof.Machine
end

