-- ==== Sys2Proof/Laws/Codes.lean ====
section
/-! SUPPORT. Codes: the walk of `GENCODES` against the paths of the tree (spec/43_codes_and_tree_check.md R183, R184), and
that codes are prefix-free (R185). -/

namespace Sys2Proof.Machine

/-! ## A path as a number -/

/-- The path number of a descent from a node whose path number is `b` (R184). -/
def pathNum : Nat → List Bool → Nat
  | b, [] => b
  | b, x :: p => pathNum (2 * b + x.toNat) p

theorem pathNum_append (b : Nat) (p q : List Bool) : pathNum b (p ++ q) = pathNum (pathNum b p) q := by
  induction p generalizing b with
  | nil => rfl
  | cons x p ih => exact ih _

theorem pathNum_lt (p : List Bool) : ∀ b k, b < 2 ^ k → pathNum b p < 2 ^ (k + p.length) := by
  induction p with
  | nil => intro b k h; exact h
  | cons x p ih =>
    intro b k h
    have : 2 * b + x.toNat < 2 ^ (k + 1) := by have := x.toNat_lt; rw [Nat.pow_succ]; omega
    have := ih _ _ this
    rw [List.length_cons, show k + (p.length + 1) = k + 1 + p.length by omega]; exact this

/-- The bits of a path number, first step most significant. -/
theorem pathNum_testBit (p : List Bool) : ∀ b j, (h : j < p.length) → (pathNum b p).testBit (p.length - 1 - j) = p[j] := by
  induction p using List.reverseRecOn with
  | nil => intro b j h; cases h
  | append_singleton p x ih =>
    intro b j h
    rw [pathNum_append]
    simp only [List.length_append, List.length_singleton] at h ⊢
    change (2 * pathNum b p + x.toNat).testBit (p.length + 1 - 1 - j) = _
    by_cases hj : j = p.length
    · subst hj
      rw [List.getElem_append_right (by omega)]
      simp only [Nat.add_sub_cancel, Nat.sub_self, Nat.testBit_zero, List.getElem_singleton]
      cases x <;> simp <;> omega
    · have hlt : j < p.length := by omega
      rw [List.getElem_append_left hlt, ← ih b j hlt, show p.length + 1 - 1 - j = (p.length - 1 - j) + 1 by omega,
        Nat.testBit_succ]
      congr 1
      have := x.toNat_lt
      omega

/-! ## The walk -/

/-- The entry of a leaf whose path is `p`. -/
def pathCode (p : List Bool) : Code := { len := BitVec.ofNat 8 p.length, bits := BitVec.ofNat 256 (pathNum 0 p) }

theorem walk_paths {nodeOf : Nat → Node} {i : Nat} {t : Tree} (h : DenotesTree nodeOf i t) :
    ∀ fuel (pre : List Bool), t.depth < fuel →
      walk nodeOf fuel i pre.length (pathNum 0 pre) = t.paths.map fun p => (p.1, pathCode (pre ++ p.2)) := by
  induction h with
  | leaf range tag =>
    intro fuel pre hf
    obtain ⟨f, rfl⟩ : ∃ f, fuel = f + 1 := ⟨fuel - 1, by omega⟩
    simp [walk, tag, Tree.paths, pathCode]
  | internal range tag _ _ ihl ihr =>
    intro fuel pre hf
    obtain ⟨f, rfl⟩ : ∃ f, fuel = f + 1 := ⟨fuel - 1, by omega⟩
    simp only [Tree.depth] at hf
    have hl := ihl f (pre ++ [false]) (by omega)
    have hr := ihr f (pre ++ [true]) (by omega)
    simp only [pathNum_append, List.length_append, List.length_singleton] at hl hr
    simp only [walk, tag, Bool.false_eq_true, if_false, Tree.paths, List.map_append, List.map_map]
    have hl' : pathNum (pathNum 0 pre) [false] = 2 * pathNum 0 pre := by simp [pathNum]
    have hr' : pathNum (pathNum 0 pre) [true] = 2 * pathNum 0 pre + 1 := by simp [pathNum]
    rw [hl'] at hl; rw [hr'] at hr
    rw [hl, hr]
    congr 1 <;>
    · apply List.map_congr_left
      intro p _
      simp

/-- The codes `GENCODES` assigns, as entries. -/
theorem treeCodes_codes {nodeOf : Nat → Node} {root : Nat} {t : Tree} (h : DenotesTree nodeOf root t) (hn : t.symbols.Nodup) :
    treeCodes nodeOf root = t.codes.map fun p => (p.1, pathCode p.2) := by
  have hd : t.depth < Config.codeMax + 1 := by
    have := depth_lt t
    have := nodup_bytes_length hn
    simp only [Config.codeMax]; omega
  cases h with
  | leaf range tag => simp [treeCodes, tag, Tree.codes, pathCode, pathNum]
  | internal range tag hl hr =>
    have := walk_paths (.internal range tag hl hr) (Config.codeMax + 1) [] hd
    simp only [treeCodes, tag, Bool.false_eq_true, if_false, Tree.codes]
    simpa [pathNum] using this

theorem entryOf_map (codes : List (Byte × List Bool)) (v : Byte) :
    entryOf (codes.map fun p => (p.1, pathCode p.2)) v.toNat =
      ((codes.find? fun p => decide (p.1 = v)).map fun p => pathCode p.2).getD noCode := by
  rw [entryOf, List.find?_map]
  have : (fun a : Byte × Code => decide (a.1 = BitVec.ofNat 8 v.toNat)) ∘ (fun p : Byte × List Bool => (p.1, pathCode p.2)) =
      fun p => decide (p.1 = v) := by
    funext p; simp
  rw [this, Option.map_map]
  rfl

/-- The entry of a symbol is that of its code in the tree. -/
theorem entryOf_treeCodes {nodeOf : Nat → Node} {root : Nat} {t : Tree} (h : DenotesTree nodeOf root t) (hn : t.symbols.Nodup)
    (v : Byte) : entryOf (treeCodes nodeOf root) v.toNat = pathCode (t.codeOf v) := by
  rw [treeCodes_codes h hn, entryOf_map, Tree.codeOf]
  cases t.codes.find? fun p => decide (p.1 = v) with
  | none => simp [noCode, pathCode, pathNum]
  | some p => rfl

/-! ## Codes of a tree -/

theorem codes_symbols (t : Tree) : t.codes.map Prod.fst = t.symbols := by
  cases t with
  | leaf v w => rfl
  | internal l r w => exact paths_symbols _

/-- A path is no longer than the depth. -/
theorem path_length_le {t : Tree} {v : Byte} {p : List Bool} (h : (v, p) ∈ t.paths) : p.length ≤ t.depth := by
  induction t generalizing p with
  | leaf u w => simp [Tree.paths] at h; simp [h.2]
  | internal l r w ihl ihr =>
    simp only [Tree.paths, List.mem_append, List.mem_map, Prod.mk.injEq] at h
    simp only [Tree.depth]
    rcases h with ⟨⟨u, q⟩, hm, rfl, rfl⟩ | ⟨⟨u, q⟩, hm, rfl, rfl⟩
    · have := ihl hm; simp only [List.length_cons]; omega
    · have := ihr hm; simp only [List.length_cons]; omega

/-- A path that begins another path of the same tree is that path, at the same leaf. -/
theorem paths_prefix {t : Tree} {u v : Byte} {p q : List Bool} (hp : (u, p) ∈ t.paths) (hq : (v, q) ∈ t.paths)
    (h : p <+: q) : p = q ∧ (t.symbols.Nodup → u = v) := by
  induction t generalizing p q with
  | leaf x w =>
    simp only [Tree.paths, List.mem_singleton, Prod.mk.injEq] at hp hq
    exact ⟨hp.2.trans hq.2.symm, fun _ => hp.1.trans hq.1.symm⟩
  | internal l r w ihl ihr =>
    simp only [Tree.paths, List.mem_append, List.mem_map, Prod.mk.injEq] at hp hq
    simp only [Tree.symbols, List.nodup_append']
    rcases hp with ⟨⟨u', p⟩, hp, rfl, rfl⟩ | ⟨⟨u', p⟩, hp, rfl, rfl⟩ <;>
      rcases hq with ⟨⟨v', q⟩, hq, rfl, rfl⟩ | ⟨⟨v', q⟩, hq, rfl, rfl⟩ <;>
      rw [List.cons_prefix_cons] at h
    · have := ihl hp hq h.2; exact ⟨by rw [this.1], fun hn => this.2 hn.1⟩
    · exact absurd h.1 (by simp)
    · exact absurd h.1 (by simp)
    · have := ihr hp hq h.2; exact ⟨by rw [this.1], fun hn => this.2 hn.2.1⟩

/-- `codeOf` answers a code of the table exactly for the leaf symbols. -/
theorem codeOf_mem {t : Tree} {v : Byte} (h : v ∈ t.symbols) : (v, t.codeOf v) ∈ t.codes := by
  rw [← codes_symbols] at h
  obtain ⟨⟨v', p⟩, hp, rfl⟩ := List.mem_map.1 h
  rw [Tree.codeOf]
  cases hf : t.codes.find? fun q => decide (q.1 = v') with
  | none =>
    have := List.find?_eq_none.1 hf _ hp
    simp at this
  | some q =>
    have hq := List.find?_some hf
    have hm := List.mem_of_find?_eq_some hf
    simp only [decide_eq_true_eq] at hq
    obtain ⟨a, b⟩ := q
    subst hq; exact hm

theorem codeOf_eq_nil {t : Tree} {v : Byte} (h : v ∉ t.symbols) : t.codeOf v = [] := by
  rw [Tree.codeOf, List.find?_eq_none.2]
  · rfl
  · rintro ⟨a, b⟩ hm
    simp only [decide_eq_true_eq]
    rintro rfl
    exact h (codes_symbols t ▸ List.mem_map_of_mem (f := Prod.fst) hm)

theorem codes_ne_nil {t : Tree} {v : Byte} {p : List Bool} (h : (v, p) ∈ t.codes) : p ≠ [] := by
  cases t with
  | leaf u w => simp [Tree.codes] at h; simp [h.2]
  | internal l r w =>
    simp only [Tree.codes, Tree.paths, List.mem_append, List.mem_map, Prod.mk.injEq] at h
    rcases h with ⟨⟨u, q⟩, -, -, rfl⟩ | ⟨⟨u, q⟩, -, -, rfl⟩ <;> simp

/-- A symbol has a code exactly when it is a leaf. -/
theorem codeOf_ne_nil {t : Tree} {v : Byte} : t.codeOf v ≠ [] ↔ v ∈ t.symbols := by
  constructor
  · intro h; by_contra hv; exact h (codeOf_eq_nil hv)
  · intro h; exact codes_ne_nil (codeOf_mem h)

/-- No code is longer than 255 bits (R13, R186). -/
theorem codeOf_length_le {t : Tree} (hn : t.symbols.Nodup) (v : Byte) : (t.codeOf v).length ≤ Config.codeMax := by
  by_cases hv : v ∈ t.symbols
  · have hm := codeOf_mem hv
    have h1 := depth_lt t
    have h2 := nodup_bytes_length hn
    cases t with
    | leaf u w =>
      simp only [Tree.codes, List.mem_singleton, Prod.mk.injEq] at hm
      rw [hm.2]; decide
    | internal l r w =>
      have := path_length_le hm
      simp only [Config.codeMax]; omega
  · rw [codeOf_eq_nil hv]; simp

/-- The bits of an entry, first bit most significant. -/
theorem pathCode_bits {p : List Bool} (h : p.length ≤ Config.codeMax) :
    (pathCode p).len.toNat = p.length ∧
    ((List.range p.length).map fun j => (pathCode p).bits.getLsbD (p.length - 1 - j)) = p ∧
    ∀ k, p.length ≤ k → (pathCode p).bits.getLsbD k = false := by
  simp only [Config.codeMax] at h
  refine ⟨?_, ?_, ?_⟩
  · simp only [pathCode, BitVec.toNat_ofNat]; omega
  · apply List.ext_getElem
    · simp
    · intro j h1 h2
      simp only [List.getElem_map, List.getElem_range, pathCode, BitVec.getLsbD_ofNat]
      rw [pathNum_testBit p 0 j h2]
      simp; omega
  · intro k hk
    simp only [pathCode, BitVec.getLsbD_ofNat, Bool.and_eq_false_iff]
    right
    apply Nat.testBit_lt_two_pow
    have := pathNum_lt p 0 0 (by simp)
    refine Nat.lt_of_lt_of_le this ?_
    rw [Nat.zero_add]
    exact Nat.pow_le_pow_right (by omega) hk

/-- The table after `GENCODES` (R184): the code string of every symbol is its code in the tree. -/
theorem codeString_of_tree {s t : State} {tr : Tree} (h : DenotesTree (nodeAt s) s.rootIdx.toNat tr) (hn : tr.symbols.Nodup)
    (hc : t.code = Memory.ofList (codeTableWords (entryOf (treeCodes (nodeAt s) s.rootIdx.toNat)))) (v : Byte) :
    codeAt t v.toNat = pathCode (tr.codeOf v) ∧ codeString t v.toNat = tr.codeOf v := by
  have he := entryOf_treeCodes h hn v
  have hb := pathCode_bits (codeOf_length_le hn v)
  refine ⟨by rw [codeAt_written hc v.isLt, he], ?_⟩
  rw [codeString_written hc v.isLt, he, hb.1]
  exact hb.2.1

/-- A shared beginning decides which of two codes is meant. -/
theorem codes_prefix {t : Tree} {u v : Byte} {p q : List Bool} (hn : t.symbols.Nodup) (hp : (u, p) ∈ t.codes)
    (hq : (v, q) ∈ t.codes) (h : p <+: q) : u = v := by
  cases t with
  | leaf x w =>
    simp only [Tree.codes, List.mem_singleton, Prod.mk.injEq] at hp hq
    exact hp.1.trans hq.1.symm
  | internal l r w => exact (paths_prefix hp hq h).2 hn

end Sys2Proof.Machine
end

