-- ==== Sys2Proof/Laws/Decode.lean ====
section
/-! SUPPORT. The command word: its fields are all of it, and what the decoder does with the fields. -/

namespace Sys2Proof

/-- The fields hold every bit of the word (R100). -/
theorem joinFields_splitWord (w : Word) : joinFields (splitWord w) = w := by
  apply BitVec.eq_of_getLsbD_eq
  intro i hi
  simp only [joinFields, splitWord, BitVec.getLsbD_append, BitVec.getLsbD_extractLsb']
  by_cases h : i < 8
  · simp [h, show i < 9 by omega]
  · by_cases h9 : i = 8
    · subst h9; simp
    · have e : 9 + (i - 9) = i := by omega
      simp [h, show ¬ i < 9 by omega, show i - 9 < 23 by omega, e]

/-- A word with given fields has those fields (R100). -/
theorem splitWord_joinFields (f : Fields) : splitWord (joinFields f) = f := by
  obtain ⟨o, a, r⟩ := f
  simp only [joinFields, splitWord, Fields.mk.injEq]
  refine ⟨?_, ?_, ?_⟩
  · apply BitVec.eq_of_getLsbD_eq; intro i hi
    simp only [BitVec.getLsbD_append, BitVec.getLsbD_extractLsb']
    simp [hi, show i < 9 by omega]
  · simp only [BitVec.getLsbD_append]; simp
  · apply BitVec.eq_of_getLsbD_eq; intro i hi
    simp only [BitVec.getLsbD_append, BitVec.getLsbD_extractLsb']
    have e : 9 + i - 9 = i := by omega
    simp [hi, e]

/-- The fields of a command's word are well formed. -/
theorem encode_wellFormed (i : Instr) : (splitWord (encode i)).wellFormed = true := by
  rw [encode, splitWord_joinFields]
  cases i <;> try rfl
  next alg => cases alg <;> rfl

/-- `ofOpcode` gives every command from its own opcode and `ALG` bit. -/
theorem ofOpcode_opcodeOf (i : Instr) : ofOpcode (algBitOf i) (opcodeOf i).toNat = .ok i := by
  cases i <;> try rfl
  next alg => cases alg <;> rfl

/-- What the decoder answers on fields that pass the checks. -/
theorem decodeFields_wellFormed {f : Fields} (h : f.wellFormed = true) : decodeFields f = ofOpcode f.alg f.opcode.toNat := by
  simp only [Fields.wellFormed, Bool.and_eq_true] at h
  simp [decodeFields, h.1.1, h.1.2, h.2]

/-- The decoder refuses exactly the fields that fail a check. -/
theorem decodeFields_refuses_iff (f : Fields) : (∃ e, decodeFields f = .error e) ↔ f.wellFormed = false := by
  constructor
  · rintro ⟨e, he⟩
    by_contra hw
    rw [Bool.not_eq_false] at hw
    rw [decodeFields_wellFormed hw] at he
    have ho : f.opcode.toNat ≤ 10 := by
      simp only [Fields.wellFormed, Fields.opcodeOk, Bool.and_eq_true, decide_eq_true_eq] at hw; exact hw.1.1
    generalize f.opcode.toNat = n at he ho
    interval_cases n <;> cases he
  · intro h
    by_cases ho : f.opcodeOk = true
    · by_cases hr : f.reservedOk = true
      · have ha : f.algOk = false := by simpa [Fields.wellFormed, ho, hr] using h
        exact ⟨_, by simp [decodeFields, ho, hr, ha]; rfl⟩
      · exact ⟨.reservedBits, by simp [decodeFields, ho, hr]⟩
    · exact ⟨.reservedOpcode, by simp [decodeFields, ho]⟩

end Sys2Proof
end

