-- ==== Sys2Proof/Laws/Packing.lean ====
section
/-! SUPPORT. `PACK` and `UNPACK`: bits and bytes (spec/20_memory.md R80), the packed stream
(spec/44_pack_unpack.md R201), and what the decoder does with codes, cut codes and a bare Leaf (R210, R212). -/

namespace Sys2Proof.Machine

/-! ## Bits and bytes -/

theorem foldl_pathNum (bs : List Bool) (b : Nat) : bs.foldl (fun acc x => 2 * acc + x.toNat) b = pathNum b bs := by
  induction bs generalizing b with
  | nil => rfl
  | cons x bs ih => exact ih _

/-- The first of eight bits is the most significant (R80). -/
theorem byteOfBits_getLsbD {bs : List Bool} (h : bs.length = 8) {j : Nat} (hj : j < 8) :
    (byteOfBits bs).getLsbD (7 - j) = bs[j] := by
  have := pathNum_testBit bs 0 j (by omega)
  rw [show bs.length - 1 - j = 7 - j by omega] at this
  rw [byteOfBits, foldl_pathNum, BitVec.getLsbD_ofNat, ← this]
  simp; omega

theorem groupBytes_spec (m : Nat) : ∀ bs : List Bool, bs.length = 8 * m →
    (groupBytes bs).length = m ∧
    ∀ j (hj : j < bs.length), ∃ b, (groupBytes bs)[j / 8]? = some b ∧ b.getLsbD (7 - j % 8) = bs[j] := by
  induction m with
  | zero =>
    intro bs h
    have : bs = [] := List.length_eq_zero_iff.1 (by omega)
    subst this
    exact ⟨rfl, fun j hj => by cases hj⟩
  | succ m ih =>
    intro bs h
    match bs, h with
    | b0 :: b1 :: b2 :: b3 :: b4 :: b5 :: b6 :: b7 :: rest, h =>
      have hr : rest.length = 8 * m := by simp only [List.length_cons] at h; omega
      obtain ⟨h1, h2⟩ := ih rest hr
      refine ⟨by simp [groupBytes, h1], fun j hj => ?_⟩
      by_cases h8 : j < 8
      · refine ⟨byteOfBits [b0, b1, b2, b3, b4, b5, b6, b7], ?_, ?_⟩
        · rw [show j / 8 = 0 by omega]; rfl
        · rw [show j % 8 = j by omega, byteOfBits_getLsbD rfl h8]
          have e : (b0 :: b1 :: b2 :: b3 :: b4 :: b5 :: b6 :: b7 :: rest) = [b0, b1, b2, b3, b4, b5, b6, b7] ++ rest := rfl
          simp only [e]
          rw [List.getElem_append_left (by simpa using h8)]
      · simp only [List.length_cons] at hj
        obtain ⟨i, rfl⟩ : ∃ i, j = i + 8 := ⟨j - 8, by omega⟩
        obtain ⟨b, hb1, hb2⟩ := h2 i (by omega)
        refine ⟨b, ?_, ?_⟩
        · rw [show (i + 8) / 8 = i / 8 + 1 by omega]
          simpa [groupBytes] using hb1
        · rw [show (i + 8) % 8 = i % 8 by omega, hb2]
          rfl

theorem padding_facts (n : Nat) : padding n ≤ 7 ∧ (n + padding n) % 8 = 0 ∧ (n + padding n) / 8 = (n + 7) / 8 := by
  unfold padding; omega

/-- The payload written for a stream: its bits, zero padding, and the kept bytes (R80, R201). -/
theorem storePayload_bits (stream : List Bool) (s : State) :
    (∀ j (h : j < stream.length), payloadBit (storePayload stream s) j = stream[j]) ∧
    (∀ j, stream.length ≤ j → j < 8 * ((stream.length + 7) / 8) → payloadBit (storePayload stream s) j = false) ∧
    (∀ k, (stream.length + 7) / 8 ≤ k → byteAt (storePayload stream s) k = byteAt s k) := by
  obtain ⟨p1, p2, p3⟩ := padding_facts stream.length
  generalize hp : padding stream.length = pad at p1 p2 p3
  have hlen : (stream ++ List.replicate pad false).length = 8 * ((stream.length + 7) / 8) := by
    rw [List.length_append, List.length_replicate]; omega
  obtain ⟨g1, g2⟩ := groupBytes_spec _ _ hlen
  have read : ∀ j, j < 8 * ((stream.length + 7) / 8) →
      some (payloadBit (storePayload stream s) j) = (stream ++ List.replicate pad false)[j]? := by
    intro j hj
    obtain ⟨b, hb1, hb2⟩ := g2 j (by omega)
    have hlt : j / 8 < (groupBytes (stream ++ List.replicate pad false)).length := by rw [g1]; omega
    rw [List.getElem?_eq_getElem hlt, Option.some.injEq] at hb1
    rw [List.getElem?_eq_getElem (by omega), ← hb2, ← hb1, payloadBit, byteAt, storePayload_byte, hp,
      readWith_writePrefix_lt _ _ _ _ hlt]
  refine ⟨fun j h => ?_, fun j h1 h2 => ?_, fun k hk => ?_⟩
  · have := read j (by omega)
    rw [List.getElem?_append_left h, List.getElem?_eq_getElem h] at this
    exact Option.some.inj this
  · have := read j h2
    rw [List.getElem?_append_right h1, List.getElem?_replicate] at this
    split at this
    · exact Option.some.inj this
    · cases this
  · rw [byteAt, storePayload_byte, storePayload_byteDraw, hp, readWith_writePrefix_ge _ _ _ _ (by omega)]
    rfl

/-- The payload's first bits after `PACK` are the stream. -/
theorem storePayload_payloadBits (stream : List Bool) (s : State) :
    payloadBits (storePayload stream s) stream.length = stream := by
  apply List.ext_getElem
  · simp [payloadBits]
  · intro j h1 h2
    simp only [payloadBits, List.getElem_map, List.getElem_range]
    exact (storePayload_bits stream s).1 j h2

/-! ## The stream -/

/-- What a completed pack loop produced. -/
theorem packStream_ok {codeOf : Byte → List Bool} {maxBytes : Nat} {syms : List Byte} {i len : Nat} {stream : List Bool}
    (h : packStream codeOf maxBytes syms i len = .ok stream) :
    (∀ v ∈ syms, codeOf v ≠ []) ∧ stream = syms.flatMap codeOf ∧
      ((len + 7) / 8 ≤ maxBytes → (len + stream.length + 7) / 8 ≤ maxBytes) := by
  induction syms generalizing i len stream with
  | nil => cases h; simp
  | cons v rest ih =>
    simp only [packStream] at h
    split at h
    · cases h
    · next h1 =>
      split at h
      · cases h
      · next h2 =>
        split at h
        · next st hst =>
          cases h
          obtain ⟨ha, rfl, hb⟩ := ih hst
          refine ⟨?_, rfl, ?_⟩
          · intro u hu
            rcases List.mem_cons.1 hu with rfl | hu
            · exact h1
            · exact ha u hu
          · intro _
            have := hb (by omega)
            rw [List.length_append]; omega
        · cases h

/-- When every symbol has a code and the whole stream fits, the loop completes. -/
theorem packStream_fits {codeOf : Byte → List Bool} {maxBytes : Nat} {syms : List Byte} {i len : Nat}
    (h1 : ∀ v ∈ syms, codeOf v ≠ []) (h2 : (len + (syms.flatMap codeOf).length + 7) / 8 ≤ maxBytes) :
    packStream codeOf maxBytes syms i len = .ok (syms.flatMap codeOf) := by
  induction syms generalizing i len with
  | nil => rfl
  | cons v rest ih =>
    rw [List.flatMap_cons, List.length_append] at h2
    simp only [packStream, h1 v (by simp), if_false, List.flatMap_cons,
      Nat.not_lt.2 (show (len + (codeOf v).length + 7) / 8 ≤ maxBytes by omega)]
    rw [ih (fun u hu => h1 u (by simp [hu])) (by omega)]

/-- The loop past a beginning that has codes and fits. -/
theorem packStream_append {codeOf : Byte → List Bool} {maxBytes : Nat} (syms rest : List Byte) {i len : Nat}
    (h1 : ∀ v ∈ syms, codeOf v ≠ []) (h2 : (len + (syms.flatMap codeOf).length + 7) / 8 ≤ maxBytes) :
    packStream codeOf maxBytes (syms ++ rest) i len =
      match packStream codeOf maxBytes rest (i + syms.length) (len + (syms.flatMap codeOf).length) with
      | .ok stream => .ok (syms.flatMap codeOf ++ stream)
      | .error e => .error e := by
  induction syms generalizing i len with
  | nil => simp only [List.nil_append, List.flatMap_nil, List.length_nil, Nat.add_zero]; split <;> simp_all
  | cons v syms ih =>
    rw [List.flatMap_cons, List.length_append] at h2
    simp only [List.cons_append, packStream, h1 v (by simp), if_false, List.flatMap_cons,
      Nat.not_lt.2 (show (len + (codeOf v).length + 7) / 8 ≤ maxBytes by omega)]
    rw [ih (fun u hu => h1 u (by simp [hu])) (by omega), List.length_cons, List.length_append,
      show i + 1 + syms.length = i + (syms.length + 1) by omega, ← Nat.add_assoc len]
    generalize packStream codeOf maxBytes rest _ _ = r
    cases r <;> simp

/-- Without a code the first symbol of the list is reported, by its index. -/
theorem packStream_unknown {codeOf : Byte → List Bool} {maxBytes : Nat} {v : Byte} {rest : List Byte} {i len : Nat}
    (h : codeOf v = []) : packStream codeOf maxBytes (v :: rest) i len = .error { kind := .unknownSymbol, info := BitVec.ofNat 32 i } := by
  simp [packStream, h]

/-- With a code that does not fit, `Capacity`. -/
theorem packStream_capacity {codeOf : Byte → List Bool} {maxBytes : Nat} {v : Byte} {rest : List Byte} {i len : Nat}
    (h : codeOf v ≠ []) (hc : maxBytes < (len + (codeOf v).length + 7) / 8) :
    packStream codeOf maxBytes (v :: rest) i len = .error { kind := .capacity, info := BitVec.ofNat 32 i } := by
  simp [packStream, h, hc]

/-! ## The decoder -/

/-- No node is its own descendant: an index that denotes a smaller tree is another index. -/
theorem DenotesTree.ne_of_size {nodeOf : Nat → Node} {i j : Nat} {t u : Tree} (h : DenotesTree nodeOf i t)
    (h' : DenotesTree nodeOf j u) (hs : u.size < t.size) : j ≠ i := by
  rintro rfl; rw [h.unique h'] at hs; omega

/-- The decoder walking down one path: at the leaf it emits, and before the leaf it ends corrupt (R210). -/
theorem unpackLoop_path {nodeOf : Nat → Node} {root maxLen : Nat} {whole : Tree} (hw : DenotesTree nodeOf root whole)
    (hi : (nodeOf root).tag = false) {t : Tree} {v : Byte} {p : List Bool} (hp : (v, p) ∈ t.paths) :
    ∀ {cur : Nat} (j out : Nat), DenotesTree nodeOf cur t → p ≠ [] →
      (∀ rest, unpackLoop nodeOf root maxLen (p ++ rest) j cur out =
        emitSymbol maxLen (j + p.length - 1) out v (unpackLoop nodeOf root maxLen rest (j + p.length) root (out + 1))) ∧
      (t.size ≤ whole.size → ∀ q, q <+: p → q ≠ p → q ≠ [] →
        unpackLoop nodeOf root maxLen q j cur out = .error (corruptPayload (j + q.length))) := by
  induction t generalizing p with
  | leaf u w => intro cur j out _ hne; simp [Tree.paths] at hp; exact absurd hp.2 hne
  | internal l r w ihl ihr =>
    intro cur j out hd hne
    cases hd with
    | internal range tag hl hr =>
      simp only [Tree.paths, List.mem_append, List.mem_map, Prod.mk.injEq] at hp
      have go : ∀ (b : Bool) (t' : Tree) (c : NodeIdx) (p' : List Bool),
          (if b then (nodeOf cur).right else (nodeOf cur).left) = c → DenotesTree nodeOf c.toNat t' → t'.size < (Tree.internal l r (nodeOf cur).weight).size →
          (v, p') ∈ t'.paths →
          (p' ≠ [] → ∀ (j out : Nat), (∀ rest, unpackLoop nodeOf root maxLen (p' ++ rest) j c.toNat out =
              emitSymbol maxLen (j + p'.length - 1) out v (unpackLoop nodeOf root maxLen rest (j + p'.length) root (out + 1))) ∧
            (t'.size ≤ whole.size → ∀ q, q <+: p' → q ≠ p' → q ≠ [] →
              unpackLoop nodeOf root maxLen q j c.toNat out = .error (corruptPayload (j + q.length)))) →
          (∀ rest, unpackLoop nodeOf root maxLen (b :: p' ++ rest) j cur out =
            emitSymbol maxLen (j + (b :: p').length - 1) out v
              (unpackLoop nodeOf root maxLen rest (j + (b :: p').length) root (out + 1))) ∧
          ((Tree.internal l r (nodeOf cur).weight).size ≤ whole.size → ∀ q, q <+: b :: p' → q ≠ b :: p' → q ≠ [] →
            unpackLoop nodeOf root maxLen q j cur out = .error (corruptPayload (j + q.length))) := by
        intro b t' c p' hc hd hsz hm ih
        cases hd with
        | leaf range' tag' =>
          simp only [Tree.paths, List.mem_singleton, Prod.mk.injEq] at hm
          obtain ⟨rfl, rfl⟩ := hm
          refine ⟨fun rest => ?_, fun _ q hq hqne hqnil => ?_⟩
          · simp only [List.cons_append, List.nil_append, unpackLoop, hi, Bool.false_eq_true, if_false, hc, tag', if_true,
              List.length_singleton, Nat.add_sub_cancel]
          · exfalso
            cases q with
            | nil => exact hqnil rfl
            | cons x q =>
              rw [List.cons_prefix_cons] at hq
              exact hqne (by rw [hq.1, List.prefix_nil.1 hq.2])
        | internal range' tag' hl' hr' =>
          have hp' : p' ≠ [] := by
            rintro rfl
            simp [Tree.paths] at hm
          have ih' := ih hp'
          refine ⟨fun rest => ?_, fun hle q hq hqne hqnil => ?_⟩
          · simp only [List.cons_append, unpackLoop, hi, Bool.false_eq_true, if_false, hc, tag', (ih' (j + 1) out).1,
              List.length_cons]
            rw [show j + 1 + p'.length = j + (p'.length + 1) by omega]
          · cases q with
            | nil => exact absurd rfl hqnil
            | cons x q =>
              rw [List.cons_prefix_cons] at hq
              obtain ⟨rfl, hq⟩ := hq
              have hne' : q ≠ p' := fun e => hqne (by rw [e])
              simp only [unpackLoop, hi, Bool.false_eq_true, if_false, hc, tag', List.length_cons]
              cases q with
              | nil =>
                have hcr := hw.ne_of_size (.internal range' tag' hl' hr') (by omega)
                simp [unpackLoop, hcr]
              | cons y q =>
                rw [(ih' (j + 1) out).2 (by omega) (y :: q) hq hne' (by simp)]
                congr 2; simp only [List.length_cons]; omega
      rcases hp with ⟨⟨u, p'⟩, hm, rfl, rfl⟩ | ⟨⟨u, p'⟩, hm, rfl, rfl⟩
      · exact go false l (nodeOf cur).left p' rfl hl (by simp only [Tree.size]; omega) hm
          fun hne' j out => ihl hm j out hl hne'
      · exact go true r (nodeOf cur).right p' rfl hr (by simp only [Tree.size]; omega) hm
          fun hne' j out => ihr hm j out hr hne'

/-- The decoder on one code, whatever the tree (R207, R212). -/
theorem unpackLoop_code {nodeOf : Nat → Node} {root maxLen : Nat} {t : Tree} (hd : DenotesTree nodeOf root t) {v : Byte}
    {p : List Bool} (hp : (v, p) ∈ t.codes) (j out : Nat) :
    (∀ rest, unpackLoop nodeOf root maxLen (p ++ rest) j root out =
      emitSymbol maxLen (j + p.length - 1) out v (unpackLoop nodeOf root maxLen rest (j + p.length) root (out + 1))) ∧
    (∀ q, q <+: p → q ≠ p → q ≠ [] → unpackLoop nodeOf root maxLen q j root out = .error (corruptPayload (j + q.length))) := by
  have hne := codes_ne_nil hp
  cases t with
  | leaf u w =>
    cases hd with
    | leaf range tag =>
      simp only [Tree.codes, List.mem_singleton, Prod.mk.injEq] at hp
      obtain ⟨rfl, rfl⟩ := hp
      refine ⟨fun rest => ?_, fun q hq hqne hqnil => ?_⟩
      · simp only [List.cons_append, List.nil_append, unpackLoop, tag, if_true, Bool.false_eq_true, if_false,
          List.length_singleton, Nat.add_sub_cancel]
      · exfalso
        cases q with
        | nil => exact hqnil rfl
        | cons x q =>
          rw [List.cons_prefix_cons] at hq
          exact hqne (by rw [hq.1, List.prefix_nil.1 hq.2])
  | internal l r w =>
    have hi : (nodeOf root).tag = false := by cases hd; assumption
    have := unpackLoop_path (maxLen := maxLen) hd hi hp j out hd hne
    exact ⟨this.1, this.2 (Nat.le_refl _)⟩

/-- The decoder past the codes of a sequence that fits (R207). -/
theorem unpackLoop_codes {nodeOf : Nat → Node} {root maxLen : Nat} {t : Tree} (hd : DenotesTree nodeOf root t)
    (syms : List Byte) (hs : ∀ v ∈ syms, v ∈ t.symbols) (rest : List Bool) : ∀ (j out : Nat), out + syms.length ≤ maxLen →
      unpackLoop nodeOf root maxLen (syms.flatMap t.codeOf ++ rest) j root out =
        match unpackLoop nodeOf root maxLen rest (j + (syms.flatMap t.codeOf).length) root (out + syms.length) with
        | .ok more => .ok (syms ++ more)
        | .error e => .error e := by
  induction syms with
  | nil => intro j out _; simp only [List.flatMap_nil, List.nil_append, List.length_nil, Nat.add_zero]; split <;> simp_all
  | cons v syms ih =>
    intro j out hout
    rw [List.length_cons] at hout
    have h1 := (unpackLoop_code (maxLen := maxLen) hd (codeOf_mem (hs v (by simp))) j out).1 (syms.flatMap t.codeOf ++ rest)
    rw [List.flatMap_cons, List.append_assoc, h1,
      ih (fun u hu => hs u (by simp [hu])) (j + (t.codeOf v).length) (out + 1) (by omega), List.length_append, List.length_cons, ← Nat.add_assoc,
      show out + 1 + syms.length = out + (syms.length + 1) by omega]
    generalize unpackLoop nodeOf root maxLen rest _ root (out + (syms.length + 1)) = r
    cases r <;> simp [emitSymbol, Nat.not_le.2 (show out < maxLen by omega)]

/-- Whole codes decode to their sequence (R207). -/
theorem unpackLoop_decodes {nodeOf : Nat → Node} {root maxLen : Nat} {t : Tree} (hd : DenotesTree nodeOf root t)
    {syms : List Byte} (hs : ∀ v ∈ syms, v ∈ t.symbols) (hlen : syms.length ≤ maxLen) :
    unpackLoop nodeOf root maxLen (syms.flatMap t.codeOf) 0 root 0 = .ok syms := by
  have := unpackLoop_codes (maxLen := maxLen) hd syms hs [] 0 0 (by omega)
  rw [List.append_nil] at this
  rw [this]; simp [unpackLoop]

/-- A bare Leaf: every 0 bit is the symbol (R212). -/
theorem unpackLoop_leaf_zeros {nodeOf : Nat → Node} {root maxLen : Nat} (hl : (nodeOf root).tag = true) (n : Nat)
    (rest : List Bool) : ∀ (j out : Nat), out + n ≤ maxLen →
      unpackLoop nodeOf root maxLen (List.replicate n false ++ rest) j root out =
        match unpackLoop nodeOf root maxLen rest (j + n) root (out + n) with
        | .ok more => .ok (List.replicate n (nodeOf root).sym ++ more)
        | .error e => .error e := by
  induction n with
  | zero => intro j out _; simp only [List.replicate_zero, List.nil_append, Nat.add_zero]; split <;> simp_all
  | succ n ih =>
    intro j out h
    simp only [List.replicate_succ, List.cons_append, unpackLoop, hl, if_true, Bool.false_eq_true, if_false]
    rw [ih (j + 1) (out + 1) (by omega), show j + 1 + n = j + (n + 1) by omega,
      show out + 1 + n = out + (n + 1) by omega]
    generalize unpackLoop nodeOf root maxLen rest _ root (out + (n + 1)) = r
    cases r <;> simp [emitSymbol, Nat.not_le.2 (show out < maxLen by omega)]

/-- A completed decode emits no more symbols than fit. -/
theorem unpackLoop_length {nodeOf : Nat → Node} {root maxLen : Nat} {bits : List Bool} {j cur out : Nat} {syms : List Byte}
    (ho : out ≤ maxLen) (h : unpackLoop nodeOf root maxLen bits j cur out = .ok syms) : out + syms.length ≤ maxLen := by
  induction bits generalizing j cur out syms with
  | nil =>
    simp only [unpackLoop] at h
    split at h
    · cases h; simpa using ho
    · cases h
  | cons b bits ih =>
    have emit : ∀ {cur' v m}, (m = unpackLoop nodeOf root maxLen bits (j + 1) cur' (out + 1)) →
        emitSymbol maxLen j out v m = .ok syms → out + syms.length ≤ maxLen := by
      intro cur' v m hm he
      simp only [emitSymbol] at he
      split at he
      · cases he
      · split at he
        · next st =>
          cases he
          have := ih (by omega) hm.symm
          simp only [List.length_cons]; omega
        · cases he
    simp only [unpackLoop] at h
    split at h
    · split at h
      · cases h
      · exact emit rfl h
    · generalize (if b then (nodeOf cur).right else (nodeOf cur).left).toNat = nx at h
      split at h
      · exact emit rfl h
      · exact ih ho h

/-- The symbols written by `UNPACK` read back (R210). -/
theorem storeSymbols_symAt (syms : List Byte) (s : State) :
    (∀ k (h : k < syms.length), symAt (storeSymbols syms s) k = syms[k]) ∧
    (∀ k, syms.length ≤ k → symAt (storeSymbols syms s) k = symAt s k) ∧
    symbols (storeSymbols syms s) syms.length = syms := by
  have h1 : ∀ k (h : k < syms.length), symAt (storeSymbols syms s) k = syms[k] := by
    intro k h; rw [symAt, storeSymbols_sym]; exact readWith_writePrefix_lt _ _ _ _ h
  refine ⟨h1, fun k h => ?_, ?_⟩
  · rw [symAt, storeSymbols_sym, storeSymbols_symDraw]; exact readWith_writePrefix_ge _ _ _ _ h
  · apply List.ext_getElem
    · simp [symbols]
    · intro k h2 h3; simp only [symbols, List.getElem_map, List.getElem_range]; exact h1 k h3

end Sys2Proof.Machine
end

