-- ==== Sys2Proof/Laws/Facade.lean ====
section
/-! SUPPORT. The sequence of `COMPRESS` (spec/45_facade.md R230): its first three steps never raise an error on a non-empty
sequence that fits, and what they leave for `PACK`. -/

namespace Sys2Proof.Machine

theorem gencodesEffect_holds {s : State} {tr : Tree} (h : s.HoldsTree tr) :
    gencodesEffect s = .ok { s with code := Memory.ofList (codeTableWords (entryOf (treeCodes (nodeAt s) s.rootIdx.toNat))) } := by
  rcases gencodesEffect_cases s with ⟨-, h'⟩ | ⟨info, hb, -⟩
  · exact h'
  · exact absurd h (not_holds_of_bad hb tr)

theorem mem_symbols (s : State) (n : Nat) (v : Byte) : v ∈ symbols s n ↔ ∃ i, i < n ∧ symAt s i = v := by
  simp [symbols]

theorem symbols_length (s : State) (n : Nat) : (symbols s n).length = n := by simp [symbols]

/-- What the first three steps of `COMPRESS` leave (R230, R233). -/
theorem compress_prepares (a : Alg) {s : State} (h1 : s.symLen ≠ 0) (h2 : s.symLen.toNat ≤ s.maxLen) :
    ∃ s1 s2 s3 tr,
      analyzeEffect (emptyPayload s) = .ok s1 ∧ buildEffect a s1 = .ok s2 ∧ gencodesEffect s2 = .ok s3 ∧
      compressEffect a s = packEffect s3 ∧ s3.HoldsTree tr ∧
      (∀ v, v ∈ tr.symbols ↔ v ∈ symbols s s.symLen.toNat) ∧
      (∀ v : Byte, (freqAt s3 v.toNat).toNat = (symbols s s.symLen.toNat).count v) ∧
      (∀ v : Byte, codeString s3 v.toNat = tr.codeOf v) ∧
      s3 = { s with
             freq := s3.freq, node := s3.node, code := s3.code, byteLen := 0, pad := 0, bitLen := 0
             rootValid := true, rootIdx := s3.rootIdx, nnode := s3.nnode, nleaf := s3.nleaf } ∧
      ∀ i, s3.nnode.toNat ≤ i → nodeAt s3 i = nodeAt s i := by
  have hsym : symbols (emptyPayload s) (emptyPayload s).symLen.toNat = symbols s s.symLen.toNat := rfl
  have hpos : 0 < s.symLen.toNat := by
    rcases Nat.eq_zero_or_pos s.symLen.toNat with h | h
    · exact absurd (BitVec.eq_of_toNat_eq (by simpa using h)) h1
    · exact h
  have e1 : analyzeEffect (emptyPayload s) = .ok { emptyPayload s with freq := Memory.ofList (countTable (symbols s s.symLen.toNat)) } := by
    rcases analyzeEffect_cases (emptyPayload s) with ⟨hlt, -⟩ | ⟨-, h⟩
    · exact absurd hlt (Nat.not_lt.2 h2)
    · exact h
  generalize hs1 : ({ emptyPayload s with freq := Memory.ofList (countTable (symbols s s.symLen.toNat)) } : State) = s1 at e1
  have hf1 : s1.freq = Memory.ofList (countTable (symbols s s.symLen.toNat)) := by rw [← hs1]
  have hcount : ∀ v : Byte, (freqAt s1 v.toNat).toNat = (symbols s s.symLen.toNat).count v := by
    intro v
    rw [freqAt_countTable hf1 (by rw [symbols_length]; exact s.symLen.isLt) v.isLt, ofNat_toNat_byte]
  have hfreq : ∀ v : Byte, freqAt s1 v.toNat ≠ 0 ↔ v ∈ symbols s s.symLen.toNat := by
    intro v
    rw [← List.count_pos_iff, ← hcount]
    constructor
    · intro h
      rcases Nat.eq_zero_or_pos (freqAt s1 v.toNat).toNat with h' | h'
      · exact absurd (BitVec.eq_of_toNat_eq (by simpa using h')) h
      · exact h'
    · rintro h e; rw [e] at h; simp at h
  have hkey : keyItems s1 ≠ [] := by
    apply keyItems_ne_nil
    refine ⟨(symAt s 0).toNat, (symAt s 0).isLt, ?_⟩
    rw [hfreq]; exact (mem_symbols _ _ _).2 ⟨0, hpos, rfl⟩
  obtain ⟨nodes, tr, e2, hlen, ht, hleaf⟩ := buildEffect_holds a hkey
  generalize hs2 : installTree nodes (keyItems s1).length s1 = s2 at e2 ht
  have e3 := gencodesEffect_holds ht
  refine ⟨s1, s2, _, tr, e1, e2, e3, ?_, ?_, ?_, ?_, ?_, ?_, ?_⟩
  · rcases compressEffect_cases a s with ⟨h, -⟩ | ⟨-, h⟩
    · exact absurd h h1
    · rw [h, e1]; simp only [Result.andThen]; rw [e2]; simp only; rw [e3]
  · obtain ⟨hv, hd, hn⟩ := ht
    exact ⟨hv, hd, hn⟩
  · intro v; rw [hleaf, hfreq]
  · intro v
    rw [← hcount v]
    have : freqAt s2 v.toNat = freqAt s1 v.toNat := by rw [← hs2]; rfl
    rw [← this]; rfl
  · intro v
    exact (codeString_of_tree ht.2.1 ht.2.2 rfl v).2
  · rw [← hs2, ← hs1]; rfl
  · intro i hi
    have hn : s2.nnode.toNat = nodes.length := by
      have := keyItems_length_le s1
      rw [← hs2, installTree_nnode, BitVec.toNat_ofNat]
      omega
    have kept : nodeAt s2 i = nodeAt s1 i := by rw [← hs2]; exact installTree_nodeAt_kept (hn ▸ hi)
    exact kept.trans (by rw [← hs1]; rfl)

end Sys2Proof.Machine
end

