-- ==== Sys2Proof/Laws/FirstOffender.lean ====
section
/-! SUPPORT. What `TreeCheck` reports: the first offending node in pre-order (spec/43_codes_and_tree_check.md R181). -/

namespace Sys2Proof.Machine

/-! ## The order of paths -/

/-- Two paths that part, the first to the left. -/
def pathLeft : List Bool → List Bool → Bool
  | a :: q, b :: p => (!a && b) || (a == b && pathLeft q p)
  | _, _           => false

theorem pathBefore_of_left {q p : List Bool} (h : pathLeft q p = true) : pathBefore q p = true := by
  induction q generalizing p with
  | nil => cases p <;> simp [pathLeft] at h
  | cons a q ih =>
    cases p with
    | nil => simp [pathLeft] at h
    | cons b p =>
      simp only [pathLeft, pathBefore, Bool.or_eq_true, Bool.and_eq_true] at h ⊢
      exact h.imp_right fun h => ⟨h.1, ih h.2⟩

theorem pathLeft_append {q p : List Bool} (h : pathLeft q p = true) (x y : List Bool) : pathLeft (q ++ x) (p ++ y) = true := by
  induction q generalizing p with
  | nil => cases p <;> simp [pathLeft] at h
  | cons a q ih =>
    cases p with
    | nil => simp [pathLeft] at h
    | cons b p =>
      simp only [List.cons_append, pathLeft, Bool.or_eq_true, Bool.and_eq_true] at h ⊢
      exact h.imp_right fun h => ⟨h.1, ih h.2⟩

theorem pathBefore_append {q p : List Bool} (h : pathBefore q p = true) (x : List Bool) : pathBefore q (p ++ x) = true := by
  induction q generalizing p with
  | nil => cases p <;> simp [pathBefore] at h ⊢
  | cons a q ih =>
    cases p with
    | nil => simp [pathBefore] at h
    | cons b p =>
      simp only [List.cons_append, pathBefore, Bool.or_eq_true, Bool.and_eq_true] at h ⊢
      exact h.imp_right fun h => ⟨h.1, ih h.2⟩

theorem pathBefore_extend (p : List Bool) (b : Bool) (x : List Bool) : pathBefore p (p ++ b :: x) = true := by
  induction p with
  | nil => rfl
  | cons a p ih => simp [pathBefore, ih]

theorem pathLeft_children (p : List Bool) : pathLeft (p ++ [false]) (p ++ [true]) = true := by
  induction p with
  | nil => rfl
  | cons a p ih => simp [pathLeft, ih]

theorem pathBefore_asymm {q p : List Bool} (h : pathBefore q p = true) : pathBefore p q = false := by
  induction q generalizing p with
  | nil => cases p <;> rfl
  | cons a q ih =>
    cases p with
    | nil => simp [pathBefore] at h
    | cons b p =>
      simp only [pathBefore, Bool.or_eq_true, Bool.and_eq_true, Bool.not_eq_true', beq_iff_eq] at h
      rcases h with ⟨rfl, rfl⟩ | ⟨rfl, h⟩
      · simp [pathBefore]
      · simp [pathBefore, ih h]

theorem pathBefore_total {q p : List Bool} (h : q ≠ p) : pathBefore q p = true ∨ pathBefore p q = true := by
  induction q generalizing p with
  | nil => cases p with
    | nil => exact absurd rfl h
    | cons b p => exact .inl rfl
  | cons a q ih =>
    cases p with
    | nil => exact .inr rfl
    | cons b p =>
      cases a <;> cases b <;> simp only [pathBefore, Bool.not_true, Bool.not_false, Bool.and_true, Bool.and_false, Bool.false_or,
        Bool.true_or, true_or, or_true, beq_self_eq_true, Bool.true_and]
      · exact ih fun e => h (by rw [e])
      · exact ih fun e => h (by rw [e])

/-! ## Paths in the arena -/

/-- A path in two parts. -/
theorem follow_append (nodeOf : Nat → Node) (p q : List Bool) (root : Nat) :
    follow nodeOf (p ++ q) root = (follow nodeOf p root).bind (follow nodeOf q) := by
  induction p generalizing root with
  | nil => rfl
  | cons a p ih =>
    simp only [List.cons_append, follow, ih]
    generalize (if a = true then (nodeOf root).right else (nodeOf root).left).toNat = child
    cases (nodeOf root).tag <;> by_cases h : Config.nodeMax ≤ child <;> simp [h]

/-- What the loop of `TreeCheck` knows after the paths `done`, with the paths `todo` of its stack to come. -/
structure Scanned (nodeOf : Nat → Node) (root : Nat) (done todo : List (List Bool)) (stack visited : List Nat)
    (seen : List Byte) : Prop where
  stack   : List.Forall₂ (fun i p => follow nodeOf p root = some i) stack todo
  cover   : ∀ q k, follow nodeOf q root = some k → q ∈ done ∨ ∃ p ∈ todo, p <+: q
  apart   : todo.Pairwise fun p p' => pathLeft p p' = true
  ordered : ∀ d ∈ done, ∀ p ∈ todo, pathBefore d p = true
  visited : ∀ k, k ∈ visited ↔ ∃ d ∈ done, follow nodeOf d root = some k
  seen    : ∀ v, v ∈ seen ↔ ∃ d ∈ done, ∃ k, follow nodeOf d root = some k ∧ (nodeOf k).tag = true ∧ (nodeOf k).sym = v
  clean   : ∀ d ∈ done, ¬ Offends nodeOf root d

/-- The paths before the head of the stack that lead somewhere are those done. -/
theorem Scanned.done_iff {nodeOf : Nat → Node} {root : Nat} {done todo : List (List Bool)} {stack visited : List Nat}
    {seen : List Byte} {p : List Bool} (h : Scanned nodeOf root done (p :: todo) stack visited seen) {q : List Bool} {k : Nat}
    (hq : follow nodeOf q root = some k) : q ∈ done ↔ pathBefore q p = true := by
  refine ⟨fun hd => h.ordered q hd p (by simp), fun hb => ?_⟩
  rcases h.cover q k hq with hd | ⟨p', hp', x, rfl⟩
  · exact hd
  · have hf : pathBefore p (p' ++ x) = true ∨ p' = p := by
      rcases List.mem_cons.1 hp' with rfl | hp'
      · exact .inr rfl
      · exact .inl (pathBefore_append (pathBefore_of_left ((List.pairwise_cons.1 h.apart).1 p' hp')) x)
    rcases hf with hf | rfl
    · rw [pathBefore_asymm hf] at hb; cases hb
    · cases x with
      | nil => rw [List.append_nil] at hb; have := pathBefore_asymm hb; rw [hb] at this; cases this
      | cons b x => rw [pathBefore_asymm (pathBefore_extend p' b x)] at hb; cases hb

/-- Whether the head of the stack offends, in the terms of the loop. -/
theorem Scanned.offends_iff {nodeOf : Nat → Node} {root : Nat} {done todo : List (List Bool)} {stack visited : List Nat}
    {seen : List Byte} {p : List Bool} {i : Nat} (h : Scanned nodeOf root done (p :: todo) (i :: stack) visited seen) :
    Offends nodeOf root p ↔ i ∈ visited ∨ ((nodeOf i).tag = true ∧ (nodeOf i).sym ∈ seen) ∨
      ((nodeOf i).tag = false ∧ (Config.nodeMax ≤ (nodeOf i).left.toNat ∨ Config.nodeMax ≤ (nodeOf i).right.toNat)) := by
  have hp : follow nodeOf p root = some i := (List.forall₂_cons.1 h.stack).1
  have nil_iff : ∀ x : NodeIdx, x = Config.nil ↔ Config.nodeMax ≤ x.toNat := by
    intro x
    have hx := x.isLt
    rw [← BitVec.toNat_inj, show Config.nil.toNat = 511 from rfl, Config.nodeMax]
    omega
  simp only [Offends, hp, Option.some.injEq, exists_eq_left', h.visited, h.seen, nil_iff]
  constructor
  · rintro (h1 | ⟨q, hb, hq⟩ | ⟨ht, q, k, hb, hq, hk, hs⟩)
    · exact .inr (.inr h1)
    · exact .inl ⟨q, (h.done_iff hq).2 hb, hq⟩
    · exact .inr (.inl ⟨ht, q, (h.done_iff hq).2 hb, k, hq, hk, hs⟩)
  · rintro (⟨q, hd, hq⟩ | ⟨ht, q, hd, k, hq, hk, hs⟩ | h1)
    · exact .inr (.inl ⟨q, (h.done_iff hq).1 hd, hq⟩)
    · exact .inr (.inr ⟨ht, q, k, (h.done_iff hq).1 hd, hq, hk, hs⟩)
    · exact .inl h1

/-- A Leaf that does not offend is done. -/
theorem Scanned.leaf {nodeOf : Nat → Node} {root : Nat} {done todo : List (List Bool)} {stack visited : List Nat}
    {seen : List Byte} {p : List Bool} {i : Nat} (h : Scanned nodeOf root done (p :: todo) (i :: stack) visited seen)
    (ht : (nodeOf i).tag = true) (ho : ¬ Offends nodeOf root p) :
    Scanned nodeOf root (p :: done) todo stack (i :: visited) ((nodeOf i).sym :: seen) := by
  obtain ⟨hp, hst⟩ := List.forall₂_cons.1 h.stack
  obtain ⟨hl, hap⟩ := List.pairwise_cons.1 h.apart
  refine ⟨hst, fun q k hq => ?_, hap, ?_, ?_, ?_, ?_⟩
  · rcases h.cover q k hq with hd | ⟨p', hp', x, rfl⟩
    · exact .inl (List.mem_cons_of_mem _ hd)
    · rcases List.mem_cons.1 hp' with rfl | hp'
      · cases x with
        | nil => simp
        | cons b x => rw [follow_append, hp] at hq; simp [follow, ht] at hq
      · exact .inr ⟨p', hp', _, rfl⟩
  · simp only [List.mem_cons, forall_eq_or_imp]
    exact ⟨fun p' hp' => pathBefore_of_left (hl p' hp'), fun d hd p' hp' => h.ordered d hd p' (List.mem_cons_of_mem _ hp')⟩
  · intro k; simp [h.visited, hp, @eq_comm _ k]
  · intro v; simp [h.seen, hp, ht, @eq_comm _ v]
  · simp only [List.mem_cons, forall_eq_or_imp]; exact ⟨ho, h.clean⟩

/-- An Internal node that does not offend is done, and its children are to come, left before right. -/
theorem Scanned.internal {nodeOf : Nat → Node} {root : Nat} {done todo : List (List Bool)} {stack visited : List Nat}
    {seen : List Byte} {p : List Bool} {i : Nat} (h : Scanned nodeOf root done (p :: todo) (i :: stack) visited seen)
    (ht : (nodeOf i).tag = false) (hlr : (nodeOf i).left.toNat < Config.nodeMax ∧ (nodeOf i).right.toNat < Config.nodeMax)
    (ho : ¬ Offends nodeOf root p) :
    Scanned nodeOf root (p :: done) ((p ++ [false]) :: (p ++ [true]) :: todo)
      ((nodeOf i).left.toNat :: (nodeOf i).right.toNat :: stack) (i :: visited) seen := by
  obtain ⟨hp, hst⟩ := List.forall₂_cons.1 h.stack
  obtain ⟨hl, hap⟩ := List.pairwise_cons.1 h.apart
  refine ⟨?_, fun q k hq => ?_, ?_, ?_, ?_, ?_, ?_⟩
  · refine .cons ?_ (.cons ?_ hst) <;>
      simp [follow_append, hp, follow, ht, Nat.not_le.2 hlr.1, Nat.not_le.2 hlr.2]
  · rcases h.cover q k hq with hd | ⟨p', hp', x, rfl⟩
    · exact .inl (List.mem_cons_of_mem _ hd)
    · rcases List.mem_cons.1 hp' with rfl | hp'
      · cases x with
        | nil => simp
        | cons b x => exact .inr ⟨p' ++ [b], by cases b <;> simp, x, by simp⟩
      · exact .inr ⟨p', by simp [hp'], _, rfl⟩
  · rw [List.pairwise_cons, List.pairwise_cons]
    refine ⟨?_, fun p' hp' => ?_, hap⟩
    · simp only [List.mem_cons, forall_eq_or_imp]
      exact ⟨pathLeft_children p, fun p' hp' => by simpa using pathLeft_append (hl p' hp') [false] []⟩
    · simpa using pathLeft_append (hl p' hp') [true] []
  · simp only [List.mem_cons, forall_eq_or_imp]
    refine ⟨⟨pathBefore_extend p _ _, pathBefore_extend p _ _, fun p' hp' => pathBefore_of_left (hl p' hp')⟩, fun d hd => ?_⟩
    have hdp := h.ordered d hd p (by simp)
    exact ⟨pathBefore_append hdp _, pathBefore_append hdp _, fun p' hp' => h.ordered d hd p' (List.mem_cons_of_mem _ hp')⟩
  · intro k; simp [h.visited, hp, @eq_comm _ k]
  · intro v; simp [h.seen, hp, ht]
  · simp only [List.mem_cons, forall_eq_or_imp]; exact ⟨ho, h.clean⟩

/-- The verdict of the loop: no node offends, or the first one that does is reported (R181). -/
theorem treeCheckLoop_first {nodeOf : Nat → Node} {root fuel : Nat} {done todo : List (List Bool)} {stack visited : List Nat}
    {seen : List Byte} (h : Scanned nodeOf root done todo stack visited seen) (hr : ∀ j ∈ stack, j < Config.nodeMax)
    (hv : ∀ j ∈ visited, j < Config.nodeMax) (hn : visited.Nodup) (hf : Config.nodeMax < visited.length + fuel) :
    (treeCheckLoop nodeOf fuel stack visited seen = .ok ∧ ∀ q, ¬ Offends nodeOf root q) ∨
    ∃ p i, treeCheckLoop nodeOf fuel stack visited seen = .bad (BitVec.ofNat 32 i) ∧ follow nodeOf p root = some i ∧
      Offends nodeOf root p ∧ ∀ q, pathBefore q p = true → ¬ Offends nodeOf root q := by
  induction fuel generalizing done todo stack visited seen with
  | zero =>
    have := (hn.subperm fun j hj => List.mem_range.2 (hv j hj)).length_le
    rw [List.length_range] at this; omega
  | succ fuel ih =>
    cases stack with
    | nil =>
      refine .inl ⟨by simp [treeCheckLoop], fun q hq => ?_⟩
      have ht : todo = [] := List.forall₂_nil_left_iff.1 h.stack
      obtain ⟨i, hi, -⟩ := id hq
      rcases h.cover q i hi with hd | ⟨p, hp, -⟩
      · exact h.clean q hd hq
      · simp [ht] at hp
    | cons i stack =>
      obtain ⟨p, todo, hp, hst, rfl⟩ := List.forall₂_cons_left_iff.1 h.stack
      have report : ∀ q, pathBefore q p = true → ¬ Offends nodeOf root q := by
        intro q hb hq
        obtain ⟨k, hk, -⟩ := id hq
        exact h.clean q ((h.done_iff hk).2 hb) hq
      have hi := hr i (by simp)
      have tail : ∀ j ∈ stack, j < Config.nodeMax := fun j hj => hr j (List.mem_cons_of_mem _ hj)
      have hv' : ∀ j ∈ i :: visited, j < Config.nodeMax := by
        simp only [List.mem_cons, forall_eq_or_imp]; exact ⟨hi, hv⟩
      have ho := h.offends_iff
      simp only [treeCheckLoop]
      by_cases hvis : i ∈ visited
      · have := ho.2 (.inl hvis)
        exact .inr ⟨p, i, by simp [hvis], hp, this, report⟩
      have hn' : (i :: visited).Nodup := List.nodup_cons.2 ⟨hvis, hn⟩
      have hf' : Config.nodeMax < (i :: visited).length + fuel := by rw [List.length_cons]; omega
      simp only [hvis, if_false, false_or] at ho ⊢
      cases ht : (nodeOf i).tag with
      | true =>
        simp only [if_true, ht, true_and, Bool.true_eq_false, false_and, or_false] at ho ⊢
        by_cases hs : (nodeOf i).sym ∈ seen
        · have := ho.2 hs
          exact .inr ⟨p, i, by simp [hs], hp, this, report⟩
        · simp only [hs, if_false]
          exact ih (h.leaf ht (by simp [ho, hs])) tail hv' hn' hf'
      | false =>
        simp only [Bool.false_eq_true, if_false, ht, true_and, false_and, false_or] at ho ⊢
        by_cases hlr : Config.nodeMax ≤ (nodeOf i).left.toNat ∨ Config.nodeMax ≤ (nodeOf i).right.toNat
        · have := ho.2 hlr
          exact .inr ⟨p, i, by simp [hlr], hp, this, report⟩
        · simp only [hlr, if_false]
          rw [not_or, Nat.not_le, Nat.not_le] at hlr
          refine ih (h.internal ht hlr (by rw [ho]; omega)) ?_ hv' hn' hf'
          simp only [List.mem_cons, forall_eq_or_imp]
          exact ⟨hlr.1, hlr.2, tail⟩

/-- With a valid `ROOT.IDX` below 511, `TreeCheck` accepts when no node offends, and else reports the first one that does. -/
theorem treeCheck_first {s : State} (hv : s.rootValid = true) (hr : s.rootIdx ≠ Config.nil) :
    (treeCheck s = .ok ∧ ∀ q, ¬ Offends (nodeAt s) s.rootIdx.toNat q) ∨
    ∃ i, treeCheck s = .bad (BitVec.ofNat 32 i) ∧ s.FirstOffender i := by
  have hlt : s.rootIdx.toNat < Config.nodeMax := by
    have hx := s.rootIdx.isLt
    have hne : s.rootIdx.toNat ≠ 511 := fun e => hr (BitVec.eq_of_toNat_eq (by rw [e]; rfl))
    simp only [Config.nodeMax]; omega
  simp only [treeCheck, hv, Bool.not_true, Bool.false_eq_true, if_false, Nat.not_le.2 hlt]
  have start : Scanned (nodeAt s) s.rootIdx.toNat [] [[]] [s.rootIdx.toNat] [] [] :=
    ⟨.cons rfl .nil, fun q _ _ => .inr ⟨[], by simp, List.nil_prefix⟩, by simp, by simp, by simp, by simp, by simp⟩
  rcases treeCheckLoop_first (fuel := Config.nodeMax + 1) start (by simpa using hlt) (by simp) (by simp) (by simp) with h | ⟨p, i, h1, h2, h3, h4⟩
  · exact .inl h
  · exact .inr ⟨i, h1, p, h2, h3, h4⟩

/-- A path stays in the arena. -/
theorem follow_lt {nodeOf : Nat → Node} {p : List Bool} {root i : Nat} (hr : root < Config.nodeMax)
    (h : follow nodeOf p root = some i) : i < Config.nodeMax := by
  induction p generalizing root with
  | nil => cases h; exact hr
  | cons b p ih =>
    simp only [follow] at h
    generalize (if b = true then (nodeOf root).right else (nodeOf root).left).toNat = child at h
    split at h
    · cases h
    · split at h
      · cases h
      · next hc => exact ih (Nat.not_le.1 hc) h

/-- There is at most one first offender. -/
theorem State.FirstOffender.unique {s : State} {i j : Nat} (hi : s.FirstOffender i) (hj : s.FirstOffender j) : i = j := by
  obtain ⟨p, hp, op, mp⟩ := hi
  obtain ⟨q, hq, oq, mq⟩ := hj
  by_cases e : q = p
  · subst e; rw [hp] at hq; exact Option.some.inj hq
  · rcases pathBefore_total e with h | h
    · exact absurd oq (mp q h)
    · exact absurd op (mq p h)

end Sys2Proof.Machine
end

