-- ==== Sys2Proof/Laws/HostPort.lean ====
section
/-! SUPPORT. The host port: what a write to `STATUS` comes to, how the address map decodes, and everything a host write can
do (spec/20_memory.md R73, R74, R77, spec/10_state.md R23). -/

namespace Sys2Proof.Machine

theorem State.busy_iff (s : State) : s.busy = true ↔ s.phase = .busy := by simp [State.busy]

theorem State.not_busy_iff (s : State) : s.busy = false ↔ s.phase = .idle := by
  simp only [State.busy]; cases s.phase <;> simp

/-- A write to `STATUS` as one update (R23, R279). -/
theorem writeStatus_eq (v : Word) (s : State) :
    writeStatus v s =
      { s with
        done := s.done && !v.getLsbD 1, err := s.err && !v.getLsbD 2, drop := s.drop && !v.getLsbD 4
        errCode := if v.getLsbD 2 && s.err then 0 else s.errCode
        errInfo := if v.getLsbD 2 && s.err then 0 else s.errInfo } := by
  unfold writeStatus clearError
  cases h2 : v.getLsbD 2 <;> cases h : s.err <;> simp [h]

/-- The offset part of a decoded address is word aligned and the address is its space and offset (R74). -/
theorem decodeAddr_eq (s : State) (a : BitVec 28) :
    decodeAddr s a = if a.toNat % 4 = 0 then targetAt s.maxLen s.maxBytes (a.toNat / 2 ^ 24) (a.toNat % 2 ^ 24 / 4) else none := by
  have h1 : (a.extractLsb' 0 24).toNat = a.toNat % 2 ^ 24 := by simp [BitVec.extractLsb'_toNat]
  have h2 : (a.extractLsb' 24 4).toNat = a.toNat / 2 ^ 24 := by
    simp only [BitVec.extractLsb'_toNat, Nat.shiftRight_eq_div_pow]
    have := a.isLt; omega
  simp only [decodeAddr, h1, h2]
  have : a.toNat % 2 ^ 24 % 4 = 0 ↔ a.toNat % 4 = 0 := by omega
  simp only [this]

/-- The register map: byte offsets and word offsets agree (R21, R22). -/
theorem regAt_eq_some (k : Nat) (r : Reg) : regAt k = some r ↔ 4 * k = r.offset := by
  by_cases h : k < 15
  · interval_cases k <;> cases r <;> decide
  · have h1 : regAt k = none := by
      unfold regAt
      split <;> first | rfl | omega
    rw [h1]
    constructor
    · intro e; cases e
    · intro e; cases r <;> simp only [Reg.offset] at e <;> omega

theorem regAt_eq_none (k : Nat) : regAt k = none ↔ 15 ≤ k := by
  constructor
  · intro h
    by_contra hk
    have hk' : k < 15 := by omega
    interval_cases k <;> cases h
  · intro h
    unfold regAt
    split <;> first | rfl | omega

/-- Every target the address map names is in range (R74). -/
def Target.inRange (maxLen maxBytes : Nat) : Target → Prop
  | .reg _    => True
  | .sym i    => i < maxLen
  | .byte i   => i < maxBytes
  | .freq v   => v < Config.nsym
  | .node i w => i < Config.nodeMax ∧ w < 4
  | .code v w => v < Config.nsym ∧ w < 9

/-- The space a target is in (R74). -/
def Target.space : Target → Nat
  | .reg _    => 0
  | .sym _    => 1
  | .byte _   => 2
  | .freq _   => 3
  | .node _ _ => 4
  | .code _ _ => 5

/-- The word offset of a target in its space (R74, R76, R78). -/
def Target.wordOffset : Target → Nat
  | .reg r    => r.offset / 4
  | .sym i    => i
  | .byte i   => i
  | .freq v   => v
  | .node i w => 4 * i + w
  | .code v w => 16 * v + w

/-- The address map, both ways: an offset names a target exactly when the target is in range and stands there. -/
theorem targetAt_eq_some (maxLen maxBytes space k : Nat) (t : Target) :
    targetAt maxLen maxBytes space k = some t ↔ t.inRange maxLen maxBytes ∧ space = t.space ∧ k = t.wordOffset := by
  have hs : space = 0 ∨ space = 1 ∨ space = 2 ∨ space = 3 ∨ space = 4 ∨ space = 5 ∨ 6 ≤ space := by omega
  rcases hs with rfl | rfl | rfl | rfl | rfl | rfl | hs
  · simp only [targetAt, Option.map_eq_some_iff]
    cases t with
    | reg r =>
      have h4 : r.offset % 4 = 0 := by cases r <;> decide
      simp only [Target.reg.injEq, Target.inRange, Target.space, Target.wordOffset, true_and, exists_eq_right, regAt_eq_some]
      omega
    | _ => simp [Target.space]
  · simp only [targetAt]
    cases t <;> simp [Target.inRange, Target.space, Target.wordOffset]
    omega
  · simp only [targetAt]
    cases t <;> simp [Target.inRange, Target.space, Target.wordOffset]
    omega
  · simp only [targetAt]
    cases t <;> simp [Target.inRange, Target.space, Target.wordOffset]
    omega
  · simp only [targetAt]
    cases t <;> simp [Target.inRange, Target.space, Target.wordOffset]
    omega
  · simp only [targetAt]
    cases t <;> simp [Target.inRange, Target.space, Target.wordOffset]
    omega
  · have : targetAt maxLen maxBytes space k = none := by
      unfold targetAt
      split <;> first | rfl | omega
    rw [this]
    constructor
    · intro e; cases e
    · rintro ⟨-, e, -⟩; cases t <;> simp only [Target.space] at e <;> omega

theorem decodeAddr_inRange {s : State} {a : BitVec 28} {t : Target} (h : decodeAddr s a = some t) :
    t.inRange s.maxLen s.maxBytes := by
  rw [decodeAddr_eq] at h
  split at h
  · exact ((targetAt_eq_some _ _ _ _ _).1 h).1
  · cases h

/-- Everything a host write can do (R73, R77, R79). -/
theorem hostWrite_cases (a : BitVec 28) (v : Word) (s : State) :
    (decodeAddr s a = none ∧ hostWrite a v s = { s with rsp := some (.write true) }) ∨
    (∃ t, decodeAddr s a = some t ∧ s.phase = .busy ∧ hostWrite a v s = { writeTargetBusy t v s with rsp := some (.write false) }) ∨
    (∃ t, decodeAddr s a = some t ∧ s.phase = .idle ∧ hostWrite a v s = { writeTarget t v s with rsp := some (.write false) }) := by
  unfold hostWrite
  split
  · next h => exact .inl ⟨h, rfl⟩
  · next t h =>
    right
    cases hb : s.busy with
    | true => exact .inl ⟨t, h, (s.busy_iff).1 hb, by simp⟩
    | false => exact .inr ⟨t, h, (s.not_busy_iff).1 hb, by simp⟩

/-- Everything a host write to a busy core can do: a write to `IE` or `STATUS`, or `DROP` (R77, R320). -/
theorem writeTargetBusy_cases (t : Target) (v : Word) (s : State) :
    (t = .reg .ie ∧ writeTargetBusy t v s = writeIe v s) ∨ (t = .reg .status ∧ writeTargetBusy t v s = writeStatus v s) ∨
      (t ≠ .reg .ie ∧ t ≠ .reg .status ∧ writeTargetBusy t v s = dropWrite s) := by
  cases t with
  | reg r => cases r <;> simp [writeTargetBusy]
  | _ => exact .inr (.inr ⟨nofun, nofun, rfl⟩)

/-- The words of `NODE` and `CODE` have no unimplemented bits (R76, R78). -/
theorem Inv.nodeWord_masked {s : State} (h : Inv s) (k : Nat) : nodeWordAt s k &&& nodeMask (k % 4) = nodeWordAt s k := by
  simp only [nodeWordAt, Memory.readWith]
  cases hl : Memory.lookup s.node k with
  | none => simp [BitVec.and_assoc]
  | some v => exact h.nodeBits k v hl

theorem Inv.codeWord_masked {s : State} (h : Inv s) (k : Nat) : codeWordAt s k &&& codeMask (k % 9) = codeWordAt s k := by
  simp only [codeWordAt, Memory.readWith]
  cases hl : Memory.lookup s.code k with
  | none => simp [BitVec.and_assoc]
  | some v => exact h.codeBits k v hl

/-- The words of a `NODE` element are what the host port reads (R76). -/
theorem Inv.nodeWords_nodeAt {s : State} (h : Inv s) (i : Nat) :
    nodeWords (nodeAt s i) = [nodeWordAt s (4 * i), nodeWordAt s (4 * i + 1), nodeWordAt s (4 * i + 2), nodeWordAt s (4 * i + 3)] := by
  have m := fun w (hw : w < 4) => show nodeWordAt s (4 * i + w) &&& nodeMask w = nodeWordAt s (4 * i + w) by
    have := h.nodeWord_masked (4 * i + w)
    rwa [show (4 * i + w) % 4 = w by omega] at this
  exact nodeWords_nodeOfWords (m 1 (by decide)) (m 2 (by decide)) (m 3 (by decide))

/-- Word 0 of a `CODE` element is `LEN`, with bits 31:8 zero (R78). -/
theorem Inv.codeWord_zero {s : State} (h : Inv s) (v : Nat) : codeWordAt s (9 * v) = (codeAt s v).len.setWidth 32 := by
  have m := h.codeWord_masked (9 * v)
  rw [show 9 * v % 9 = 0 by omega] at m
  have high : ∀ k, k < 32 → ¬ k < 8 → (codeMask 0).getLsbD k = false := by decide
  apply BitVec.eq_of_getLsbD_eq
  intro k hk
  simp only [codeAt, BitVec.getLsbD_setWidth, BitVec.getLsbD_extractLsb']
  by_cases h8 : k < 8
  · simp [h8, hk]
  · rw [getLsbD_of_masked m (high k hk h8)]; simp [h8]

/-- Everything a host read can do (R72, R77, R79). -/
theorem hostRead_cases (a : BitVec 28) (s : State) :
    (decodeAddr s a = none ∧ hostRead a s = { s with rsp := some (.read 0 true) }) ∨
    (∃ t, decodeAddr s a = some t ∧ s.phase = .busy ∧ t.readableWhileBusy = false ∧ hostRead a s = readAny s) ∨
    (∃ t, decodeAddr s a = some t ∧ (s.phase = .idle ∨ t.readableWhileBusy = true) ∧
      hostRead a s = { s with rsp := some (.read (readTarget s t) false) }) := by
  unfold hostRead
  split
  · next h => exact .inl ⟨h, rfl⟩
  · next t h =>
    right
    split
    · next hb =>
      simp only [Bool.and_eq_true, Bool.not_eq_true'] at hb
      exact .inl ⟨t, h, (s.busy_iff).1 hb.1, hb.2, rfl⟩
    · next hb =>
      refine .inr ⟨t, h, ?_, rfl⟩
      cases hp : s.phase with
      | idle => exact .inl rfl
      | busy =>
        right
        have := (s.busy_iff).2 hp
        simpa [this] using hb

end Sys2Proof.Machine
end

