-- ==== Sys2Proof/Laws/Invariant.lean ====
section
/-! SUPPORT. The part of the invariant that is about data (memories, counters, lengths, draws), and that every pseudocode,
every host access and reset keeps it. -/

namespace Sys2Proof.Machine

/-- The clauses of `Inv` about the instance, the memories, the counters, `BIT_LEN` and the draws. -/
structure DataInv (s : State) : Prop where
  instanceOk : s.InstanceOk
  symWf  : Memory.wf s.maxLen s.sym = true
  byteWf : Memory.wf s.maxBytes s.byte = true
  freqWf : Memory.wf Config.nsym s.freq = true
  nodeWf : Memory.wf (4 * Config.nodeMax) s.node = true
  codeWf : Memory.wf (9 * Config.nsym) s.code = true
  nodeBits : ∀ k v, Memory.lookup s.node k = some v → v &&& nodeMask (k % 4) = v
  codeBits : ∀ k v, Memory.lookup s.code k = some v → v &&& codeMask (k % 9) = v
  counters : (s.nnode = 0 ∧ s.nleaf = 0) ∨ (1 ≤ s.nleaf.toNat ∧ s.nleaf.toNat ≤ 256 ∧ s.nnode.toNat = 2 * s.nleaf.toNat - 1)
  bitLenBound : s.bitLen.toNat ≤ Config.capacityBound * Config.codeMax
  drawsUsed : s.symDraw < s.draws ∧ s.byteDraw < s.draws ∧ s.freqDraw < s.draws ∧ s.nodeDraw < s.draws ∧ s.codeDraw < s.draws
  drawsApart : [s.symDraw, s.byteDraw, s.freqDraw, s.nodeDraw, s.codeDraw].Nodup

theorem Inv.data {s : State} (h : Inv s) : DataInv s :=
  { instanceOk := h.instanceOk, symWf := h.symWf, byteWf := h.byteWf, freqWf := h.freqWf, nodeWf := h.nodeWf
    codeWf := h.codeWf, nodeBits := h.nodeBits, codeBits := h.codeBits, counters := h.counters
    bitLenBound := h.bitLenBound, drawsUsed := h.drawsUsed, drawsApart := h.drawsApart }

/-! ## The memories the commands write -/

theorem arenaWords_masked (nodes : List Node) (k : Nat) (v : Word) (h : (arenaWords nodes)[k]? = some v) :
    v &&& nodeMask (k % 4) = v := by
  rw [show k = 4 * (k / 4) + k % 4 by omega, arenaWords_getElem? _ _ _ (Nat.mod_lt _ (by omega))] at h
  cases hn : nodes[k / 4]? with
  | none => rw [hn] at h; cases h
  | some n => rw [hn] at h; exact nodeWords_masked n _ (Nat.mod_lt _ (by omega)) v h

theorem codeTableWords_masked (f : Nat → Code) (k : Nat) (v : Word) (h : (codeTableWords f)[k]? = some v) :
    v &&& codeMask (k % 9) = v := by
  have hk : k < 9 * Config.nsym := by
    by_contra hc
    rw [List.getElem?_eq_none (by rw [codeTableWords_length]; omega)] at h; cases h
  rw [show k = 9 * (k / 9) + k % 9 by omega,
    codeTableWords_getElem? f (k / 9) (k % 9) (by omega) (Nat.mod_lt _ (by omega))] at h
  exact codeWords_masked _ _ (Nat.mod_lt _ (by omega)) v h

theorem codeTable_inv (f : Nat → Code) :
    Memory.wf (9 * Config.nsym) (Memory.ofList (codeTableWords f)) = true ∧
    ∀ k v, Memory.lookup (Memory.ofList (codeTableWords f)) k = some v → v &&& codeMask (k % 9) = v := by
  refine ⟨wf_ofList (Nat.le_of_eq (codeTableWords_length f)), fun k v h => ?_⟩
  rw [lookup_ofList] at h
  exact codeTableWords_masked f k v h

theorem emptyTable_inv :
    Memory.wf (9 * Config.nsym) emptyCodeTable = true ∧
    ∀ k v, Memory.lookup emptyCodeTable k = some v → v &&& codeMask (k % 9) = v := codeTable_inv fun _ => noCode

theorem arena_inv {m : Memory Word} (hw : Memory.wf (4 * Config.nodeMax) m = true)
    (hb : ∀ k v, Memory.lookup m k = some v → v &&& nodeMask (k % 4) = v) {nodes : List Node}
    (hl : nodes.length ≤ Config.nodeMax) :
    Memory.wf (4 * Config.nodeMax) (Memory.writePrefix m (arenaWords nodes)) = true ∧
    ∀ k v, Memory.lookup (Memory.writePrefix m (arenaWords nodes)) k = some v → v &&& nodeMask (k % 4) = v := by
  refine ⟨wf_writePrefix hw (by rw [arenaWords_length]; omega), fun k v h => ?_⟩
  rw [lookup_writePrefix] at h
  split at h
  · exact arenaWords_masked nodes k v h
  · exact hb k v h

/-! ## The pseudocodes -/

theorem analyzeEffect_data {s : State} (h : DataInv s) : DataInv (analyzeEffect s).state := by
  rcases analyzeEffect_cases s with ⟨-, he⟩ | ⟨-, he⟩ <;> rw [he]
  · exact h
  · exact { h with freqWf := wf_ofList (Nat.le_of_eq (countTable_length _)) }

theorem buildEffect_data (a : Alg) {s : State} (h : DataInv s) : DataInv (buildEffect a s).state := by
  by_cases hk : keyItems s = []
  · have : buildEffect a s = noTree s := by cases a <;> simp [buildEffect, buildSfEffect, buildHufEffect, hk]
    rw [this]
    exact { h with counters := .inl ⟨rfl, rfl⟩ }
  · obtain ⟨nodes, tr, he, hl, -, -⟩ := buildEffect_holds a hk
    have hpos := List.length_pos_iff.2 hk
    have hle := keyItems_length_le s
    rw [he]
    obtain ⟨hw, hb⟩ := arena_inv h.nodeWf h.nodeBits (nodes := nodes) (by rw [hl]; simp only [Config.nodeMax]; omega)
    refine { h with nodeWf := hw, nodeBits := hb, counters := .inr ?_ }
    simp only [Result.state, installTree, BitVec.toNat_ofNat, hl]
    omega

theorem gencodesEffect_data {s : State} (h : DataInv s) : DataInv (gencodesEffect s).state := by
  rcases gencodesEffect_cases s with ⟨-, he⟩ | ⟨_, -, he⟩ <;> rw [he]
  · obtain ⟨hw, hb⟩ := codeTable_inv (entryOf (treeCodes (nodeAt s) s.rootIdx.toNat))
    exact { h with codeWf := hw, codeBits := hb }
  · exact { h with codeWf := emptyTable_inv.1, codeBits := emptyTable_inv.2 }

theorem forgetByte_data {s : State} (h : DataInv s) : DataInv (forgetByte s) := by
  obtain ⟨h1, h2, h3, h4, h5⟩ := h.drawsUsed
  have ha := h.drawsApart
  refine { h with byteWf := rfl, drawsUsed := ?_, drawsApart := ?_ }
  · simp only [forgetByte]; omega
  · simp only [forgetByte, List.nodup_cons, List.mem_cons, List.not_mem_nil, or_false, not_or,
      List.nodup_nil, not_false_eq_true, and_true] at ha ⊢; omega

theorem forgetSym_data {s : State} (h : DataInv s) : DataInv (forgetSym s) := by
  obtain ⟨h1, h2, h3, h4, h5⟩ := h.drawsUsed
  have ha := h.drawsApart
  refine { h with symWf := rfl, drawsUsed := ?_, drawsApart := ?_ }
  · simp only [forgetSym]; omega
  · simp only [forgetSym, List.nodup_cons, List.mem_cons, List.not_mem_nil, or_false, not_or,
      List.nodup_nil, not_false_eq_true, and_true] at ha ⊢; omega

theorem packFailed_data {s : State} (h : DataInv s) : DataInv (packFailed s) :=
  forgetByte_data { h with bitLenBound := Nat.zero_le _ }

theorem flatMap_length_le {codeOf : Byte → List Bool} {n : Nat} (hc : ∀ v, (codeOf v).length ≤ n) (syms : List Byte) :
    (syms.flatMap codeOf).length ≤ n * syms.length := by
  induction syms with
  | nil => simp
  | cons v syms ih =>
    have := hc v
    rw [List.flatMap_cons, List.length_append, List.length_cons, Nat.mul_add]; omega

theorem codeString_length (s : State) (v : Nat) : (codeString s v).length ≤ Config.codeMax := by
  simp only [codeString, List.length_map, List.length_range, codeLen, Config.codeMax]
  have := ((codeWordAt s (9 * v)).extractLsb' 0 8).isLt
  omega

theorem packEffect_data {s : State} (h : DataInv s) : DataInv (packEffect s).state := by
  rcases packEffect_cases s with ⟨-, he⟩ | ⟨-, e, -, -, he⟩ | ⟨hl, st, hst, he⟩ <;> rw [he]
  · exact packFailed_data h
  · exact packFailed_data h
  · obtain ⟨-, hs, hfit⟩ := packStream_ok hst
    have hfit := hfit (by omega)
    rw [Nat.zero_add] at hfit
    obtain ⟨p1, p2, p3⟩ := padding_facts st.length
    have hlen : st.length ≤ Config.codeMax * s.symLen.toNat := by
      have := flatMap_length_le (codeOf := fun v => codeString s v.toNat) (fun v => codeString_length s v.toNat)
        (symbols s s.symLen.toNat)
      rwa [← hs, symbols_length] at this
    have hml := h.instanceOk.2.1
    have hg := (groupBytes_spec ((st.length + 7) / 8) (st ++ List.replicate (padding st.length) false)
      (by rw [List.length_append, List.length_replicate]; omega)).1
    refine { h with byteWf := ?_, bitLenBound := ?_ }
    · exact wf_writePrefix h.byteWf (by rw [hg]; exact hfit)
    · simp only [Result.state, storePayload, BitVec.toNat_ofNat]
      have : Config.codeMax * s.symLen.toNat ≤ Config.codeMax * Config.capacityBound :=
        Nat.mul_le_mul_left _ (by omega)
      have := Nat.mod_le st.length (2 ^ 32)
      rw [Nat.mul_comm Config.capacityBound]; omega

theorem unpackEffect_data {s : State} (h : DataInv s) : DataInv (unpackEffect s).state := by
  rcases unpackEffect_cases s with ⟨-, he⟩ | ⟨-, e, he, -⟩ | ⟨-, -, -, -, syms, hs, he⟩ <;> rw [he]
  · exact { h with }
  · exact forgetSym_data (s := { s with symLen := 0 }) { h with }
  · have hl := unpackLoop_length (Nat.zero_le _) hs
    exact { h with symWf := wf_writePrefix h.symWf (by omega) }

theorem andThen_data {r : Result} {f : State → Result} (h : DataInv r.state) (hf : ∀ t, DataInv t → DataInv (f t).state) :
    DataInv (r.andThen f).state := by
  cases r with
  | ok t => exact hf t h
  | raised e t => exact h

theorem compressEffect_data (a : Alg) {s : State} (h : DataInv s) : DataInv (compressEffect a s).state := by
  have h0 : DataInv (emptyPayload s) := { h with bitLenBound := Nat.zero_le _ }
  rcases compressEffect_cases a s with ⟨-, he⟩ | ⟨-, he⟩ <;> rw [he]
  · exact { h0 with counters := .inl ⟨rfl, rfl⟩, codeWf := emptyTable_inv.1, codeBits := emptyTable_inv.2 }
  · exact andThen_data (andThen_data (andThen_data (analyzeEffect_data h0) fun _ => buildEffect_data a)
      fun _ => gencodesEffect_data) fun _ => packEffect_data

theorem clearTables_data {s : State} (h : DataInv s) : DataInv (clearTables s) := by
  have hl : ((List.replicate Config.nodeMax clearedNode).flatMap nodeWords).length = 4 * Config.nodeMax := by
    have := arenaWords_length (List.replicate Config.nodeMax clearedNode)
    rwa [List.length_replicate] at this
  refine { h with freqWf := ?_, nodeWf := ?_, codeWf := emptyTable_inv.1, nodeBits := ?_, codeBits := emptyTable_inv.2
                  counters := .inl ⟨rfl, rfl⟩, bitLenBound := Nat.zero_le _ }
  · exact wf_ofList (by rw [List.length_replicate])
  · exact wf_ofList (Nat.le_of_eq hl)
  · intro k v hv
    rw [clearTables_node, lookup_ofList] at hv
    exact arenaWords_masked (List.replicate Config.nodeMax clearedNode) k v hv

/-- Every pseudocode keeps the data invariant. -/
theorem effect_data (i : Instr) {s : State} (h : DataInv s) : DataInv (effectOf i s).state := by
  cases i with
  | nop => exact h
  | analyze => exact analyzeEffect_data h
  | buildSf => exact buildEffect_data .shannonFano h
  | buildHuf => exact buildEffect_data .huffman h
  | gencodes => exact gencodesEffect_data h
  | pack => exact packEffect_data h
  | unpack => exact unpackEffect_data h
  | compress a => exact compressEffect_data a h
  | decompress =>
    rcases decompressEffect_cases s with ⟨-, he⟩ | ⟨-, -, he⟩ <;> simp only [effectOf, he]
    · exact { h with }
    · exact unpackEffect_data h
  | checktree =>
    rcases checktreeEffect_cases s with ⟨-, he⟩ | ⟨_, -, he⟩ <;> simp only [effectOf, he] <;> exact h
  | clear => exact clearTables_data h

/-! ## The host -/

theorem nodeMask_idem (v : Word) (w : Nat) : (v &&& nodeMask w) &&& nodeMask w = v &&& nodeMask w := by
  rw [BitVec.and_assoc, BitVec.and_self]

theorem codeMask_idem (v : Word) (w : Nat) : (v &&& codeMask w) &&& codeMask w = v &&& codeMask w := by
  rw [BitVec.and_assoc, BitVec.and_self]

/-- A host write of a memory word keeps the data invariant (R73, R75, R76, R78). -/
theorem writeTarget_data {s : State} (h : DataInv s) {t : Target} (hr : t.inRange s.maxLen s.maxBytes)
    (hm : ∀ r, t ≠ .reg r) (v : Word) : DataInv (writeTarget t v s) := by
  cases t with
  | reg r => exact absurd rfl (hm r)
  | sym i => exact { h with symWf := wf_put h.symWf hr _ }
  | byte i => exact { h with byteWf := wf_put h.byteWf hr _ }
  | freq i => exact { h with freqWf := wf_put h.freqWf hr _ }
  | node i w =>
    simp only [Target.inRange] at hr
    refine { h with nodeWf := wf_put h.nodeWf (by omega) _, nodeBits := ?_ }
    intro k x hx
    simp only [writeTarget, lookup_put] at hx
    split at hx
    · next hk => cases hx; subst hk; rw [show (4 * i + w) % 4 = w by omega]; exact nodeMask_idem v w
    · exact h.nodeBits k x hx
  | code i w =>
    simp only [Target.inRange] at hr
    refine { h with codeWf := wf_put h.codeWf (by omega) _, codeBits := ?_ }
    intro k x hx
    simp only [writeTarget, lookup_put] at hx
    split at hx
    · next hk => cases hx; subst hk; rw [show (9 * i + w) % 9 = w by omega]; exact codeMask_idem v w
    · exact h.codeBits k x hx

theorem forgetMemories_data {s : State} (hi : s.InstanceOk)
    (hc : (s.nnode = 0 ∧ s.nleaf = 0) ∨ (1 ≤ s.nleaf.toNat ∧ s.nleaf.toNat ≤ 256 ∧ s.nnode.toNat = 2 * s.nleaf.toNat - 1))
    (hb : s.bitLen.toNat ≤ Config.capacityBound * Config.codeMax) : DataInv (forgetMemories s) where
  instanceOk := hi
  symWf := rfl
  byteWf := rfl
  freqWf := rfl
  nodeWf := rfl
  codeWf := rfl
  nodeBits := fun k v h => by simp [Memory.lookup] at h
  codeBits := fun k v h => by simp [Memory.lookup] at h
  counters := hc
  bitLenBound := hb
  drawsUsed := by simp only [forgetMemories]; omega
  drawsApart := by simp [forgetMemories]

end Sys2Proof.Machine
end

