-- ==== Sys2Proof/Laws/PerInstr.lean ====
section
/-! SUPPORT. The family `LegalWord`: the word of every command passes the three checks of spec/30_encoding.md R106. -/

namespace Sys2Proof.Laws.LegalWord

/-- The fields of the command's word are well formed. -/
def Statement (i : Instr) : Prop := (splitWord (encode i)).wellFormed = true

theorem nop : Statement .nop := encode_wellFormed _
theorem analyze : Statement .analyze := encode_wellFormed _
theorem buildSf : Statement .buildSf := encode_wellFormed _
theorem buildHuf : Statement .buildHuf := encode_wellFormed _
theorem gencodes : Statement .gencodes := encode_wellFormed _
theorem pack : Statement .pack := encode_wellFormed _
theorem unpack : Statement .unpack := encode_wellFormed _
theorem compress (alg : Alg) : Statement (.compress alg) := encode_wellFormed _
theorem decompress : Statement .decompress := encode_wellFormed _
theorem checktree : Statement .checktree := encode_wellFormed _
theorem clear : Statement .clear := encode_wellFormed _

end Sys2Proof.Laws.LegalWord
end

