-- ==== Sys2Proof/Tests/Slice0.lean ====
section
/-! SUPPORT. Tests of the model. Expected values are those of spec/95_test_vectors.md (the vector's name stands with the test)
or of the rule named; every test is one step on a small state. The last part shows, for every statement that has
hypotheses, a state and operands that meet them. -/

namespace Sys2Proof.Tests

/- The tests are elaborated one after another: tests that wait side by side for the kernel hold a thread each. -/
set_option Elab.async false

open Sys2Proof Sys2Proof.Machine

/-! ## Well-formedness refuses each ill-formed term (R106) -/

theorem test_reserved_opcode_refused : Fields.opcodeOk { opcode := 0x0B, alg := false, reserved := 0 } = false := by decide
theorem test_last_opcode_accepted : Fields.opcodeOk { opcode := 0x0A, alg := false, reserved := 0 } = true := by decide
theorem test_reserved_bit_refused : Fields.reservedOk { opcode := 0x01, alg := false, reserved := 1 } = false := by decide
theorem test_alg_without_compress_refused : Fields.algOk { opcode := 0x08, alg := true, reserved := 0 } = false := by decide
theorem test_each_check_counts :
    Fields.wellFormed { opcode := 0xFF, alg := false, reserved := 0 } = false ∧
    Fields.wellFormed { opcode := 0x00, alg := false, reserved := 0x400000 } = false ∧
    Fields.wellFormed { opcode := 0x06, alg := true, reserved := 0 } = false ∧
    Fields.wellFormed { opcode := 0x07, alg := true, reserved := 0 } = true := by decide

/-! ## Decoding: the word of every command, bits 31:9, bit 8, bits 7:0 (R100, R101) -/

theorem test_decode_nop        : decode (0#23 ++ (0b0#1 ++ 0b00000000#8)) = .ok .nop := by decide
theorem test_decode_analyze    : decode (0#23 ++ (0b0#1 ++ 0b00000001#8)) = .ok .analyze := by decide
theorem test_decode_build_sf   : decode (0#23 ++ (0b0#1 ++ 0b00000010#8)) = .ok .buildSf := by decide
theorem test_decode_build_huf  : decode (0#23 ++ (0b0#1 ++ 0b00000011#8)) = .ok .buildHuf := by decide
theorem test_decode_gencodes   : decode (0#23 ++ (0b0#1 ++ 0b00000100#8)) = .ok .gencodes := by decide
theorem test_decode_pack       : decode (0#23 ++ (0b0#1 ++ 0b00000101#8)) = .ok .pack := by decide
theorem test_decode_unpack     : decode (0#23 ++ (0b0#1 ++ 0b00000110#8)) = .ok .unpack := by decide
theorem test_decode_compress_sf  : decode (0#23 ++ (0b0#1 ++ 0b00000111#8)) = .ok (.compress .shannonFano) := by decide
theorem test_decode_compress_huf : decode (0#23 ++ (0b1#1 ++ 0b00000111#8)) = .ok (.compress .huffman) := by decide
theorem test_decode_decompress : decode (0#23 ++ (0b0#1 ++ 0b00001000#8)) = .ok .decompress := by decide
theorem test_decode_checktree  : decode (0#23 ++ (0b0#1 ++ 0b00001001#8)) = .ok .checktree := by decide
theorem test_decode_clear      : decode (0#23 ++ (0b0#1 ++ 0b00001010#8)) = .ok .clear := by decide
theorem test_decode_rejects_by_name :
    decode 0x0B = .error .reservedOpcode ∧ decode 0x80000001 = .error .reservedBits ∧
    decode 0x10A = .error .algWithoutCompress := by decide

/-! ## Small states -/

/-- The state of a next outcome. -/
def after : Host.Outcome State Fault Refusal → Option State
  | .next s => some s
  | .fault _ => none
  | .refused _ => none

/-- Reset with these symbols loaded (`LOADSYM`, spec/30_encoding.md R108). -/
def withSymbols (syms : List Byte) : State := { State.reset with sym := Memory.ofList syms, symLen := BitVec.ofNat 32 syms.length }

/-- Reset with these bytes loaded and this padding. -/
def withBytes (bytes : List Byte) (pad : Word) (s : State) : State :=
  { s with byte := Memory.ofList bytes, byteLen := BitVec.ofNat 32 bytes.length, pad := pad }

/-- Reset with all 256 counts written: those listed, else 0. -/
def withCounts (counts : List (Nat × Word)) : State :=
  { State.reset with freq := Memory.ofList ((List.range 256).map fun v => (Memory.lookup counts v).getD 0) }

/-- Reset with these nodes in the arena from index 0 and the root at `root`. -/
def withArena (nodes : List Node) (root : NodeIdx) : State :=
  { State.reset with node := Memory.ofList (nodes.flatMap nodeWords), rootValid := true, rootIdx := root }

/-- Base tree B of spec/95_test_vectors.md 2.4: a "0", b "1". -/
def treeB : State := withArena [leafNode 0x61 1, leafNode 0x62 1, internalNode 0 1 2] 2

/-- A bare Leaf (tree L of 2.7). -/
def bareLeaf : State := withArena [leafNode 0x61 4] 0

/-- Tree M of 2.7: the Huffman tree of "mississippi" (HF2). -/
def treeM : State :=
  withArena [leafNode 0x69 4, leafNode 0x6D 1, leafNode 0x70 2, leafNode 0x73 4, internalNode 1 2 3, internalNode 4 0 7,
    internalNode 3 5 11] 6

/-- A code table with the codes of the symbols 0 and 1 given, all 256 entries written. -/
def withCodes (c0 c1 : Code) (s : State) : State :=
  { s with code := Memory.ofList (codeTableWords fun v => if v = 0 then c0 else if v = 1 then c1 else noCode) }

/-- The keys of a table given by its counts. -/
def keysOf (counts : List (Nat × Word)) : List Item :=
  (List.range 256).filterMap fun v =>
    if (Memory.lookup counts v).getD 0 = 0 then none
    else some { sym := BitVec.ofNat 8 v, freq := (Memory.lookup counts v).getD 0 }

theorem freqAt_withCounts (counts : List (Nat × Word)) {v : Nat} (h : v < 256) :
    freqAt (withCounts counts) v = (Memory.lookup counts v).getD 0 := by
  rw [freqAt]
  exact (readWith_ofList _ _ v (by simpa using h)).trans (by simp)

theorem keyItems_withCounts (counts : List (Nat × Word)) : keyItems (withCounts counts) = keysOf counts :=
  List.filterMap_congr fun v hv => by rw [freqAt_withCounts counts (List.mem_range.1 hv)]

/-- The result of a build on a table with these keys. -/
theorem buildSf_withCounts {counts : List (Nat × Word)} {items : List Item} (h : keysOf counts = items) (hne : items ≠ []) :
    exec .buildSf (withCounts counts) =
      .next (finishOk (installTree ((sfTree (sortItems items).length (sortItems items)).postorder 0) items.length
        (withCounts counts))) := by
  have hk : keyItems (withCounts counts) = items := (keyItems_withCounts counts).trans h
  simp [exec, execBuildSf, buildSfEffect, shannonFanoTree, hk, hne, complete, finish]

theorem buildHuf_withCounts {counts : List (Nat × Word)} {items : List Item} (h : keysOf counts = items) (hne : items ≠ []) :
    exec .buildHuf (withCounts counts) =
      .next (finishOk (installTree (huffmanNodes items) items.length (withCounts counts))) := by
  have hk : keyItems (withCounts counts) = items := (keyItems_withCounts counts).trans h
  simp [exec, execBuildHuf, buildHufEffect, hk, hne, complete, finish]

/-- Reset with a command word accepted and running. -/
def running (w : Word) : State := acceptCommand w State.reset

/-! ## One step per instruction -/

/-- SY18: after `NOP`, `STATUS = 0x002`. -/
theorem test_nop : ((after (step (running 0x00))).map fun t => (statusWord t, t.cmd)) = some (0x002, 0x00) := by decide

/-- AN4: the counts of `FF 00 FF`. -/
theorem test_analyze_counts :
    ((after (exec .analyze (withSymbols [0xFF, 0x00, 0xFF]))).map fun t => [0x00, 0x01, 0xFF].map (freqAt t)) =
      some [1, 0, 2] := by decide +kernel

/-- AN5: `SYM_LEN` above `MAXLEN`. -/
theorem test_analyze_too_long :
    ((after (exec .analyze { withCounts [(0x41, 7)] with symLen := 65537 })).map fun t =>
      (statusWord t, t.errInfo, freqAt t 0x41)) = some (0x706, 0x020, 7) := by decide +kernel

/-- SF4: the exact half; post-order numbering. -/
theorem test_build_sf_nodes :
    ∃ t, exec .buildSf (withCounts [(0x61, 2), (0x62, 2), (0x63, 2), (0x64, 1)]) = .next t ∧
      ((List.range 7).map (nodeAt t), rootWord t, t.nnode, t.nleaf) =
        ([leafNode 0x61 2, leafNode 0x62 2, internalNode 0 1 4, leafNode 0x63 2, leafNode 0x64 1, internalNode 3 4 3,
          internalNode 2 5 7], 0x80000006, 7, 4) :=
  ⟨_, buildSf_withCounts (items := [⟨0x61, 2⟩, ⟨0x62, 2⟩, ⟨0x63, 2⟩, ⟨0x64, 1⟩]) (by decide +kernel) (by decide),
    by decide +kernel⟩

/-- SF13: an all-zero table; `VALID` cleared, `IDX` kept. -/
theorem test_build_sf_empty :
    ∃ t, exec .buildSf { withCounts [] with rootValid := true, rootIdx := 5, nnode := 3 } = .next t ∧
      (statusWord t, t.errInfo, rootWord t, t.nnode) = (0x106, 0, 0x00000005, 0) := by
  have hk : keyItems { withCounts [] with rootValid := true, rootIdx := 5, nnode := 3 } = [] :=
    (keyItems_withCounts []).trans (by decide +kernel)
  exact ⟨_, by rw [exec, execBuildSf, buildSfEffect, if_pos hk]; rfl, by decide⟩

/-- HF2: a tie by index, and an Internal node as left child. -/
theorem test_build_huf_nodes :
    ∃ t, exec .buildHuf (withCounts [(0x69, 4), (0x6D, 1), (0x70, 2), (0x73, 4)]) = .next t ∧
      ((List.range 7).map (nodeAt t), rootWord t, t.nnode, t.nleaf) =
        ([leafNode 0x69 4, leafNode 0x6D 1, leafNode 0x70 2, leafNode 0x73 4, internalNode 1 2 3, internalNode 4 0 7,
          internalNode 3 5 11], 0x80000006, 7, 4) :=
  ⟨_, buildHuf_withCounts (items := [⟨0x69, 4⟩, ⟨0x6D, 1⟩, ⟨0x70, 2⟩, ⟨0x73, 4⟩]) (by decide +kernel) (by decide),
    by decide +kernel⟩

/-- HF11: a 40-bit weight, read as two words. -/
theorem test_build_huf_weight :
    ∃ t, exec .buildHuf (withCounts [(0x00, 0xFFFFFFFF), (0x01, 0xFFFFFFFF)]) = .next t ∧
      (readTarget t (.node 2 0), readTarget t (.node 2 1)) = (0xFFFFFFFE, 0x00000001) :=
  ⟨_, buildHuf_withCounts (items := [⟨0x00, 0xFFFFFFFF⟩, ⟨0x01, 0xFFFFFFFF⟩]) (by decide +kernel) (by decide),
    by decide +kernel⟩

/-- By hand from R183: four leaves at depth two, the left subtree's symbols 2 and 3, the right one's 0 and 1; no other entry
is written. -/
theorem test_gencodes_table :
    ((after (exec .gencodes (withArena [leafNode 0 1, leafNode 1 1, internalNode 0 1 2, leafNode 2 1, leafNode 3 1,
      internalNode 3 4 2, internalNode 5 2 4] 6))).map fun t => [0, 1, 2, 3, 4].map fun v => ((codeAt t v).len, (codeAt t v).bits)) =
      some [(2, 2), (2, 3), (2, 0), (2, 1), (0, 0)] := by decide +kernel

/-- GC16: a malformed tree empties the table. -/
theorem test_gencodes_malformed :
    ((after (exec .gencodes (withCodes { len := 1, bits := 0 } noCode
      (withArena [leafNode 0x61 1, leafNode 0x62 1, internalNode 0 511 2] 2)))).map fun t =>
      (statusWord t, t.errInfo, codeLen t 0)) = some (0x406, 2, 0) := by decide +kernel

/-- PK12, with the symbol 0 for 'a': a code of 33 bits, in two words of `BITS`. -/
theorem test_pack_long_code :
    ((after (exec .pack (withCodes { len := 33, bits := 0x100000001 } noCode (withSymbols [0])))).map fun t =>
      ((List.range 5).map (byteAt t), t.bitLen, t.pad, t.byteLen)) =
      some ([0x80, 0, 0, 0, 0x80], 33, 7, 5) := by decide +kernel

/-- PK11, with the symbols 0, 1, 2 for "abc": the first symbol without a code; the lengths are 0. -/
theorem test_pack_unknown :
    ((after (exec .pack (withCodes { len := 1, bits := 0 } { len := 1, bits := 1 } (withSymbols [0, 1, 2])))).map fun t =>
      (statusWord t, t.errInfo, t.bitLen, t.byteLen)) = some (0x206, 2, 0, 0) := by decide +kernel

/-- UP1: "mississippi". -/
theorem test_unpack_mississippi :
    ((after (exec .unpack (withBytes [0x99, 0x9D, 0xB8] 3 treeM))).map fun t => (symbols t 11, t.symLen, statusWord t)) =
      some ([0x6D, 0x69, 0x73, 0x73, 0x69, 0x73, 0x73, 0x69, 0x70, 0x70, 0x69], 11, 0x002) := by decide +kernel

/-- UP17: the payload ends inside a code. -/
theorem test_unpack_cut :
    ((after (exec .unpack (withBytes [0x99, 0x9D, 0xB8] 4 treeM))).map fun t => (statusWord t, t.errInfo, t.symLen)) =
      some (0x306, 20, 0) := by decide +kernel

/-- 1.3: `COMPRESS.HUF` of "ab". -/
theorem test_compress_ab :
    ∃ t, exec (.compress .huffman) (withSymbols [0x61, 0x62]) = .next t ∧
      (byteAt t 0, t.bitLen, t.pad, t.byteLen, rootWord t, t.err, t.empty) = (0x40, 2, 6, 1, 0x80000002, false, false) :=
  ⟨_, exec_eq _ _, by decide +kernel⟩

/-- 1.4: `COMPRESS.SF` of the empty sequence: `DONE` and `EMPTY`. -/
theorem test_compress_empty :
    ((after (exec (.compress .shannonFano) (withSymbols []))).map fun t => (statusWord t, t.byteLen, rootWord t, codeLen t 0)) =
      some (0x00A, 0, 0, 0) := by decide +kernel

/-- 1.3: `DECOMPRESS` of the payload of "ab". -/
theorem test_decompress_ab :
    ((after (exec .decompress (withBytes [0x40] 6 treeB))).map fun t => (symbols t 2, t.symLen)) = some ([0x61, 0x62], 2) := by
  decide +kernel

/-- FC14: the guard looks at `ROOT.VALID` before any operand check. -/
theorem test_decompress_absent :
    ((after (exec .decompress { State.reset with byteLen := 131073, pad := 9, symLen := 3 })).map fun t =>
      (statusWord t, t.symLen)) = some (0x002, 0) := by decide

/-- CT5: a cycle. -/
theorem test_checktree_cycle :
    ((after (exec .checktree (withArena [leafNode 0x61 1, leafNode 0x62 1, internalNode 2 1 2] 2))).map fun t =>
      (statusWord t, t.errInfo)) = some (0x406, 2) := by decide +kernel

/-- CT7: two leaves with one symbol; the second one met is reported. -/
theorem test_checktree_duplicate :
    ((after (exec .checktree (withArena [leafNode 0x61 1, leafNode 0x61 1, internalNode 0 1 2] 2))).map fun t =>
      (statusWord t, t.errInfo)) = some (0x406, 1) := by decide +kernel

/-- R255: the words of a cleared node, and the operand registers. -/
theorem test_clear :
    ((after (exec .clear { treeB with symLen := 9, drop := true })).map fun t =>
      ((List.range 4).map fun w => readTarget t (.node 510 w), freqAt t 255, rootWord t, t.symLen, statusWord t)) =
      some ([0, 0, 0x01FF01FF, 0], 0, 0, 0, 0x012) := by decide +kernel

/-! ## The port, the latch, reset -/

/-- R106, SY12: an illegal word. -/
theorem test_illegal_word : ((after (step (running 0x0B))).map fun t => (statusWord t, t.errInfo)) = some (0x506, 0x0B) := by decide

/-- SY19: a register write while a command runs is dropped; `STATUS` then reads 0x011. -/
theorem test_busy_write_dropped :
    (statusWord (hostWrite 0x20 5 (running 0)), (hostWrite 0x20 5 (running 0)).symLen) = (0x011, 0) := by decide

/-- HP6, HP10, HP3: an element at the capacity, a word 9 of `CODE`, a misaligned address. -/
theorem test_refused_reads :
    (hostRead 0x1040000 State.reset).rsp = some (.read 0 true) ∧ (hostRead 0x5000024 State.reset).rsp = some (.read 0 true) ∧
    (hostRead 0x0000002 State.reset).rsp = some (.read 0 true) := by decide

/-- HP15: which bits of the words of a node are stored. -/
theorem test_node_bits :
    (hostRead 0x4000008 (hostWrite 0x4000008 0xFFFFFFFF State.reset)).rsp = some (.read 0x01FF01FF false) ∧
    (hostRead 0x400000C (hostWrite 0x400000C 0xFFFFFFFF State.reset)).rsp = some (.read 0x000001FF false) := by decide

/-- SY22 (the end): `irq` follows `ERR` and `ERR_IE`, and writing 6 to `STATUS` makes it low. -/
theorem test_irq :
    ((after (step { running 0x0B with errIe := true })).map fun t => (t.irq, (hostWrite 0x14 6 t).irq)) = some (true, false) := by
  decide

/-- R311: reset while a command runs. -/
theorem test_reset_abandons :
    ((after (step { running 0x0A with symLen := 3, inputs := [.resetLow] })).map fun t => (t.phase, t.done, t.symLen, t.cmd)) =
      some (.idle, false, 0, 0) := by decide

/-- The host's hook: the very next step runs the command of the word, here `COMPRESS` of the empty sequence. -/
theorem test_with_fetch_word :
    ((after (step (State.reset.withFetchWord 32 0x107))).map fun t => (t.cmd, t.empty, t.done)) = some (0x107, true, true) := by decide

/-! ## The hypotheses of the statements are met

One theorem per statement that has hypotheses: `witness_<statement>`. -/

/-- A Leaf of an arena. -/
theorem denotes_leaf {f : Nat → Node} {i : Nat} {v : Byte} {w : Weight} (h : i < Config.nodeMax)
    (hn : f i = leafNode v w) : DenotesTree f i (.leaf v w) := by
  have := DenotesTree.leaf (nodeOf := f) h (by rw [hn]; rfl)
  rwa [hn] at this

/-- An Internal node of an arena. -/
theorem denotes_internal {f : Nat → Node} {i a b : Nat} {l r : Tree} {w : Weight} (h : i < Config.nodeMax)
    (ha : a < 512) (hb : b < 512) (hn : f i = internalNode a b w) (hl : DenotesTree f a l) (hr : DenotesTree f b r) :
    DenotesTree f i (.internal l r w) := by
  have hl' : DenotesTree f (f i).left.toNat l := by rw [hn]; simpa [internalNode, Nat.mod_eq_of_lt ha] using hl
  have hr' : DenotesTree f (f i).right.toNat r := by rw [hn]; simpa [internalNode, Nat.mod_eq_of_lt hb] using hr
  have := DenotesTree.internal (nodeOf := f) h (by rw [hn]; rfl) hl' hr'
  rwa [hn] at this

/-- The abstract tree of B. -/
def treeOfB : Tree := .internal (.leaf 0x61 1) (.leaf 0x62 1) 2

theorem treeB_holds : treeB.HoldsTree treeOfB :=
  ⟨rfl, denotes_internal (a := 0) (b := 1) (by decide) (by decide) (by decide) (by decide +kernel)
    (denotes_leaf (by decide) (by decide +kernel)) (denotes_leaf (by decide) (by decide +kernel)), by decide⟩

theorem bareLeaf_holds : bareLeaf.HoldsTree (.leaf 0x61 4) := ⟨rfl, denotes_leaf (by decide) (by decide +kernel), by decide⟩

/-- An arena whose root has no right child. -/
def brokenB : State := withArena [leafNode 0x61 1, leafNode 0x62 1, internalNode 0 511 2] 2

/-- Codes "0" and "1" for the symbols 0 and 1, with 0 0 1 loaded. -/
def packable : State := withCodes { len := 1, bits := 0 } { len := 1, bits := 1 } (withSymbols [0, 0, 1])

/-- Two keys. -/
def twoKeys : State := withCounts [(0x61, 1), (0x62, 1)]

theorem twoKeys_keys : keysOf [(0x61, 1), (0x62, 1)] = [⟨0x61, 1⟩, ⟨0x62, 1⟩] := by decide +kernel

theorem twoKeys_nonempty : ∃ v, v < 256 ∧ freqAt twoKeys v ≠ 0 :=
  ⟨0x61, by decide, by rw [twoKeys, freqAt_withCounts _ (by decide)]; decide⟩

theorem twoKeys_length : (keyItems twoKeys).length = 2 := by rw [twoKeys, keyItems_withCounts, twoKeys_keys]; rfl

theorem witness_IllegalWordsCompleteWithIllegalCommand :
    let s (w : Word) : State := { State.reset with inputs := [.write 0x10 w] }
    (∀ w, (s w).rstN = true ∧ (s w).phase = .idle ∧ (s w).err = false ∧ (s w).inputs = [.write 0x10 w]) ∧
    0x0A < ((0x0B : Word).extractLsb' 0 8).toNat ∧ 0x0A < ((0xFF : Word).extractLsb' 0 8).toNat ∧
    (0x200 : Word).extractLsb' 9 23 ≠ 0 ∧ (0x80000000 : Word).extractLsb' 9 23 ≠ 0 ∧
    ((0x108 : Word).getLsbD 8 = true ∧ (0x108 : Word).extractLsb' 0 8 ≠ 0x07) :=
  ⟨fun _ => ⟨rfl, rfl, rfl, rfl⟩, by decide, by decide, by decide, by decide, by decide⟩

theorem witness_StepRunsTheCommandInCmd :
    (running 0x05).rstN = true ∧ (running 0x05).phase = .busy ∧ decode (running 0x05).cmd = .ok .pack ∧
    (running 0x05).inputs = [] ∧ ({ running 0x05 with inputs := [.core] } : State).inputs = .core :: [] ∧
    ({ running 0x05 with inputs := [.read 0x14] } : State).inputs = .read 0x14 :: [] ∧
    ({ State.reset with inputs := [.write 0x20 5, .core] } : State).inputs = .write 0x20 5 :: [.core] := by decide

theorem witness_CommandIssue :
    ((running 0).phase = .busy ∨ (running 0).err = true) ∧
    (({ State.reset with err := true } : State).phase = .busy ∨ ({ State.reset with err := true } : State).err = true) ∧
    (State.reset.phase = .idle ∧ State.reset.err = false) := by decide

theorem witness_NoCommandWhileAnErrorIsLatched :
    let s : State := { State.reset with err := true, errCode := 1, inputs := [.write 0x10 0] }
    s.err = true ∧ s.phase = .idle ∧ (∀ rest, s.inputs ≠ .resetLow :: rest) ∧ ∃ t, step s = .next t :=
  ⟨rfl, rfl, fun _ h => by simp at h, _, rfl⟩

theorem witness_OnlyCompressSetsEmpty :
    State.reset.empty = false ∧ (∃ t, exec (.compress .huffman) State.reset = .next t ∧ t.empty = true) ∧
    ∃ t, exec .nop State.reset = .next t ∧ t.empty = false := ⟨rfl, ⟨_, exec_eq _ _, by decide⟩, _, exec_eq _ _, by decide⟩

theorem witness_MemoriesAreWrittenOnlyByTheNamedCommands :
    (∃ t, exec .checktree State.reset = .next t) ∧
    (Instr.checktree ≠ .unpack ∧ Instr.checktree ≠ .decompress ∧ Instr.checktree ≠ .clear) ∧
    (Instr.checktree ≠ .pack ∧ Instr.checktree ≠ .analyze ∧ Instr.checktree ≠ .gencodes) ∧
    (Instr.checktree ≠ .buildSf ∧ Instr.checktree ≠ .buildHuf) ∧ ∀ alg, Instr.checktree ≠ .compress alg :=
  ⟨⟨_, exec_eq _ _⟩, by decide, by decide, by decide, fun _ h => by cases h⟩

theorem witness_CommandsRaiseOnlyTheirErrors :
    brokenB.err = false ∧
    (∃ t, exec .checktree brokenB = .next t ∧ t.err = true) ∧
    (∃ t, exec .decompress (withBytes [0x40] 6 brokenB) = .next t ∧ t.err = true ∧ t.errCode = 4) ∧
    ∃ t, exec .unpack (withBytes [0x40] 8 brokenB) = .next t ∧ t.err = true ∧ t.errCode = 7 :=
  ⟨rfl, ⟨_, exec_eq _ _, by decide +kernel⟩, ⟨_, exec_eq _ _, by decide +kernel⟩, _, exec_eq _ _, by decide +kernel⟩

theorem witness_NopCompletes :
    (State.reset.phase = .idle ∧ State.reset.err = false) ∧ ({ State.reset with err := true, errCode := 1 } : State).err = true := by
  decide

theorem witness_ClearZeroesTablesAndOperands : ({ State.reset with err := true, errCode := 1 } : State).err = true := rfl

theorem witness_AnalyzeCountsOccurrences :
    ({ State.reset with symLen := 65536 } : State).symLen.toNat ≤ ({ State.reset with symLen := 65536 } : State).maxLen ∧
    ({ State.reset with symLen := 65537 } : State).maxLen < ({ State.reset with symLen := 65537 } : State).symLen.toNat := by
  decide

theorem witness_AnalyzeCountsSumToTheLength :
    ({ State.reset with symLen := 65536 } : State).symLen.toNat ≤ ({ State.reset with symLen := 65536 } : State).maxLen ∧
    ∃ t, exec .analyze { State.reset with symLen := 65536 } = .next t := ⟨by decide, _, exec_eq _ _⟩

/-- SF7's frequencies: the second candidate is the first minimum, so both clauses have a candidate. -/
theorem witness_SplitIndexIsTheFirstMinimum :
    2 ≤ [1, 1].length ∧ 2 ≤ [1, 1, 1, 1].length ∧ splitIndex [1, 1, 1, 1] = 2 ∧ 1 < splitIndex [1, 1, 1, 1] := by decide

theorem witness_ShannonFanoBuildsByRecursiveSplits : 2 ≤ [Item.mk 0x61 1, Item.mk 0x62 1].length := by decide

theorem witness_ShannonFanoTreeProperties : ∃ v, v < 256 ∧ freqAt twoKeys v ≠ 0 := twoKeys_nonempty

theorem witness_BuildSfInstallsTheTree : ∃ v, v < 256 ∧ freqAt twoKeys v ≠ 0 := twoKeys_nonempty

theorem witness_HuffmanMergesTheTwoLowest :
    (∃ v, v < 256 ∧ freqAt twoKeys v ≠ 0) ∧ (keyItems twoKeys).length = 2 := ⟨twoKeys_nonempty, twoKeys_length⟩

theorem witness_HuffmanTreeProperties :
    (∃ v, v < 256 ∧ freqAt twoKeys v ≠ 0) ∧ ∃ t, exec .buildHuf twoKeys = .next t := ⟨twoKeys_nonempty, _, exec_eq _ _⟩

theorem witness_HuffmanWeightsAreNonDecreasing :
    (∃ v, v < 256 ∧ freqAt twoKeys v ≠ 0) ∧ ∃ t, exec .buildHuf twoKeys = .next t ∧ (keyItems twoKeys).length ≤ 2 ∧ 2 < t.nnode.toNat :=
  ⟨twoKeys_nonempty, _, buildHuf_withCounts twoKeys_keys (by decide), twoKeys_length.le, by decide +kernel⟩

theorem witness_BuildersRefuseTheEmptyTable : ∀ v, v < 256 → freqAt (withCounts []) v = 0 :=
  fun _ h => freqAt_withCounts [] h

theorem witness_BuildersDependOnFreqAlone :
    (∀ v, v < 256 → freqAt twoKeys v = freqAt { twoKeys with symLen := 7 } v) ∧ (∃ t, exec .buildSf twoKeys = .next t ∧ t.rootValid = true) ∧
    ∃ t', exec .buildSf { twoKeys with symLen := 7 } = .next t' :=
  ⟨fun _ _ => rfl, ⟨_, buildSf_withCounts twoKeys_keys (by decide), rfl⟩, _, exec_eq _ _⟩

theorem witness_TreeCheckInfo :
    State.reset.rootValid = false ∧ (({ treeB with rootIdx := 511 } : State).rootValid = true ∧
    ({ treeB with rootIdx := 511 } : State).rootIdx = 511) ∧
    (brokenB.rootValid = true ∧ brokenB.rootIdx ≠ 511 ∧ treeCheck brokenB = .bad 2 ∧ brokenB.FirstOffender 2) := by
  refine ⟨rfl, ⟨rfl, rfl⟩, rfl, by decide, by decide +kernel, [], rfl, ⟨2, rfl, .inl (by decide +kernel)⟩, fun q hq => ?_⟩
  cases q <;> cases hq

theorem witness_ChecktreeReportsTheVerdict :
    (∃ t, treeB.HoldsTree t) ∧ (¬ ∃ t, brokenB.HoldsTree t) ∧ State.reset.rootValid = false ∧
    (({ treeB with rootIdx := 511 } : State).rootValid = true ∧ ({ treeB with rootIdx := 511 } : State).rootIdx = 511) ∧
    (brokenB.rootValid = true ∧ brokenB.rootIdx ≠ 511) ∧ treeCheck brokenB = .bad 2 := by
  have h : treeCheck brokenB = .bad 2 := by decide +kernel
  exact ⟨⟨_, treeB_holds⟩, fun ⟨t, ht⟩ => not_holds_of_bad h t ht, rfl, ⟨rfl, rfl⟩, ⟨rfl, by decide⟩, h⟩

theorem witness_AcceptedTreesAreShallow : treeCheck treeB = .ok := by decide +kernel

theorem witness_GencodesWritesThePaths : treeB.HoldsTree treeOfB ∧ bareLeaf.HoldsTree (.leaf 0x61 4) := ⟨treeB_holds, bareLeaf_holds⟩

theorem witness_GencodesEmptiesTheTableOnAMalformedTree :
    treeCheck brokenB = .bad 2 ∧ treeCheck State.reset = .bad 0xFFFFFFFF := by decide +kernel

theorem witness_GeneratedCodesArePrefixFree :
    let s := withArena [leafNode 0 1, leafNode 1 1, internalNode 0 1 2] 2
    s.err = false ∧ ∃ t, exec .gencodes s = .next t ∧ t.err = false ∧ (0 : Byte) ≠ 1 ∧
      codeString t 0 ≠ [] ∧ codeString t 1 ≠ [] := ⟨rfl, _, exec_eq _ _, by decide +kernel⟩

theorem witness_PackWritesTheStream :
    packable.InstanceOk ∧ packable.symLen.toNat ≤ packable.maxLen ∧
    (∀ i, i < packable.symLen.toNat → codeLen packable (symAt packable i).toNat ≠ 0) ∧
    (((symbols packable packable.symLen.toNat).flatMap fun v => codeString packable v.toNat).length + 7) / 8 ≤ packable.maxBytes :=
  ⟨by unfold State.InstanceOk; decide, by decide, by decide +kernel, by decide +kernel⟩

/-- The three clauses: too long; `UnknownSymbol` at index 0; `Capacity` at index 8 with one byte of room and one-bit codes. -/
theorem witness_PackReportsTheFirstBadSymbol :
    let s1 : State := { State.reset with symLen := 65537 }
    let s2 : State := withCodes noCode noCode (withSymbols [0])
    let s3 : State := { withCodes { len := 1, bits := 0 } noCode (withSymbols (List.replicate 9 0)) with param2 := 1 }
    s1.maxLen < s1.symLen.toNat ∧
    (s2.symLen.toNat ≤ s2.maxLen ∧ 0 < s2.symLen.toNat ∧ codeLen s2 (symAt s2 0).toNat = 0) ∧
    (s3.symLen.toNat ≤ s3.maxLen ∧ 8 < s3.symLen.toNat ∧ (∀ j, j < 8 → codeLen s3 (symAt s3 j).toNat ≠ 0) ∧
      (((symbols s3 8).flatMap fun v => codeString s3 v.toNat).length + 7) / 8 ≤ s3.maxBytes ∧
      codeLen s3 (symAt s3 8).toNat ≠ 0 ∧
      s3.maxBytes < (((symbols s3 9).flatMap fun v => codeString s3 v.toNat).length + 7) / 8) := by decide +kernel

theorem witness_UnpackDecodesConcatenatedCodes :
    let s := withBytes [0x40] 6 treeB
    s.HoldsTree treeOfB ∧ s.byteLen ≠ 0 ∧ s.byteLen.toNat ≤ s.maxBytes ∧ s.pad.toNat ≤ 7 ∧
    (∀ v ∈ [(0x61 : Byte), 0x62], v ∈ treeOfB.symbols) ∧ [(0x61 : Byte), 0x62].length ≤ s.maxLen ∧
    payloadBits s (8 * s.byteLen.toNat - s.pad.toNat) = [(0x61 : Byte), 0x62].flatMap treeOfB.codeOf :=
  ⟨treeB_holds, by decide, by decide, by decide, by decide, by decide, by decide +kernel⟩

/-- Tree of HF9: c "0", a "10", b "11". -/
def treeC : Tree := .internal (.leaf 0x63 2) (.internal (.leaf 0x61 1) (.leaf 0x62 1) 2) 4

/-- The arena of HF9. -/
def arenaC : State := withArena [leafNode 0x61 1, leafNode 0x62 1, leafNode 0x63 2, internalNode 0 1 2, internalNode 2 3 4] 4

theorem arenaC_holds : arenaC.HoldsTree treeC :=
  ⟨rfl, denotes_internal (a := 2) (b := 3) (by decide) (by decide) (by decide) (by decide +kernel)
      (denotes_leaf (by decide) (by decide +kernel))
      (denotes_internal (a := 0) (b := 1) (by decide) (by decide) (by decide) (by decide +kernel)
        (denotes_leaf (by decide) (by decide +kernel)) (denotes_leaf (by decide) (by decide +kernel))), by decide⟩

/-- The two clauses: the bits 0 1 end inside a code; the bits 0 1 0 are the codes of "ca" with room for one symbol. -/
theorem witness_UnpackReportsACutCode :
    (let s := withBytes [0x40] 6 arenaC
     s.HoldsTree treeC ∧ s.byteLen ≠ 0 ∧ s.byteLen.toNat ≤ s.maxBytes ∧ s.pad.toNat ≤ 7 ∧
     (∀ u ∈ [(0x63 : Byte)], u ∈ treeC.symbols) ∧ (0x61 : Byte) ∈ treeC.symbols ∧ [(0x63 : Byte)].length ≤ s.maxLen ∧
     [true] ≠ [] ∧ [true] <+: treeC.codeOf 0x61 ∧ [true] ≠ treeC.codeOf 0x61 ∧
     payloadBits s (8 * s.byteLen.toNat - s.pad.toNat) = [(0x63 : Byte)].flatMap treeC.codeOf ++ [true]) ∧
    (let s := { withBytes [0x40] 5 arenaC with param1 := 1 }
     s.HoldsTree treeC ∧ s.byteLen ≠ 0 ∧ s.byteLen.toNat ≤ s.maxBytes ∧ s.pad.toNat ≤ 7 ∧ [(0x63 : Byte)].length = s.maxLen ∧
     payloadBits s (8 * s.byteLen.toNat - s.pad.toNat) = [(0x63 : Byte)].flatMap treeC.codeOf ++ treeC.codeOf 0x61 ++ []) :=
  ⟨⟨arenaC_holds, by decide, by decide, by decide, by decide, by decide, by decide, by decide, by decide, by decide,
      by decide +kernel⟩,
    arenaC_holds, by decide, by decide, by decide, by decide, by decide +kernel⟩

/-- The three clauses: UP4; UP6 (bit 3); nine zero bits into one symbol of room. -/
theorem witness_UnpackUnderABareLeaf :
    (let s := withBytes [0x00] 4 bareLeaf
     s.HoldsTree (.leaf 0x61 4) ∧ s.byteLen ≠ 0 ∧ s.byteLen.toNat ≤ s.maxBytes ∧ s.pad.toNat ≤ 7 ∧
     8 * s.byteLen.toNat - s.pad.toNat ≤ s.maxLen ∧ ∀ j, j < 8 * s.byteLen.toNat - s.pad.toNat → payloadBit s j = false) ∧
    (let s := withBytes [0x10] 4 bareLeaf
     s.HoldsTree (.leaf 0x61 4) ∧ 3 < 8 * s.byteLen.toNat - s.pad.toNat ∧ 3 ≤ s.maxLen ∧ (∀ k, k < 3 → payloadBit s k = false) ∧
     payloadBit s 3 = true) ∧
    (let s := { withBytes [0x00] 0 bareLeaf with param1 := 7 }
     s.HoldsTree (.leaf 0x61 4) ∧ s.maxLen < 8 * s.byteLen.toNat - s.pad.toNat ∧ ∀ k, k ≤ s.maxLen → payloadBit s k = false) :=
  ⟨⟨bareLeaf_holds, by decide, by decide, by decide, by decide, by decide +kernel⟩,
    ⟨bareLeaf_holds, by decide, by decide, by decide +kernel, by decide +kernel⟩,
    ⟨bareLeaf_holds, by decide, by decide +kernel⟩⟩

/-- UP2 and UP3: payloads that differ in the dropped bits only. -/
theorem witness_UnpackIgnoresThePaddingBits :
    let s := withBytes [0x40] 6 treeB
    (∀ j, j < 8 * s.byteLen.toNat - s.pad.toNat → payloadBit s j = payloadBit { s with byte := [(0, 0x7F)], byteDraw := 9 } j) ∧
    (∃ t, exec .unpack s = .next t) ∧ ∃ t', exec .unpack { s with byte := [(0, 0x7F)], byteDraw := 9 } = .next t' :=
  ⟨by decide +kernel, ⟨_, exec_eq _ _⟩, _, exec_eq _ _⟩

/-- The four clauses: UP10; UP11; UP9; UP23. -/
theorem witness_UnpackChecksItsOperandsInOrder :
    (withBytes [] 9 bareLeaf).byteLen = 0 ∧
    (let s := { bareLeaf with byteLen := 131073, pad := 9 }
     s.byteLen ≠ 0 ∧ s.maxBytes < s.byteLen.toNat) ∧
    (let s := withBytes [0x00] 8 bareLeaf
     s.byteLen ≠ 0 ∧ s.byteLen.toNat ≤ s.maxBytes ∧ 7 < s.pad.toNat) ∧
    (let s := withBytes [0x40] 7 brokenB
     s.byteLen ≠ 0 ∧ s.byteLen.toNat ≤ s.maxBytes ∧ s.pad.toNat ≤ 7 ∧ treeCheck s = .bad 2) := by decide +kernel

theorem witness_FailedUnpackPresentsNothing :
    (withBytes [0x40] 8 treeB).err = false ∧ ∃ t, exec .unpack (withBytes [0x40] 8 treeB) = .next t ∧ t.err = true :=
  ⟨rfl, _, exec_eq _ _, by decide +kernel⟩

theorem witness_CompressOfAnEmptyOrTooLongSequence :
    State.reset.symLen = 0 ∧
    ({ State.reset with symLen := 65537 } : State).maxLen < ({ State.reset with symLen := 65537 } : State).symLen.toNat := by decide

theorem witness_CompressRunsItsStepsInSequence :
    1 ≤ (withSymbols [0x61]).symLen.toNat ∧ (withSymbols [0x61]).symLen.toNat ≤ (withSymbols [0x61]).maxLen := by decide

/-- One symbol, and the 32 bytes of room it takes. -/
theorem witness_CompressSucceedsWithRoom :
    let s : State := { withSymbols [0x61] with param2 := 32 }
    s.InstanceOk ∧ 1 ≤ s.symLen.toNat ∧ s.symLen.toNat ≤ s.maxLen ∧ (255 * s.symLen.toNat + 7) / 8 ≤ s.maxBytes :=
  ⟨by unfold State.InstanceOk; decide, by decide, by decide, by decide⟩

theorem witness_DecompressGuardsThenUnpacks :
    (State.reset.rootValid = false ∨ State.reset.byteLen = 0) ∧ (treeB.rootValid = false ∨ treeB.byteLen = 0) ∧
    ((withBytes [0x40] 6 treeB).rootValid = true ∨ (withBytes [0x40] 6 treeB).byteLen = 0) ∧
    (let s := withBytes [0x40] 6 State.reset
     s.rootValid = false ∧ s.byteLen ≠ 0 ∧ s.byteLen.toNat ≤ s.maxBytes ∧ s.pad.toNat ≤ 7) ∧
    (withBytes [0x40] 6 brokenB).err = false ∧
    ∃ t, exec .decompress (withBytes [0x40] 6 brokenB) = .next t ∧ t.err = true ∧ t.errCode = ErrKind.malformedTree.code :=
  ⟨by decide, by decide, by decide, by decide, rfl, _, exec_eq _ _, by decide +kernel⟩

theorem witness_DecompressRestoresWhatCompressMade :
    let s := withSymbols [0x61, 0x62]
    (s.err = false ∧ s.symLen.toNat ≤ s.maxLen ∧ ∃ t, exec (.compress .huffman) s = .next t ∧ t.err = false) ∧
    State.reset.err = false ∧ State.reset.symLen.toNat ≤ State.reset.maxLen ∧
    ∃ t, exec (.compress .shannonFano) State.reset = .next t ∧ t.err = false := by
  obtain ⟨t, h, h'⟩ := test_compress_ab
  exact ⟨⟨rfl, by decide, t, h, congrArg (fun x => x.2.2.2.2.2.1) h'⟩, rfl, by decide, _, exec_eq _ _, by decide⟩

/-- FC15 made small: nine symbols under one-bit codes, one byte of room. -/
theorem witness_DecompressRestoresWhatCompressMade_capacity :
    let s : State := { withSymbols (List.replicate 9 0) with param2 := 1 }
    s.err = false ∧ s.symLen.toNat ≤ s.maxLen ∧ ∃ t, exec (.compress .huffman) s = .next t ∧ t.err = true :=
  ⟨rfl, by decide, _, exec_eq _ _, by decide +kernel⟩

theorem witness_ErrorReturnReopensTheCore :
    ({ State.reset with err := true, errCode := 5 } : State).err = true ∧
    ({ State.reset with err := true, errCode := 5 } : State).phase = .idle ∧ (0x4 : Word).getLsbD 2 = true ∧
    State.reset.err = false ∧ State.reset.phase = .idle := by decide

theorem witness_InterruptFollowsStatusAndEnables :
    (∃ t, exec .nop { State.reset with doneIe := true } = .next t ∧ t.irq = true) ∧
    State.reset.phase = .idle ∧ State.reset.err = false := ⟨⟨_, exec_eq _ _, by decide⟩, rfl, rfl⟩

/-- The address map at the ends of the spaces (HP5, HP7 to HP11). -/
theorem witness_AddressMap :
    State.reset.InstanceOk ∧ decodeAddr State.reset 0x38 = some (.reg .nleaf) ∧
    decodeAddr State.reset 0x103FFFC = some (.sym 65535) ∧ decodeAddr State.reset 0x207FFFC = some (.byte 131071) ∧
    decodeAddr State.reset 0x30003FC = some (.freq 255) ∧ decodeAddr State.reset 0x4001FEC = some (.node 510 3) ∧
    decodeAddr State.reset 0x5003FE0 = some (.code 255 8) ∧ decodeAddr State.reset 0x5003FE4 = none :=
  ⟨by unfold State.InstanceOk; decide, by decide, by decide, by decide, by decide, by decide, by decide, by decide⟩

theorem witness_RefusedRequestsChangeNothing :
    decodeAddr State.reset 0x3C = none ∧ decodeAddr State.reset 0x6000000 = none ∧ decodeAddr State.reset 0x1000003 = none := by
  decide

theorem witness_ReadsChangeNothing : State.reset.phase = .idle ∧ decodeAddr State.reset 0x3000000 = some (.freq 0) := by decide

theorem witness_WrittenWordsReadBack :
    State.reset.phase = .idle ∧ decodeAddr State.reset 0x4000004 = some (.node 0 1) ∧ (∀ r, Target.node 0 1 ≠ .reg r) ∧
    decodeAddr State.reset 0x4000008 = some (.node 0 2) ∧ Target.node 0 2 ≠ .node 0 1 :=
  ⟨rfl, by decide, (fun _ h => by cases h), by decide, by decide⟩

theorem witness_RegisterWrites : State.reset.phase = .idle ∧ Reg.readOnly .bitLen = true := by decide

/-- The clauses: a register that reads, one that does not, `IE`, `STATUS`, a read-only register and a memory word. -/
theorem witness_BusyWindow :
    let s := running 0x01
    s.phase = .busy ∧
    (decodeAddr s 0x14 = some (.reg .status) ∧ Target.readableWhileBusy (.reg .status) = true) ∧
    (decodeAddr s 0x18 = some (.reg .errInfo) ∧ Target.readableWhileBusy (.reg .errInfo) = false) ∧
    decodeAddr s 0x1C = some (.reg .ie) ∧
    (decodeAddr s 0x2C = some (.reg .bitLen) ∧ Target.reg .bitLen ≠ .reg .ie ∧ Target.reg .bitLen ≠ .reg .status) ∧
    (decodeAddr s 0x1000000 = some (.sym 0) ∧ Target.sym 0 ≠ .reg .ie ∧ Target.sym 0 ≠ .reg .status) := by decide

/-- R320: a write to a read-only register while a command runs is dropped and flagged. -/
theorem test_busy_write_to_read_only :
    (hostWrite 0x34 5 (running 0x01)).drop = true ∧ (hostWrite 0x34 5 (running 0x01)).nnode = 0 := by decide

/-- R78: the code "110" of symbol 0x72 as the host port reads it (the example of the rule). -/
theorem test_code_words_at_the_port :
    let s := { State.reset with code := Memory.ofList (codeTableWords fun v => if v = 0x72 then { len := 3, bits := 6 } else noCode) }
    (hostRead 0x5001C80 s).rsp = some (.read 3 false) ∧ (hostRead 0x5001C84 s).rsp = some (.read 6 false) := by decide +kernel

/-- A running command in a state that meets the invariant, and its step. -/
theorem running_inv : Inv (running 0x01) where
  instanceOk := by unfold State.InstanceOk; decide
  symWf := rfl
  byteWf := rfl
  freqWf := rfl
  nodeWf := rfl
  codeWf := rfl
  nodeBits := by intro k v h; cases h
  codeBits := by intro k v h; cases h
  latched := by decide
  unlatched := by decide
  running := by decide
  emptyOk := by decide
  counters := by decide
  bitLenBound := by decide
  held := by decide
  drawsUsed := by decide
  drawsApart := by decide

theorem witness_NodeWordLayout : Inv (running 0x01) := running_inv

theorem witness_StepKeepsTheInvariant : Inv (running 0x01) ∧ ∃ t, step (running 0x01) = .next t ∧ t.done = true :=
  ⟨running_inv, _, rfl, rfl⟩

theorem witness_HostCannotDisturbARunningCommand :
    let s : State := { running 0x01 with inputs := [.write 0x20 5] }
    s.phase = .busy ∧ s.inputs = .write 0x20 5 :: [] ∧ (∃ a v, Input.write 0x20 5 = .write a v) ∧ ∃ t, step s = .next t :=
  ⟨rfl, rfl, ⟨_, _, rfl⟩, _, rfl⟩

theorem witness_ResetFromAnyState :
    ({ running 0x01 with inputs := [.resetLow] } : State).inputs = .resetLow :: [] ∧
    (let s : State := { State.reset with rstN := false, inputs := [.write 0x10 0] }
     s.rstN = false ∧ s.inputs = .write 0x10 0 :: [] ∧ Input.write 0x10 0 ≠ .resetLow ∧ Input.write 0x10 0 ≠ .resetHigh) ∧
    ({ State.reset with rstN := false, inputs := [.resetHigh] } : State).inputs = .resetHigh :: [] ∧
    (State.reset.phase = .idle ∧ State.reset.inputs = []) := by decide

end Sys2Proof.Tests
end

section
/-! PROOFS. Which fields a command writes (O10, O11): one lemma per pseudocode that names the fields, and the completion. -/

namespace Sys2Proof.Machine

/-! ## The fields each pseudocode writes -/

theorem analyzeEffect_state (s : State) : ∃ m, (analyzeEffect s).state = { s with freq := m } := by
  rcases analyzeEffect_cases s with ⟨-, h⟩ | ⟨-, h⟩ <;> exact ⟨_, congrArg Result.state h⟩

theorem buildEffect_state (a : Alg) (s : State) : ∃ m valid idx n k, (buildEffect a s).state =
    { s with node := m, rootValid := valid, rootIdx := idx, nnode := n, nleaf := k } := by
  rcases buildEffect_cases a s with ⟨-, h⟩ | ⟨-, nodes, h⟩ <;> exact ⟨_, _, _, _, _, congrArg Result.state h⟩

theorem gencodesEffect_state (s : State) : ∃ m, (gencodesEffect s).state = { s with code := m } := by
  rcases gencodesEffect_cases s with ⟨-, h⟩ | ⟨info, -, h⟩ <;> exact ⟨_, congrArg Result.state h⟩

theorem checktreeEffect_state (s : State) : (checktreeEffect s).state = s := by
  rcases checktreeEffect_cases s with ⟨-, h⟩ | ⟨info, -, h⟩ <;> exact congrArg Result.state h

theorem packEffect_state (s : State) : ∃ m d n len p bits, (packEffect s).state =
    { s with byte := m, byteDraw := d, draws := n, byteLen := len, pad := p, bitLen := bits } := by
  rcases packEffect_cases s with ⟨-, h⟩ | ⟨-, e, -, -, h⟩ | ⟨-, st, -, h⟩ <;>
    exact ⟨_, _, _, _, _, _, congrArg Result.state h⟩

theorem unpackEffect_state (s : State) : ∃ m d n len, (unpackEffect s).state =
    { s with sym := m, symDraw := d, draws := n, symLen := len } := by
  rcases unpackEffect_cases s with ⟨-, h⟩ | ⟨-, e, h, -⟩ | ⟨-, -, -, -, syms, -, h⟩ <;>
    exact ⟨_, _, _, _, congrArg Result.state h⟩

theorem decompressEffect_state (s : State) : ∃ m d n len, (decompressEffect s).state =
    { s with sym := m, symDraw := d, draws := n, symLen := len } := by
  rcases decompressEffect_cases s with ⟨-, h⟩ | ⟨-, -, h⟩
  · exact ⟨_, _, _, _, congrArg Result.state h⟩
  · rw [h]; exact unpackEffect_state s

/-! ## The sequence and `EMPTY` -/

/-- The sequence and `EMPTY`: what no step of a `COMPRESS` of a non-empty sequence touches (R230). -/
structure SameSequence (s t : State) : Prop where
  sym     : t.sym = s.sym
  symDraw : t.symDraw = s.symDraw
  symLen  : t.symLen = s.symLen
  empty   : t.empty = s.empty

theorem SameSequence.trans {s t u : State} (h : SameSequence s t) (h' : SameSequence t u) : SameSequence s u where
  sym     := h'.sym.trans h.sym
  symDraw := h'.symDraw.trans h.symDraw
  symLen  := h'.symLen.trans h.symLen
  empty   := h'.empty.trans h.empty

theorem andThen_sequence {r : Result} {f : State → Result} {s : State} (h : SameSequence s r.state)
    (hf : ∀ t, SameSequence t (f t).state) : SameSequence s (r.andThen f).state := by
  cases r with
  | ok t => exact h.trans (hf t)
  | raised e t => exact h

theorem analyzeEffect_sequence (s : State) : SameSequence s (analyzeEffect s).state := by
  obtain ⟨_, h⟩ := analyzeEffect_state s
  rw [h]; constructor <;> rfl

theorem buildEffect_sequence (a : Alg) (s : State) : SameSequence s (buildEffect a s).state := by
  obtain ⟨_, _, _, _, _, h⟩ := buildEffect_state a s
  rw [h]; constructor <;> rfl

theorem gencodesEffect_sequence (s : State) : SameSequence s (gencodesEffect s).state := by
  obtain ⟨_, h⟩ := gencodesEffect_state s
  rw [h]; constructor <;> rfl

theorem packEffect_sequence (s : State) : SameSequence s (packEffect s).state := by
  obtain ⟨_, _, _, _, _, _, h⟩ := packEffect_state s
  rw [h]; constructor <;> rfl

theorem compressEffect_of_empty (a : Alg) {s : State} (h : s.symLen = 0) :
    compressEffect a s = .ok (emptyCompression (emptyPayload s)) := if_pos h

theorem compressEffect_sequence (a : Alg) {s : State} (hs : s.symLen ≠ 0) :
    SameSequence s (compressEffect a s).state := by
  rw [show compressEffect a s = _ from if_neg hs]
  have h0 : SameSequence s (emptyPayload s) := by constructor <;> rfl
  exact andThen_sequence (andThen_sequence (andThen_sequence (h0.trans (analyzeEffect_sequence _))
    (buildEffect_sequence a)) gencodesEffect_sequence) packEffect_sequence

theorem compressEffect_keeps_sym (a : Alg) (s : State) : (compressEffect a s).state.sym = s.sym ∧
    (compressEffect a s).state.symDraw = s.symDraw ∧ (compressEffect a s).state.symLen = s.symLen := by
  by_cases hs : s.symLen = 0
  · rw [compressEffect_of_empty a hs]; exact ⟨rfl, rfl, rfl⟩
  · obtain ⟨hsym, hdraw, hlen, -⟩ := compressEffect_sequence a hs
    exact ⟨hsym, hdraw, hlen⟩

/-- No pseudocode touches `EMPTY` but that of `COMPRESS` of the empty sequence (R23, R231). -/
theorem effect_empty {i : Instr} {s : State} (h : ¬ (s.symLen = 0 ∧ ∃ a, i = .compress a)) :
    (effectOf i s).state.empty = s.empty := by
  cases i with
  | nop => rfl
  | analyze => exact (analyzeEffect_sequence s).empty
  | buildSf => exact (buildEffect_sequence .shannonFano s).empty
  | buildHuf => exact (buildEffect_sequence .huffman s).empty
  | gencodes => exact (gencodesEffect_sequence s).empty
  | pack => exact (packEffect_sequence s).empty
  | unpack =>
    obtain ⟨_, _, _, _, hu⟩ := unpackEffect_state s
    simp only [effectOf, hu]
  | compress a => exact (compressEffect_sequence a fun h0 => h ⟨h0, a, rfl⟩).empty
  | decompress =>
    obtain ⟨_, _, _, _, hd⟩ := decompressEffect_state s
    simp only [effectOf, hd]
  | checktree => exact congrArg State.empty (checktreeEffect_state s)
  | clear => rfl

/-- A command that raises an error has not touched `EMPTY` (R231). -/
theorem raised_empty {i : Instr} {s t : State} {e : CmdError} (h : effectOf i s = .raised e t) : t.empty = s.empty := by
  by_cases hc : s.symLen = 0 ∧ ∃ a, i = .compress a
  · obtain ⟨h0, a, rfl⟩ := hc
    exact absurd ((compressEffect_of_empty a h0).symm.trans h) nofun
  · exact (congrArg (State.empty ∘ Result.state) h).symm.trans (effect_empty hc)

/-! ## The completed command -/

/-- A completion writes the phase, `DONE` and the latch, and nothing else (R252, R276). -/
theorem finish_shape (r : Result) : ∃ err code info,
    finish r = { r.state with phase := .idle, done := true, err := err, errCode := code, errInfo := info } := by
  cases r <;> exact ⟨_, _, _, rfl⟩

theorem finish_empty (r : Result) : (finish r).empty = r.state.empty := by cases r <;> rfl

/-- Settles O10: the pseudocode of `COMPRESS` sets `EMPTY` where it finds no symbol, and no other writes it. -/
theorem onlyCompressSetsEmpty : Obligations.OnlyCompressSetsEmpty := by
  intro i s t h hs
  rw [exec_eq] at h
  cases h
  rw [finish_empty]
  by_cases hc : s.symLen = 0 ∧ ∃ a, i = .compress a
  · obtain ⟨h0, a, rfl⟩ := hc
    rw [effectOf, compressEffect_of_empty a h0]
    exact iff_of_true rfl ⟨h0, a, rfl⟩
  · rw [effect_empty hc, hs]
    exact iff_of_false nofun hc

/-- Settles O11, command by command, from the fields its pseudocode writes. -/
theorem memoriesAreWrittenOnlyByTheNamedCommands : Obligations.MemoriesAreWrittenOnlyByTheNamedCommands := by
  intro i s t h
  rw [exec_eq] at h
  cases h
  obtain ⟨_, _, _, hf⟩ := finish_shape (effectOf i s)
  rw [hf]
  cases i with
  | nop => simp [effectOf, Result.state]
  | analyze =>
    obtain ⟨_, h⟩ := analyzeEffect_state s
    simp [effectOf, h]
  | buildSf =>
    obtain ⟨_, _, _, _, _, h⟩ := buildEffect_state .shannonFano s
    simp [show effectOf .buildSf s = buildEffect .shannonFano s from rfl, h]
  | buildHuf =>
    obtain ⟨_, _, _, _, _, h⟩ := buildEffect_state .huffman s
    simp [show effectOf .buildHuf s = buildEffect .huffman s from rfl, h]
  | gencodes =>
    obtain ⟨_, h⟩ := gencodesEffect_state s
    simp [effectOf, h]
  | pack =>
    obtain ⟨_, _, _, _, _, _, h⟩ := packEffect_state s
    simp [effectOf, h]
  | unpack =>
    obtain ⟨_, _, _, _, h⟩ := unpackEffect_state s
    simp [effectOf, h]
  | compress a =>
    obtain ⟨hsym, hdraw, hlen⟩ := compressEffect_keeps_sym a s
    have hc := compressEffect_control a s
    simp [effectOf, hsym, hdraw, hlen, hc.freqDraw, hc.nodeDraw, hc.codeDraw]
  | decompress =>
    obtain ⟨_, _, _, _, h⟩ := decompressEffect_state s
    simp [effectOf, h]
  | checktree => simp [effectOf, checktreeEffect_state]
  | clear => simp [effectOf, Result.state]

end Sys2Proof.Machine
end

section
/-! PROOFS. The words of `STATUS`, `ROOT` and `IE`, and host writes to registers (O47, O54). -/

namespace Sys2Proof.Machine

/-! ## Layouts -/

theorem getLsbD_ofBool_append {n : Nat} (b : Bool) (x : BitVec n) (k : Nat) :
    (BitVec.ofBool b ++ x).getLsbD k = if k < n then x.getLsbD k else decide (k = n) && b := by
  rw [BitVec.getLsbD_append, BitVec.getLsbD_ofBool]
  split
  · rfl
  · next h => simp only [show k - n = 0 ↔ k = n by omega]

theorem getLsbD_zero_append {m n : Nat} (x : BitVec n) (k : Nat) :
    ((0 : BitVec m) ++ x).getLsbD k = x.getLsbD k := by
  rw [BitVec.getLsbD_append]
  split
  · rfl
  · next h => simp [BitVec.getLsbD_of_ge x k (by omega)]

/-- The flags stand in bits 0 to 4 of `STATUS` (R23). -/
theorem statusWord_flags (s : State) :
    (statusWord s).getLsbD 0 = s.busy ∧ (statusWord s).getLsbD 1 = s.done ∧ (statusWord s).getLsbD 2 = s.err ∧
    (statusWord s).getLsbD 3 = s.empty ∧ (statusWord s).getLsbD 4 = s.drop := by
  simp only [statusWord, getLsbD_zero_append, getLsbD_ofBool_append, BitVec.getLsbD_append (x := s.errCode),
    BitVec.getLsbD_ofBool]
  simp

/-- Above the flags of `STATUS` stands `ERR_CODE` in bits 11:8, and nothing else (R23). -/
theorem statusWord_getLsbD_of_ge (s : State) {k : Nat} (h5 : 5 ≤ k) :
    (statusWord s).getLsbD k = (decide (8 ≤ k) && s.errCode.getLsbD (k - 8)) := by
  simp only [statusWord, getLsbD_zero_append, getLsbD_ofBool_append, BitVec.getLsbD_append (x := s.errCode),
    BitVec.getLsbD_ofBool]
  by_cases h8 : 8 ≤ k
  · simp [h8, show ¬ k < 8 by omega]
  · simp [h8, show k < 8 by omega, show ¬ k < 4 by omega, show k ≠ 4 by omega]

/-- The layout of `ROOT` (R31). -/
theorem rootWord_getLsbD (s : State) (k : Nat) :
    (rootWord s).getLsbD k = (s.rootIdx.getLsbD k || decide (k = 31) && s.rootValid) := by
  simp only [rootWord, getLsbD_zero_append, getLsbD_ofBool_append]
  by_cases h : k < 31
  · simp [h, show k ≠ 31 by omega]
  · simp [h, BitVec.getLsbD_of_ge s.rootIdx k (by omega)]

/-- The layout of `IE` (R43). -/
theorem ieWord_getLsbD (s : State) (k : Nat) :
    (ieWord s).getLsbD k = if k = 1 then s.doneIe else decide (k = 2) && s.errIe := by
  simp only [ieWord, getLsbD_zero_append, getLsbD_ofBool_append]
  by_cases h : k < 3
  · interval_cases k <;> simp
  · simp [show ¬ k < 2 by omega, show k ≠ 2 by omega, show k ≠ 1 by omega]

/-! ## Writes -/

/-- The registers stand at their byte offsets (R21, R22, R74). -/
theorem decodeAddr_offset (s : State) (r : Reg) : decodeAddr s (BitVec.ofNat 28 r.offset) = some (.reg r) := by
  cases r <;> rfl

/-- A host write to a register of an idle core (R73). -/
theorem hostWrite_reg_of_idle {s : State} (hi : s.phase = .idle) (r : Reg) (v : Word) :
    hostWrite (BitVec.ofNat 28 r.offset) v s = { writeReg r v s with rsp := some (.write false) } := by
  simp only [hostWrite, decodeAddr_offset, (s.not_busy_iff).2 hi, Bool.false_eq_true, if_false, writeTarget]

theorem writeReg_readOnly {r : Reg} (h : r.readOnly = true) (v : Word) (s : State) : writeReg r v s = s := by
  cases r with
  | cmd | status | ie | symLen | byteLen | pad | root => cases h
  | _ => rfl

theorem rootWord_writeRoot (v : Word) (s : State) : rootWord (writeRoot v s) = v &&& 0x800001FF := by
  have mask : ∀ k < 32, (0x800001FF : Word).getLsbD k = (decide (k < 9) || decide (k = 31)) := by decide
  apply BitVec.eq_of_getLsbD_eq
  intro k hk
  rw [rootWord_getLsbD, BitVec.getLsbD_and, mask k hk]
  by_cases h : k = 31
  · subst h; simp [writeRoot]
  · simp [writeRoot, h, Bool.and_comm]

theorem ieWord_writeIe (v : Word) (s : State) : ieWord (writeIe v s) = v &&& 0x6 := by
  have mask : ∀ k < 32, (0x6 : Word).getLsbD k = (decide (k = 1) || decide (k = 2)) := by decide
  apply BitVec.eq_of_getLsbD_eq
  intro k hk
  rw [ieWord_getLsbD, BitVec.getLsbD_and, mask k hk]
  by_cases h1 : k = 1
  · subst h1; simp [writeIe]
  · by_cases h2 : k = 2
    · subst h2; simp [writeIe]
    · simp [h1, h2]

/-- A write to `STATUS` acts alike on a running and on an idle core (R77). -/
theorem hostWrite_status (v : Word) (s : State) :
    hostWrite (BitVec.ofNat 28 Reg.status.offset) v s = { writeStatus v s with rsp := some (.write false) } := by
  simp only [hostWrite, decodeAddr_offset]
  split <;> rfl

/-- Settles O54: the address map sends each offset to its register, and each register stores its implemented bits. -/
theorem registerWrites : Obligations.RegisterWrites := by
  intro s v hi
  have write := fun r => hostWrite_reg_of_idle hi r v
  refine ⟨write .symLen, write .byteLen, write .pad, write .root, ?_, write .ie, ?_, fun r hr => ?_⟩
  · rw [show hostWrite 0x30 v s = _ from write .root]
    exact rootWord_writeRoot v s
  · rw [show hostWrite 0x1C v s = _ from write .ie]
    exact ieWord_writeIe v s
  · rw [write r, writeReg_readOnly hr]

/-- Settles O47, from the layout of the word and the one update a write to `STATUS` comes to. -/
theorem statusReadsAndWrites : Obligations.StatusReadsAndWrites := by
  intro s v
  obtain ⟨busy, done, err, empty, drop⟩ := statusWord_flags s
  refine ⟨busy, done, err, empty, drop, ?_, fun k hk => ?_, ?_⟩
  · apply BitVec.eq_of_getLsbD_eq
    intro k hk
    rw [BitVec.getLsbD_extractLsb', statusWord_getLsbD_of_ge s (by omega)]
    simp [hk]
  · rw [statusWord_getLsbD_of_ge s (by omega)]
    rcases hk with hk | hk
    · simp [show ¬ 8 ≤ k by omega]
    · simp [BitVec.getLsbD_of_ge s.errCode (k - 8) (by omega)]
  · rw [show hostWrite 0x14 v s = _ from hostWrite_status v s, writeStatus_eq]

end Sys2Proof.Machine
end

section
/-! PROOFS. The invariant (O59, O60): beside its part about data stands its part about the latch and the flags, and each
kind of step keeps both. -/

namespace Sys2Proof.Machine

/-- The clauses of `Inv` about the latch and the flags; the others are those of `DataInv` and of the held reset state. -/
structure LatchInv (s : State) : Prop where
  latched   : s.err = true → s.errCode ≠ 0 ∧ s.errCode.toNat ≤ 7
  unlatched : s.err = false → s.errCode = 0 ∧ s.errInfo = 0
  running   : s.phase = .busy → s.done = false ∧ s.err = false ∧ s.empty = false
  emptyOk   : s.empty = true → s.err = false

theorem Inv.latch {s : State} (h : Inv s) : LatchInv s := { h with }

theorem DataInv.inv {s : State} (d : DataInv s) (l : LatchInv s) (hr : s.rstN = true) : Inv s :=
  { d, l with held := fun h => absurd (hr.symm.trans h) nofun }

theorem Inv.rstN_of_busy {s : State} (h : Inv s) (hb : s.phase = .busy) : s.rstN = true := by
  cases hr : s.rstN with
  | true => rfl
  | false => exact absurd ((h.held hr).1.symm.trans hb) nofun

theorem Inv.withInputs {s : State} (h : Inv s) (rest : List Input) : Inv { s with inputs := rest } := { h with }

theorem Inv.withRsp {s : State} (h : Inv s) (rsp : Option Response) : Inv { s with rsp := rsp } := { h with }

/-- Settles O59: a freshly reset core lists no memory element, latches nothing and runs nothing. -/
theorem invariantHoldsAtReset : Obligations.InvariantHoldsAtReset where
  instanceOk := by unfold State.InstanceOk; decide
  symWf := rfl
  byteWf := rfl
  freqWf := rfl
  nodeWf := rfl
  codeWf := rfl
  nodeBits := nofun
  codeBits := nofun
  latched := nofun
  unlatched := fun _ => ⟨rfl, rfl⟩
  running := nofun
  emptyOk := nofun
  counters := .inl ⟨rfl, rfl⟩
  bitLenBound := Nat.zero_le _
  held := nofun
  drawsUsed := by decide
  drawsApart := by decide

/-! ## Completion -/

/-- What `CMD` holds comes to: the pseudocode of its command, or the error of an illegal word (R106, R252). -/
def commandResult (s : State) : Result :=
  match decode (fetchWord s) with
  | .ok i => effectOf i s
  | .error _ => .raised { kind := .illegalCommand, info := s.cmd } s

theorem runCommand_eq (s : State) : runCommand s = .next (finish (commandResult s)) := by
  unfold runCommand commandResult
  cases decode (fetchWord s) with
  | ok i => exact exec_eq i s
  | error e => rfl

theorem commandResult_cases (s : State) :
    (∃ i, commandResult s = effectOf i s) ∨ ∃ e, commandResult s = .raised e s := by
  unfold commandResult
  split
  · next i _ => exact .inl ⟨i, rfl⟩
  · exact .inr ⟨_, rfl⟩

/-- The number of an error is 1 to 7 (R271). -/
theorem errKind_code_range (k : ErrKind) : k.code ≠ 0 ∧ k.code.toNat ≤ 7 := by cases k <;> decide

/-- A completion of a running command keeps the clauses about the latch, since the command was accepted with `ERR` and
`EMPTY` at 0 and no pseudocode that raises an error has set `EMPTY`. -/
theorem finish_latch {s : State} (h : LatchInv s) (hb : s.phase = .busy) {r : Result} (hc : SameControl s r.state)
    (he : ∀ e t, r = .raised e t → t.empty = s.empty) : LatchInv (finish r) := by
  obtain ⟨-, herr, hempty⟩ := h.running hb
  cases r with
  | ok t =>
    have ht : t.err = false := hc.err.trans herr
    obtain ⟨hcode, hinfo⟩ := h.unlatched herr
    exact { latched := fun hl => absurd (ht.symm.trans hl) nofun
            unlatched := fun _ => ⟨hc.errCode.trans hcode, hc.errInfo.trans hinfo⟩
            running := nofun
            emptyOk := fun _ => ht }
  | raised e t =>
    have ht : t.empty = false := (he e t rfl).trans hempty
    exact { latched := fun _ => errKind_code_range e.kind
            unlatched := nofun
            running := nofun
            emptyOk := fun hl => absurd (ht.symm.trans hl) nofun }

theorem finish_data {r : Result} (h : DataInv r.state) : DataInv (finish r) := by
  cases r <;> exact { h with }

theorem finish_rstN (r : Result) : (finish r).rstN = r.state.rstN := by cases r <;> rfl

/-- The completion of a running command keeps the invariant (R252). -/
theorem finish_commandResult_inv {s : State} (h : Inv s) (hb : s.phase = .busy) : Inv (finish (commandResult s)) := by
  have hr := h.rstN_of_busy hb
  rcases commandResult_cases s with ⟨i, hi⟩ | ⟨e, he⟩
  · have hc := effect_control i s
    rw [hi]
    exact (finish_data (effect_data i h.data)).inv (finish_latch h.latch hb hc fun e t => raised_empty)
      ((finish_rstN _).trans (hc.rstN.trans hr))
  · rw [he]
    exact (finish_data (r := .raised e s) h.data).inv
      (finish_latch h.latch hb (.refl s) fun _ _ hr => by cases hr; rfl) hr

/-! ## Host requests -/

theorem hostRead_inv {s : State} (h : Inv s) (a : BitVec 28) : Inv (hostRead a s) := by
  rcases hostRead_cases a s with ⟨-, hh⟩ | ⟨t, -, -, -, hh⟩ | ⟨t, -, -, hh⟩ <;> rw [hh]
  · exact h.withRsp _
  · obtain ⟨h1, h2, h3, h4, h5⟩ := h.drawsUsed
    exact { h with drawsUsed := by simp only [readAny]; omega }
  · exact h.withRsp _

theorem writeStatus_data {s : State} (h : DataInv s) (v : Word) : DataInv (writeStatus v s) := by
  rw [writeStatus_eq]; exact { h with }

/-- Clearing `ERR` clears `ERR_CODE` and `ERR_INFO` with it (R279). -/
theorem writeStatus_latch {s : State} (h : LatchInv s) (v : Word) : LatchInv (writeStatus v s) := by
  rw [writeStatus_eq]
  generalize v.getLsbD 2 = clear
  refine { latched := fun he => ?_, unlatched := fun he => ?_, running := fun hb => ?_, emptyOk := fun hem => ?_ }
  · simp only [Bool.and_eq_true, Bool.not_eq_true'] at he
    simpa [he.2] using h.latched he.1
  · cases hs : s.err with
    | false => simpa [hs] using h.unlatched hs
    | true =>
      obtain rfl : clear = true := by simpa [hs] using he
      simp
  · obtain ⟨hdone, herr, hempty⟩ := h.running hb
    simp [hdone, herr, hempty]
  · simp [h.emptyOk hem]

/-- A command is accepted only with no error latched, and its acceptance clears `DONE` and `EMPTY` (R251). -/
theorem issueCommand_latch {s : State} (h : LatchInv s) (w : Word) : LatchInv (issueCommand w s) := by
  unfold issueCommand
  split
  · exact { h with }
  · next hn =>
    have herr : s.err = false := by simpa using fun he => hn (.inr he)
    exact { h with running := fun _ => ⟨rfl, herr, rfl⟩, emptyOk := nofun }

theorem issueCommand_data {s : State} (h : DataInv s) (w : Word) : DataInv (issueCommand w s) := by
  unfold issueCommand; split <;> exact { h with }

theorem writeReg_data {s : State} (h : DataInv s) (r : Reg) (v : Word) : DataInv (writeReg r v s) := by
  cases r with
  | cmd => exact issueCommand_data h v
  | status => exact writeStatus_data h v
  | _ => exact { h with }

theorem writeTarget_latch {s : State} (h : LatchInv s) (t : Target) (v : Word) : LatchInv (writeTarget t v s) := by
  cases t with
  | reg r =>
    cases r with
    | cmd => exact issueCommand_latch h v
    | status => exact writeStatus_latch h v
    | _ => exact { h with }
  | _ => exact { h with }

theorem writeTarget_rstN (t : Target) (v : Word) (s : State) : (writeTarget t v s).rstN = s.rstN := by
  cases t with
  | reg r =>
    cases r with
    | cmd => simp only [writeTarget, writeReg, issueCommand]; split <;> rfl
    | status => simp only [writeTarget, writeReg, writeStatus_eq]
    | _ => rfl
  | _ => rfl

theorem writeTarget_inv {s : State} (h : Inv s) (hr : s.rstN = true) {t : Target} (ht : t.inRange s.maxLen s.maxBytes)
    (v : Word) : Inv (writeTarget t v s) := by
  have hd : DataInv (writeTarget t v s) := by
    cases t with
    | reg r => exact writeReg_data h.data r v
    | _ => exact writeTarget_data h.data ht nofun v
  exact hd.inv (writeTarget_latch h.latch t v) ((writeTarget_rstN t v s).trans hr)

theorem writeTargetBusy_inv {s : State} (h : Inv s) (hr : s.rstN = true) (t : Target) (v : Word) :
    Inv (writeTargetBusy t v s) := by
  rcases writeTargetBusy_cases t v s with ⟨-, hw⟩ | ⟨-, hw⟩ | ⟨-, -, hw⟩ <;> rw [hw]
  · exact writeTarget_inv h hr (t := .reg .ie) trivial v
  · exact writeTarget_inv h hr (t := .reg .status) trivial v
  · exact DataInv.inv { h with } { h with } hr

theorem hostWrite_inv {s : State} (h : Inv s) (hr : s.rstN = true) (a : BitVec 28) (v : Word) : Inv (hostWrite a v s) := by
  rcases hostWrite_cases a v s with ⟨-, hh⟩ | ⟨t, -, -, hh⟩ | ⟨t, ht, -, hh⟩ <;> rw [hh]
  · exact h.withRsp _
  · exact (writeTargetBusy_inv h hr t v).withRsp _
  · exact (writeTarget_inv h hr (decodeAddr_inRange ht) v).withRsp _

/-! ## Reset and the step -/

theorem enterReset_data {s : State} (h : s.InstanceOk) : DataInv (enterReset s) :=
  forgetMemories_data h (.inl ⟨rfl, rfl⟩) (Nat.zero_le _)

theorem enterReset_inv {s : State} (h : Inv s) : Inv (enterReset s) :=
  { enterReset_data h.instanceOk with
    latched := nofun
    unlatched := fun _ => ⟨rfl, rfl⟩
    running := nofun
    emptyOk := nofun
    held := fun _ => by simp }

theorem leaveReset_inv {s : State} (h : Inv s) : Inv (leaveReset s) := DataInv.inv { h with } { h with } rfl

/-- The state a move ends in. -/
def Move.result : Move → State
  | .runCommand s => finish (commandResult s)
  | .moved s => s

theorem step_eq (s : State) : step s = .next (nextMove s).result := by
  unfold step
  split
  · next t h => rw [h]; exact runCommand_eq t
  · next t h => rw [h]; rfl

theorem coreMove_inv {s : State} (h : Inv s) : Inv (coreMove s).result := by
  unfold coreMove
  split
  · next hb => exact finish_commandResult_inv h hb.2
  · exact h

theorem perform_inv (i : Input) {s : State} (h : Inv s) : Inv (perform i s).result := by
  cases i with
  | read a =>
    simp only [perform, Move.result]
    split
    · exact hostRead_inv h a
    · exact h
  | write a v =>
    simp only [perform, Move.result]
    split
    · next hr => exact hostWrite_inv h hr a v
    · exact h
  | core => exact coreMove_inv h
  | resetLow => exact enterReset_inv h
  | resetHigh => exact leaveReset_inv h

theorem nextMove_inv {s : State} (h : Inv s) : Inv (nextMove s).result := by
  unfold nextMove
  split
  · exact coreMove_inv h
  · next i rest _ => exact perform_inv i (h.withInputs rest)

/-- Settles O60, by cases on the next move: a completion, a host request or a change of the reset pin. -/
theorem stepKeepsTheInvariant : Obligations.StepKeepsTheInvariant := by
  intro s t h hs
  rw [step_eq] at hs
  cases hs
  exact nextMove_inv h

end Sys2Proof.Machine
end

section
/-! PROOFS. The address map (O50), the refused requests (O51) and what a host read answers (O52). -/

namespace Sys2Proof.Machine

/-! ## The address map -/

theorem Reg.offset_aligned (r : Reg) : r.offset % 4 = 0 := by cases r <;> rfl

theorem Reg.offset_lt (r : Reg) : r.offset < 2 ^ 24 := by cases r <;> decide

/-- The word offset of a target in range fits the 24 offset bits of an address (R6, R74). -/
theorem Target.wordOffset_lt {s : State} (hs : s.InstanceOk) {t : Target} (ht : t.inRange s.maxLen s.maxBytes) :
    t.wordOffset < 2 ^ 22 := by
  obtain ⟨-, hlen, -, hbytes⟩ := hs
  simp only [Config.capacityBound] at hlen hbytes
  cases t with
  | reg r =>
    have := r.offset_lt
    simp only [Target.wordOffset]; omega
  | _ => simp only [Target.inRange, Config.nsym, Config.nodeMax] at ht; simp only [Target.wordOffset]; omega

/-- An address names a target exactly when the target is in range and the address is its space and offset (R74). -/
theorem decodeAddr_eq_some {s : State} (hs : s.InstanceOk) (a : BitVec 28) (t : Target) :
    decodeAddr s a = some t ↔ t.inRange s.maxLen s.maxBytes ∧ a.toNat = 2 ^ 24 * t.space + 4 * t.wordOffset := by
  rw [decodeAddr_eq]
  constructor
  · intro h
    split at h
    · obtain ⟨ht, hspace, hword⟩ := (targetAt_eq_some _ _ _ _ _).1 h
      exact ⟨ht, by omega⟩
    · cases h
  · rintro ⟨ht, ha⟩
    have := Target.wordOffset_lt hs ht
    rw [if_pos (by omega)]
    exact (targetAt_eq_some _ _ _ _ _).2 ⟨ht, by omega, by omega⟩

/-- Settles O50: each clause is the address map at one kind of target. -/
theorem addressMap : Obligations.AddressMap := by
  intro s a hs
  have names := decodeAddr_eq_some hs a
  refine ⟨fun r => ?_, fun i => ?_, fun i => ?_, fun v => ?_, fun i w => ?_, fun v w => ?_⟩ <;>
    simp only [names, Target.inRange, Target.space, Target.wordOffset, Config.nsym, Config.nodeMax]
  · have := r.offset_aligned
    rw [true_and]
    omega
  all_goals omega

/-! ## Refused requests -/

/-- Where a space has no target: past its last element, and everywhere in the spaces from 6 on (R79). -/
theorem targetAt_eq_none (maxLen maxBytes space k : Nat) :
    targetAt maxLen maxBytes space k = none ↔
      6 ≤ space ∨ (space = 0 ∧ 15 ≤ k) ∨ (space = 1 ∧ maxLen ≤ k) ∨ (space = 2 ∧ maxBytes ≤ k) ∨
      (space = 3 ∧ Config.nsym ≤ k) ∨ (space = 4 ∧ Config.nodeMax ≤ k / 4) ∨
      (space = 5 ∧ (Config.nsym ≤ k / 16 ∨ 9 ≤ k % 16)) := by
  by_cases hs : space < 6
  · interval_cases space <;> simp [targetAt, regAt_eq_none, imp_iff_not_or]
  · rw [Option.eq_none_iff_forall_ne_some]
    refine iff_of_true (fun t ht => ?_) (.inl (by omega))
    obtain ⟨-, hspace, -⟩ := (targetAt_eq_some _ _ _ _ _).1 ht
    cases t <;> simp only [Target.space] at hspace <;> omega

theorem hostRead_refused {s : State} {a : BitVec 28} (h : decodeAddr s a = none) :
    hostRead a s = { s with rsp := some (.read 0 true) } := by simp only [hostRead, h]

theorem hostWrite_refused {s : State} {a : BitVec 28} (h : decodeAddr s a = none) (v : Word) :
    hostWrite a v s = { s with rsp := some (.write true) } := by simp only [hostWrite, h]

/-- Settles O51, from where each space has no target; a misaligned address names nothing. -/
theorem refusedRequestsChangeNothing : Obligations.RefusedRequestsChangeNothing := by
  intro s a v
  refine ⟨?_, fun h => ⟨hostRead_refused h, hostWrite_refused h v⟩⟩
  rw [decodeAddr_eq]
  split
  · rw [targetAt_eq_none]
    simp only [Config.nsym, Config.nodeMax]
    omega
  · next h => exact iff_of_true rfl (.inl h)

/-! ## Reads -/

/-- A read of a target whose value a read returns in this phase (R72, R77). -/
theorem hostRead_value {s : State} {a : BitVec 28} {t : Target} (h : decodeAddr s a = some t)
    (hr : s.phase = .idle ∨ t.readableWhileBusy = true) :
    hostRead a s = { s with rsp := some (.read (readTarget s t) false) } := by
  have : (s.busy && !t.readableWhileBusy) = false := by
    rcases hr with hi | hr
    · simp [(s.not_busy_iff).2 hi]
    · simp [hr]
  simp only [hostRead, h, this, Bool.false_eq_true, if_false]

/-- A read in the busy window of a target that is not readable then (R77, V4). -/
theorem hostRead_any {s : State} {a : BitVec 28} {t : Target} (h : decodeAddr s a = some t) (hb : s.phase = .busy)
    (hr : t.readableWhileBusy = false) : hostRead a s = readAny s := by
  simp only [hostRead, h, (s.busy_iff).2 hb, hr, Bool.not_false, Bool.and_self, if_true]

/-- A read changes the response and the counter of free values only (R72, log 7). -/
theorem hostRead_shape (a : BitVec 28) (s : State) : ∃ r n, hostRead a s = { s with rsp := r, draws := n } := by
  rcases hostRead_cases a s with ⟨-, h⟩ | ⟨t, -, -, -, h⟩ | ⟨t, -, -, h⟩ <;> exact ⟨_, _, h⟩

theorem hostRead_reg_of_idle {s : State} (hi : s.phase = .idle) (r : Reg) :
    hostRead (BitVec.ofNat 28 r.offset) s = { s with rsp := some (.read (readReg s r) false) } :=
  hostRead_value (decodeAddr_offset s r) (.inl hi)

/-- `IE` reads as its two enables in bits 1 and 2 (R43). -/
theorem ieWord_eq (s : State) : ieWord s = (if s.doneIe then 0x2 else 0) ||| (if s.errIe then 0x4 else 0) := by
  unfold ieWord
  cases s.doneIe <;> cases s.errIe <;> decide

/-- `ROOT` reads as `VALID` in bit 31 and `IDX` in bits 8:0 (R31). -/
theorem rootWord_eq (s : State) : rootWord s = (if s.rootValid then 0x80000000 else 0) ||| s.rootIdx.setWidth 32 := by
  have top : ∀ k < 32, (0x80000000 : Word).getLsbD k = decide (k = 31) := by decide
  apply BitVec.eq_of_getLsbD_eq
  intro k hk
  rw [rootWord_getLsbD, BitVec.getLsbD_or, BitVec.getLsbD_setWidth, Bool.or_comm]
  cases s.rootValid with
  | false => simp [hk]
  | true => simp only [if_true, top k hk, hk, decide_true, Bool.true_and, Bool.and_true]

/-- Settles O52: what a read changes, what it answers, and the fifteen registers at their offsets. -/
theorem readsChangeNothing : Obligations.ReadsChangeNothing := by
  intro s a
  refine ⟨?_, fun t hi h => hostRead_value h (.inl hi), fun hi => ?_⟩
  · obtain ⟨r, n, h⟩ := hostRead_shape a s
    rw [h]
  · have read := hostRead_reg_of_idle hi
    rw [← ieWord_eq, ← rootWord_eq]
    exact ⟨read .id, read .param0, read .param1, read .param2, read .cmd, read .status, read .errInfo, read .ie,
      read .symLen, read .byteLen, read .pad, read .bitLen, read .root, read .nnode, read .nleaf⟩

end Sys2Proof.Machine
end

section
/-! PROOFS. Written memory words read back (O53), and the busy window (O55, O56). -/

namespace Sys2Proof.Machine

/-! ## Written words -/

theorem setWidth_extractLsb'_low_byte (v : Word) : (v.extractLsb' 0 8).setWidth 32 = v &&& 0x000000FF := by
  have mask : ∀ k < 32, (0x000000FF : Word).getLsbD k = decide (k < 8) := by decide
  apply BitVec.eq_of_getLsbD_eq
  intro k hk
  rw [BitVec.getLsbD_and, mask k hk]
  simp [hk, Bool.and_comm]

/-- A memory word reads back as its stored bits (R73, R75, R76, R78). -/
theorem readTarget_writeTarget_same (s : State) (v : Word) {t : Target} (hm : ∀ r, t ≠ .reg r) :
    readTarget (writeTarget t v s) t = v &&& t.storedBits := by
  cases t with
  | reg r => exact absurd rfl (hm r)
  | sym i => simp [readTarget, writeTarget, symAt, readWith_put, setWidth_extractLsb'_low_byte, Target.storedBits]
  | byte i => simp [readTarget, writeTarget, byteAt, readWith_put, setWidth_extractLsb'_low_byte, Target.storedBits]
  | freq i =>
    have full : v &&& 0xFFFFFFFF = v := BitVec.and_allOnes
    simp only [readTarget, writeTarget, freqAt, readWith_put, Target.storedBits, if_true, full]
  | node i w => simp [readTarget, writeTarget, nodeWordAt, readWith_put, Target.storedBits]
  | code i w => simp [readTarget, writeTarget, codeWordAt, readWith_put, Target.storedBits]

theorem readWith_put_ne {α : Type} {free : Nat → α} {m : Memory α} {i j : Nat} {v : α} (h : j ≠ i) :
    Memory.readWith free (Memory.put m i v) j = Memory.readWith free m j := by rw [readWith_put, if_neg h]

theorem readReg_writeTarget_memory (s : State) (v : Word) {t : Target} (hm : ∀ r, t ≠ .reg r) (r : Reg) :
    readReg (writeTarget t v s) r = readReg s r := by
  cases t with
  | reg r' => exact absurd rfl (hm r')
  | _ => cases r <;> rfl

/-- A write of a memory word leaves every other word and every register as it reads (R82). Two words of one memory have
different numbers, since the word of an element is below 4 or 9. -/
theorem readTarget_writeTarget_other {s : State} (v : Word) {t u : Target} (hm : ∀ r, t ≠ .reg r)
    (ht : t.inRange s.maxLen s.maxBytes) (hu : u.inRange s.maxLen s.maxBytes) (hne : u ≠ t) :
    readTarget (writeTarget t v s) u = readTarget s u := by
  cases t with
  | reg r => exact absurd rfl (hm r)
  | sym i =>
    cases u with
    | reg r => exact readReg_writeTarget_memory s v hm r
    | sym j => exact congrArg (BitVec.setWidth 32) (readWith_put_ne fun h => hne (h ▸ rfl))
    | _ => rfl
  | byte i =>
    cases u with
    | reg r => exact readReg_writeTarget_memory s v hm r
    | byte j => exact congrArg (BitVec.setWidth 32) (readWith_put_ne fun h => hne (h ▸ rfl))
    | _ => rfl
  | freq i =>
    cases u with
    | reg r => exact readReg_writeTarget_memory s v hm r
    | freq j => exact readWith_put_ne fun h => hne (h ▸ rfl)
    | _ => rfl
  | node i w =>
    cases u with
    | reg r => exact readReg_writeTarget_memory s v hm r
    | node j x =>
      obtain ⟨⟨-, hw⟩, -, hx⟩ := And.intro ht hu
      have : 4 * j + x ≠ 4 * i + w := fun h => hne (by rw [Target.node.injEq]; omega)
      simp only [readTarget, writeTarget, nodeWordAt, readWith_put_ne this]
    | _ => rfl
  | code i w =>
    cases u with
    | reg r => exact readReg_writeTarget_memory s v hm r
    | code j x =>
      obtain ⟨⟨-, hw⟩, -, hx⟩ := And.intro ht hu
      have : 9 * j + x ≠ 9 * i + w := fun h => hne (by rw [Target.code.injEq]; omega)
      simp only [readTarget, writeTarget, codeWordAt, readWith_put_ne this]
    | _ => rfl

theorem hostWrite_of_idle {s : State} {a : BitVec 28} {t : Target} (hi : s.phase = .idle) (h : decodeAddr s a = some t)
    (v : Word) : hostWrite a v s = { writeTarget t v s with rsp := some (.write false) } := by
  simp only [hostWrite, h, (s.not_busy_iff).2 hi, Bool.false_eq_true, if_false]

theorem hostWrite_of_busy {s : State} {a : BitVec 28} {t : Target} (hb : s.phase = .busy) (h : decodeAddr s a = some t)
    (v : Word) : hostWrite a v s = { writeTargetBusy t v s with rsp := some (.write false) } := by
  simp only [hostWrite, h, (s.busy_iff).2 hb, if_true]

/-- No word and no register shows the port's response. -/
theorem readTarget_withRsp (s : State) (r : Option Response) (t : Target) :
    readTarget { s with rsp := r } t = readTarget s t := by
  cases t with
  | reg r => cases r <;> rfl
  | _ => rfl

/-- Settles O53, from what the written word and every other word read as after the write. -/
theorem writtenWordsReadBack : Obligations.WrittenWordsReadBack := by
  intro s a v t hi h hm
  rw [hostWrite_of_idle hi h v]
  refine ⟨rfl, ?_, fun a' u hu hne => ?_⟩ <;> rw [readTarget_withRsp]
  · exact readTarget_writeTarget_same s v hm
  · exact readTarget_writeTarget_other v hm (decodeAddr_inRange h) (decodeAddr_inRange hu) hne

/-! ## The busy window -/

/-- The seven registers that read in the busy window (R77). -/
theorem readableWhileBusy_iff (t : Target) : t.readableWhileBusy = true ↔
    t ∈ [Target.reg .status, .reg .id, .reg .param0, .reg .param1, .reg .param2, .reg .ie, .reg .cmd] := by
  cases t with
  | reg r => cases r <;> decide
  | _ => simp [Target.readableWhileBusy]

/-- Settles O55, from the two kinds of busy read and the three kinds of busy write. -/
theorem busyWindow : Obligations.BusyWindow := by
  intro s a v t hb h
  have write := hostWrite_of_busy hb h v
  refine ⟨fun hr => hostRead_value h (.inr hr), fun hr => ?_, readableWhileBusy_iff t, ?_, ?_, fun hie hst => ?_⟩
  · rw [hostRead_any h hb hr]; exact ⟨_, rfl⟩
  · rintro rfl; exact write
  · rintro rfl; exact write
  · rcases writeTargetBusy_cases t v s with ⟨ht, -⟩ | ⟨ht, -⟩ | ⟨-, -, hw⟩
    · exact absurd ht hie
    · exact absurd ht hst
    · rw [write, hw]; rfl

/-- A write to a running core changes the response, `IE`, `DONE`, the latch and `DROP` only (R77, R84). -/
theorem hostWrite_busy_shape {s : State} (hb : s.phase = .busy) (a : BitVec 28) (v : Word) :
    ∃ rsp drop doneIe errIe done err errCode errInfo, hostWrite a v s =
      { s with rsp, drop, doneIe, errIe, done, err, errCode, errInfo } := by
  rcases hostWrite_cases a v s with ⟨-, h⟩ | ⟨t, -, -, h⟩ | ⟨t, -, hi, -⟩
  · exact ⟨_, _, _, _, _, _, _, _, h⟩
  · rw [h]
    rcases writeTargetBusy_cases t v s with ⟨-, hw⟩ | ⟨-, hw⟩ | ⟨-, -, hw⟩
    · rw [hw]; exact ⟨_, _, _, _, _, _, _, _, rfl⟩
    · rw [hw, writeStatus_eq]; exact ⟨_, _, _, _, _, _, _, _, rfl⟩
    · rw [hw]; exact ⟨_, _, _, _, _, _, _, _, rfl⟩
  · exact absurd (hi.symm.trans hb) nofun

/-- A step that takes an action off the list performs it. -/
theorem step_of_inputs {s : State} {i : Input} {rest : List Input} (h : s.inputs = i :: rest) :
    step s = .next (perform i { s with inputs := rest }).result := by
  rw [step_eq, nextMove, h]

/-- Settles O56, from what a read and a write to a running core change; with `rst_n` low neither is performed. -/
theorem hostCannotDisturbARunningCommand : Obligations.HostCannotDisturbARunningCommand := by
  intro s t i rest hb hin hreq hstep
  rw [step_of_inputs hin] at hstep
  cases hstep
  rcases hreq with ⟨a, rfl⟩ | ⟨a, v, rfl⟩ <;> simp only [perform, Move.result] <;> split
  · obtain ⟨r, n, h⟩ := hostRead_shape a { s with inputs := rest }
    rw [h]
  · rfl
  · obtain ⟨_, _, _, _, _, _, _, _, h⟩ := hostWrite_busy_shape (s := { s with inputs := rest }) hb a v
    rw [h]
  · rfl

end Sys2Proof.Machine
end

section
/-! PROOFS. The words of `NODE` and `CODE` elements as the host port reads them (O57). -/

namespace Sys2Proof.Machine

/-! ## The words of a node -/

/-- Word 1 holds `WEIGHT[39:32]` in bits 7:0 (R76). -/
theorem weightHigh_getLsbD (w : Weight) {k : Nat} (hk : k < 32) :
    ((w.extractLsb' 32 8).setWidth 32).getLsbD k = (decide (k < 8) && w.getLsbD (32 + k)) := by
  simp [hk]

/-- Word 2 holds `LEFT` in bits 8:0 (R76). -/
theorem childWord_low (l r : NodeIdx) {k : Nat} (hk : k < 16) :
    ((0 : BitVec 7) ++ (r ++ ((0 : BitVec 7) ++ l))).getLsbD k = (decide (k < 9) && l.getLsbD k) := by
  rw [getLsbD_zero_append, BitVec.getLsbD_append, if_pos hk, getLsbD_zero_append]
  by_cases h : k < 9
  · simp [h]
  · simp [h, BitVec.getLsbD_of_ge l k (by omega)]

/-- Word 2 holds `RIGHT` in bits 24:16 (R76). -/
theorem childWord_high (l r : NodeIdx) (k : Nat) :
    ((0 : BitVec 7) ++ (r ++ ((0 : BitVec 7) ++ l))).getLsbD (16 + k) = (decide (k < 9) && r.getLsbD k) := by
  rw [getLsbD_zero_append, BitVec.getLsbD_append, if_neg (by omega), show 16 + k - (7 + 9) = k by omega]
  by_cases h : k < 9
  · simp [h]
  · simp [h, BitVec.getLsbD_of_ge r k (by omega)]

/-- Word 3 holds `SYM` in bits 7:0 and `TAG` in bit 8 (R76). -/
theorem tagWord_getLsbD (tag : Bool) (sym : Byte) (k : Nat) :
    ((0 : BitVec 23) ++ (BitVec.ofBool tag ++ sym)).getLsbD k = if k < 8 then sym.getLsbD k else decide (k = 8) && tag := by
  rw [getLsbD_zero_append, getLsbD_ofBool_append]

/-- The layout of the four words of a node, bit by bit, and the way back (R76). -/
theorem nodeWords_layout (n : Node) : ∃ w0 w1 w2 w3 : Word, nodeWords n = [w0, w1, w2, w3] ∧ nodeOfWords w0 w1 w2 w3 = n ∧
    (∀ k, k < 32 → w0.getLsbD k = n.weight.getLsbD k) ∧
    (∀ k, k < 32 → w1.getLsbD k = (decide (k < 8) && n.weight.getLsbD (32 + k))) ∧
    (∀ k, k < 16 → w2.getLsbD k = (decide (k < 9) && n.left.getLsbD k)) ∧
    (∀ k, k < 16 → w2.getLsbD (16 + k) = (decide (k < 9) && n.right.getLsbD k)) ∧
    (∀ k, k < 8 → w3.getLsbD k = n.sym.getLsbD k) ∧ w3.getLsbD 8 = n.tag ∧
    (∀ k, 9 ≤ k → w3.getLsbD k = false) := by
  refine ⟨_, _, _, _, rfl, nodeOfWords_nodeWords n, fun k hk => ?_, fun k => weightHigh_getLsbD n.weight,
    fun k => childWord_low n.left n.right, fun k _ => childWord_high n.left n.right k, fun k hk => ?_, ?_, fun k hk => ?_⟩
  · simp [hk]
  · rw [tagWord_getLsbD, if_pos hk]
  · rw [tagWord_getLsbD]; rfl
  · rw [tagWord_getLsbD, if_neg (by omega)]
    simp [show k ≠ 8 by omega]

/-! ## The elements at the port -/

theorem Inv.nodeWords_getElem? {s : State} (h : Inv s) (i : Nat) {w : Nat} (hw : w < 4) :
    (nodeWords (nodeAt s i))[w]? = some (readTarget s (.node i w)) := by
  rw [h.nodeWords_nodeAt]
  interval_cases w <;> rfl

/-- Word `w` of a `CODE` element is `BITS[32*w-1 : 32*(w-1)]` (R78). -/
theorem codeWord_getLsbD (s : State) (v : Nat) {w k : Nat} (h1 : 1 ≤ w) (h8 : w ≤ 8) (hk : k < 32) :
    (readTarget s (.code v w)).getLsbD k = (codeAt s v).bits.getLsbD (32 * (w - 1) + k) := by
  rw [codeAt_bits s v _ (by omega), codeBit, readTarget, show 9 * v + 1 + (32 * (w - 1) + k) / 32 = 9 * v + w by omega,
    show (32 * (w - 1) + k) % 32 = k by omega]

/-- Settles O57, from the layout of a node's words and the elements at the port. -/
theorem nodeWordLayout : Obligations.NodeWordLayout :=
  ⟨nodeWords_layout, fun s h => ⟨fun _ => rfl, fun _ => rfl, fun _ => rfl, fun i _ => h.nodeWords_getElem? i,
    h.codeWord_zero, fun v _ _ => codeWord_getLsbD s v, codeString_eq s⟩⟩

end Sys2Proof.Machine
end

section
/-! PROOFS. The command word (O1 to O4): the decoder inverts `encode`, and a word of no command completes with an error. -/

namespace Sys2Proof

/-! ## The decoder and the words of the commands -/

theorem decode_encode (i : Instr) : decode (encode i) = .ok i := by
  rw [decode, decodeFields_wellFormed (encode_wellFormed i), encode, splitWord_joinFields]
  exact ofOpcode_opcodeOf i

theorem opcodeOf_of_ofOpcode {a : Bool} {n : Nat} {i : Instr} (h : ofOpcode a n = .ok i) : (opcodeOf i).toNat = n := by
  unfold ofOpcode at h
  split at h <;> cases h <;> rfl

theorem algBitOf_of_ofOpcode {a : Bool} {n : Nat} {i : Instr} (h : ofOpcode a n = .ok i) (ha : a = true → n = 7) :
    algBitOf i = a := by
  unfold ofOpcode at h
  split at h <;> cases h
  case h_8 => cases a <;> rfl -- COMPRESS
  all_goals exact (Bool.eq_false_iff.2 fun h => absurd (ha h) nofun).symm

theorem Fields.wellFormed_iff (f : Fields) :
    f.wellFormed = true ↔ f.opcode.toNat ≤ 0x0A ∧ f.reserved = 0 ∧ (f.alg = true → f.opcode = 0x07) := by
  simp [Fields.wellFormed, Fields.opcodeOk, Fields.reservedOk, Fields.algOk, and_assoc, imp_iff_not_or]

theorem wellFormed_of_decodeFields_ok {f : Fields} {i : Instr} (h : decodeFields f = .ok i) : f.wellFormed = true := by
  rw [← Bool.not_eq_false, ← decodeFields_refuses_iff]
  rintro ⟨e, he⟩
  cases h.symm.trans he

/-- Fields that decode to a command are the fields of its word (R100, R101). -/
theorem fields_of_decodeFields_ok {f : Fields} {i : Instr} (h : decodeFields f = .ok i) :
    f = { opcode := opcodeOf i, alg := algBitOf i, reserved := 0 } := by
  have hw := wellFormed_of_decodeFields_ok h
  obtain ⟨-, hreserved, halg⟩ := f.wellFormed_iff.1 hw
  rw [decodeFields_wellFormed hw] at h
  have hopcode : opcodeOf i = f.opcode := BitVec.eq_of_toNat_eq (opcodeOf_of_ofOpcode h)
  have halgBit : algBitOf i = f.alg := algBitOf_of_ofOpcode h fun ha => by rw [halg ha]; rfl
  rw [hopcode, halgBit, ← hreserved]

/-- Settles O1: the fields hold every bit of the word, and those that decode to a command are its own. -/
theorem decodeAcceptsExactlyTheEncodings : Obligations.DecodeAcceptsExactlyTheEncodings := by
  intro w i
  constructor
  · intro h
    rw [encode, ← fields_of_decodeFields_ok h, joinFields_splitWord]
  · rintro rfl
    exact decode_encode i

/-! ## The twelve legal words -/

/-- Every command, in the order of the opcode map (R101). -/
def commands : List Instr :=
  [.nop, .analyze, .buildSf, .buildHuf, .gencodes, .pack, .unpack, .compress .shannonFano, .compress .huffman,
    .decompress, .checktree, .clear]

theorem mem_commands (i : Instr) : i ∈ commands := by
  cases i with
  | compress alg => cases alg <;> decide
  | _ => decide

theorem commands_map_encode : commands.map encode =
    [0x000, 0x001, 0x002, 0x003, 0x004, 0x005, 0x006, 0x007, 0x107, 0x008, 0x009, 0x00A] := by decide

/-- Settles O2: the twelve words are the words of the twelve commands. -/
theorem legalWordsAreTheTwelve : Obligations.LegalWordsAreTheTwelve := by
  refine ⟨fun w => ?_, decode_encode .nop, decode_encode .analyze, decode_encode .buildSf, decode_encode .buildHuf,
    decode_encode .gencodes, decode_encode .pack, decode_encode .unpack, decode_encode (.compress .shannonFano),
    decode_encode (.compress .huffman), decode_encode .decompress, decode_encode .checktree, decode_encode .clear⟩
  rw [← commands_map_encode, List.mem_map]
  refine exists_congr fun i => ?_
  rw [decodeAcceptsExactlyTheEncodings, eq_comm]
  exact (and_iff_right (mem_commands i)).symm

/-- Settles O3: a command is one word of the table, and the decoder computes on it. -/
theorem tableWordsDecode : Obligations.TableWordsDecode := by
  unfold Obligations.TableWordsDecode
  decide

/-- The decoder refuses exactly the words of no command. -/
theorem decode_refuses_iff (w : Word) : (∃ e, decode w = .error e) ↔ ∀ i, w ≠ encode i := by
  simp only [ne_eq, ← decodeAcceptsExactlyTheEncodings w]
  cases decode w with
  | ok i => simp
  | error e => simp

/-- The three ways in which a word is illegal (R106). -/
theorem decode_refuses_iff_fields (w : Word) : (∃ e, decode w = .error e) ↔
    0x0A < (w.extractLsb' 0 8).toNat ∨ w.extractLsb' 9 23 ≠ 0 ∨ (w.getLsbD 8 = true ∧ w.extractLsb' 0 8 ≠ 0x07) := by
  rw [decode, decodeFields_refuses_iff, ← Bool.not_eq_true, Fields.wellFormed_iff, splitWord]
  simp only [not_and_or, Classical.not_imp, not_le, ne_eq]

end Sys2Proof

namespace Sys2Proof.Machine

/-! ## An illegal word in `CMD` -/

theorem issueCommand_accepted {s : State} (hi : s.phase = .idle) (he : s.err = false) (w : Word) :
    issueCommand w s = acceptCommand w s := by
  simp [issueCommand, hi, he]

/-- A host write to `CMD` of a core that accepts commands (R251). -/
theorem hostWrite_cmd_accepted {s : State} (hi : s.phase = .idle) (he : s.err = false) (w : Word) :
    hostWrite 0x10 w s = { acceptCommand w s with rsp := some (.write false) } := by
  rw [← issueCommand_accepted hi he]
  exact hostWrite_reg_of_idle hi .cmd w

/-- With no action at the pins, a running core completes its command (R252). -/
theorem step_completes {s : State} (hr : s.rstN = true) (hb : s.phase = .busy) (hin : s.inputs = []) :
    step s = .next (finish (commandResult s)) := by
  rw [step_eq, nextMove, hin]
  simp only [coreMove, hr, hb, and_self, if_true, Move.result]

theorem commandResult_illegal {s : State} (h : ∀ i, s.cmd ≠ encode i) :
    commandResult s = .raised { kind := .illegalCommand, info := s.cmd } s := by
  obtain ⟨e, he⟩ := (decode_refuses_iff s.cmd).2 h
  simp only [commandResult, fetchWord, he]

/-- An illegal word completes by latching `IllegalCommand` with the word (R106). -/
theorem step_illegal {s : State} (hr : s.rstN = true) (hb : s.phase = .busy) (hin : s.inputs = [])
    (h : ∀ i, s.cmd ≠ encode i) : step s = .next (latchError { kind := .illegalCommand, info := s.cmd } s) := by
  rw [step_completes hr hb hin, commandResult_illegal h, finish]

/-- Settles O4: the decoder refuses the illegal words; the first step accepts the word, and the second raises its error. -/
theorem illegalWordsCompleteWithIllegalCommand : Obligations.IllegalWordsCompleteWithIllegalCommand := by
  intro w illegal
  have hw : illegal ↔ ∀ i, w ≠ encode i := (decode_refuses_iff_fields w).symm.trans (decode_refuses_iff w)
  refine ⟨hw, fun s hill hr hi he hin => ⟨{ acceptCommand w { s with inputs := [] } with rsp := some (.write false) },
    ?_, rfl, rfl, ?_⟩⟩
  · rw [step_of_inputs hin, ← hostWrite_cmd_accepted (s := { s with inputs := [] }) hi he]
    simp only [perform, hr, if_true, Move.result]
  · refine (step_illegal ?_ rfl rfl ?_).trans ?_
    · exact hr
    · exact hw.1 hill
    · simp only [latchError, acceptCommand, hi, ErrKind.code]

end Sys2Proof.Machine
end

section
/-! PROOFS. `ANALYZE` (O15, O16): the table of counts, and the error of a length that does not fit the buffer. -/

namespace Sys2Proof.Machine

/-- `ANALYZE` of a sequence that fits the buffer (R131). -/
theorem exec_analyze_of_fits {s : State} (h : s.symLen.toNat ≤ s.maxLen) :
    exec .analyze s = .next (finishOk { s with freq := Memory.ofList (countTable (symbols s s.symLen.toNat)) }) := by
  rcases analyzeEffect_cases s with ⟨hlt, -⟩ | ⟨-, he⟩
  · exact absurd h (Nat.not_le.2 hlt)
  · rw [exec_eq, effectOf, he, finish]

/-- `ANALYZE` of a sequence that does not fit: `BadOperand(0x020)` (R131, R272). -/
theorem exec_analyze_of_too_long {s : State} (h : s.maxLen < s.symLen.toNat) :
    exec .analyze s = .next (latchError badSymLen s) := by
  rcases analyzeEffect_cases s with ⟨-, he⟩ | ⟨hle, -⟩
  · rw [exec_eq, effectOf, he, finish]
  · exact absurd hle (Nat.not_le.2 h)

/-- `FREQ[v]` after the table of the first `n` symbols was written; a length of 32 bits keeps every count from wrapping. -/
theorem freqAt_countTable_symbols {s t : State} {n : Nat} (hf : t.freq = Memory.ofList (countTable (symbols s n)))
    (hn : n < 2 ^ 32) {v : Nat} (hv : v < 256) : (freqAt t v).toNat = (symbols s n).count (BitVec.ofNat 8 v) :=
  freqAt_countTable hf (by rwa [symbols_length]) hv

/-- Counting a symbol value in the sequence is counting the indexes that hold it. -/
theorem count_symbols (s : State) (n : Nat) {v : Nat} (hv : v < 256) :
    (symbols s n).count (BitVec.ofNat 8 v) = ((List.range n).filter fun i => (symAt s i).toNat == v).length := by
  rw [symbols, List.count_eq_countP, List.countP_map, List.countP_eq_length_filter]
  congr 2
  funext i
  rw [Function.comp_apply, Bool.beq_eq_decide_eq, Bool.beq_eq_decide_eq, decide_eq_decide, eq_comm,
    ofNat_eq_iff_byte hv, eq_comm]

/-- Settles O15: the table holds the counts of the symbols, and a sequence that is too long writes nothing but the error. -/
theorem analyzeCountsOccurrences : Obligations.AnalyzeCountsOccurrences := by
  refine ⟨decode_encode .analyze, fun s => ⟨fun h => ⟨_, exec_analyze_of_fits h, rfl, fun v hv => ?_⟩,
    exec_analyze_of_too_long⟩⟩
  rw [freqAt_countTable_symbols rfl s.symLen.isLt hv, count_symbols s _ hv]

/-- Settles O16: each of the symbols is counted under exactly one of the 256 values. -/
theorem analyzeCountsSumToTheLength : Obligations.AnalyzeCountsSumToTheLength := by
  intro s t h ht
  rw [exec_analyze_of_fits h] at ht
  cases ht
  calc
    _ = ((List.range 256).map fun v => (symbols s s.symLen.toNat).count (BitVec.ofNat 8 v)).sum :=
      congrArg List.sum <| List.map_congr_left fun v hv =>
        freqAt_countTable_symbols rfl s.symLen.isLt (List.mem_range.1 hv)
    _ = (symbols s s.symLen.toNat).length := sum_counts _
    _ = s.symLen.toNat := symbols_length s _

end Sys2Proof.Machine
end

section
/-! PROOFS. The Shannon-Fano tree (O17 to O20): the sorted pairs, the split and the tree that the splits build. -/

namespace Sys2Proof.Machine

/-! ## The pairs and the split -/

/-- Settles O17: insertion sort by `Item.before`, which is total on the keys since their symbols differ. -/
theorem itemsAreTheKeysInOrder : Obligations.ItemsAreTheKeysInOrder := fun s =>
  ⟨mem_keyItems s, keyItems_pairwise s, sortItems_perm _,
    (sortItems_sorted (keyItems_symbols_nodup s)).imp (before_iff _ _).1⟩

/-- `|2*L(k) - T|` on natural numbers is the one on integers (R145). -/
theorem splitDiff_eq_natAbs (fs : List Nat) (k : Nat) :
    splitDiff fs k = (2 * ((fs.take k).sum : Int) - (fs.sum : Int)).natAbs := by
  unfold splitDiff absDiff
  omega

/-- Settles O18, from the first minimum that the scan keeps. -/
theorem splitIndexIsTheFirstMinimum : Obligations.SplitIndexIsTheFirstMinimum := by
  intro fs h
  obtain ⟨hge, hle, hleast, hfirst⟩ := splitIndex_firstMin fs h
  simp only [splitDiff_eq_natAbs] at hleast hfirst
  exact ⟨hge, hle, hleast, hfirst⟩

/-! ## The tree -/

/-- Both halves of a split are non-empty (R144). -/
theorem split_ne_nil {items : List Item} (h : 2 ≤ items.length) :
    items.take (splitIndex (freqs items)) ≠ [] ∧ items.drop (splitIndex (freqs items)) ≠ [] := by
  obtain ⟨ht, hd, hpos, hlt⟩ := split_lengths h
  constructor <;> rw [← List.length_pos_iff] <;> omega

/-- Settles O19: one level of `Build`, whose halves are too short to exhaust the bound of the recursion. -/
theorem shannonFanoBuildsByRecursiveSplits : Obligations.ShannonFanoBuildsByRecursiveSplits := by
  refine ⟨sfTree_singleton 1, fun items h => ?_⟩
  obtain ⟨hl, hr⟩ := split_ne_nil h
  obtain ⟨ht, hd, hpos, hlt⟩ := split_lengths h
  obtain ⟨fuel, hf⟩ := Nat.exists_eq_add_of_lt (show 0 < items.length by omega)
  rw [Nat.zero_add] at hf
  refine ⟨hl, hr, ?_⟩
  conv_lhs => rw [hf, sfTree_succ fuel h, sfTree_fuel fuel _ hl (by omega), sfTree_fuel fuel _ hr (by omega)]

/-- Settles O20, from the properties of `Build` on any list of at most 256 items. -/
theorem shannonFanoTreeProperties : Obligations.ShannonFanoTreeProperties := by
  intro s hkeys
  have hne := keyItems_ne_nil hkeys
  have hlen := sortItems_length (keyItems s)
  obtain ⟨hweight, hadd⟩ := sfTree_weights _ (sorted_ne_nil hne) (hlen ▸ keyItems_length_le s)
  have hdepth := sfTree_depth _ (sorted_ne_nil hne)
  refine ⟨shannonFanoTree_symbols hne, hadd, ?_, hlen ▸ hdepth⟩
  calc (shannonFanoTree s).weight.toNat
    _ = (freqs (sortItems (keyItems s))).sum := hweight
    _ = (freqs (keyItems s)).sum := ((sortItems_perm (keyItems s)).map _).sum_eq
    _ = _ := sum_keyItems s

end Sys2Proof.Machine
end

section
/-! PROOFS. What the two builders have in common (O21, O25, O26): without keys an error, else an installed list of nodes that
is a function of the keys. -/

namespace Sys2Proof.Machine

/-- The nodes a builder creates from the keys, in creation order (R142, R163). -/
def builtNodes : Alg → List Item → List Node
  | .shannonFano, items => (sfTree (sortItems items).length (sortItems items)).postorder 0
  | .huffman, items     => huffmanNodes items

theorem builder_iff (i : Instr) : (i = .buildSf ∨ i = .buildHuf) ↔ ∃ a, i = builderOf a := by
  constructor
  · rintro (rfl | rfl)
    · exact ⟨.shannonFano, rfl⟩
    · exact ⟨.huffman, rfl⟩
  · rintro ⟨a, rfl⟩
    cases a
    · exact .inl rfl
    · exact .inr rfl

theorem effectOf_builderOf (a : Alg) (s : State) : effectOf (builderOf a) s = buildEffect a s := by cases a <;> rfl

theorem buildEffect_of_empty (a : Alg) {s : State} (h : keyItems s = []) : buildEffect a s = noTree s := by
  cases a <;> exact if_pos h

theorem buildEffect_of_keys (a : Alg) {s : State} (h : keyItems s ≠ []) :
    buildEffect a s = .ok (installTree (builtNodes a (keyItems s)) (keyItems s).length s) := by
  cases a <;> exact if_neg h

/-- A builder on an all-zero table: `EmptyInput(0)`, no tree (R142, R163, R277). -/
theorem exec_builder_of_empty (a : Alg) {s : State} (h : keyItems s = []) :
    exec (builderOf a) s = .next (latchError { kind := .emptyInput, info := 0 }
      { s with rootValid := false, nnode := 0, nleaf := 0 }) := by
  rw [exec_eq, effectOf_builderOf, buildEffect_of_empty a h, noTree, finish]

/-- A builder on a table with keys completes with its nodes installed (R142, R163). -/
theorem exec_builder_of_keys (a : Alg) {s : State} (h : keyItems s ≠ []) :
    exec (builderOf a) s = .next (finishOk (installTree (builtNodes a (keyItems s)) (keyItems s).length s)) := by
  rw [exec_eq, effectOf_builderOf, buildEffect_of_keys a h, finish]

theorem nodeAt_finishOk (s : State) : nodeAt (finishOk s) = nodeAt s := nodeAt_congr rfl rfl

/-- Settles O25: without a key either builder ends in its `EmptyInput(0)`. -/
theorem buildersRefuseTheEmptyTable : Obligations.BuildersRefuseTheEmptyTable := by
  intro s i hi hzero
  obtain ⟨a, rfl⟩ := (builder_iff i).1 hi
  exact exec_builder_of_empty a ((keyItems_eq_nil_iff s).2 hzero)

/-- Settles O26: equal tables have equal keys, and the nodes are a function of the keys. -/
theorem buildersDependOnFreqAlone : Obligations.BuildersDependOnFreqAlone := by
  intro i s s' t t' hi hfreq ht ht'
  obtain ⟨a, rfl⟩ := (builder_iff i).1 hi
  have hkeys : keyItems s' = keyItems s := (keyItems_congr hfreq).symm
  by_cases h : keyItems s = []
  · rw [exec_builder_of_empty a h] at ht
    rw [exec_builder_of_empty a (hkeys.trans h)] at ht'
    cases ht
    cases ht'
    exact ⟨rfl, rfl, rfl, nofun, nofun⟩
  · rw [exec_builder_of_keys a h] at ht
    rw [exec_builder_of_keys a (hkeys ▸ h), hkeys] at ht'
    cases ht
    cases ht'
    refine ⟨rfl, rfl, rfl, fun _ => rfl, fun k hk => ?_⟩
    have hlt : k < (builtNodes a (keyItems s)).length := hk.trans_le (Nat.mod_le _ _)
    rw [nodeAt_finishOk, nodeAt_finishOk, installTree_nodeAt hlt, installTree_nodeAt hlt]

/-- Settles O21: the tree is installed in post-order, where the nodes written are those below `NNODE`. -/
theorem buildSfInstallsTheTree : Obligations.BuildSfInstallsTheTree := by
  intro s hkeys n
  have hne := keyItems_ne_nil hkeys
  have hlen : ((shannonFanoTree s).postorder 0).length = 2 * n - 1 := by
    rw [postorder_length, shannonFanoTree_size hne]
  obtain ⟨hholds, hchildren⟩ := shannonFano_holds hne
  have hexec : exec .buildSf s = .next (finishOk (installTree ((shannonFanoTree s).postorder 0) n s)) :=
    exec_builder_of_keys .shannonFano hne
  refine ⟨_, hexec, ?_, List.length_pos_iff.2 hne, keyItems_length_le s, hholds,
    fun i x hx => installTree_getElem? (n := n) hx, hchildren,
    fun i hi => installTree_nodeAt_kept (n := n) (hlen.trans_le hi)⟩
  simp only [finishOk, installTree, hlen, Nat.sub_sub]

end Sys2Proof.Machine
end

section
/-! PROOFS. The Huffman tree (O22 to O24): the installed arena is the leaves and then the merges, whose weights never
decrease. -/

namespace Sys2Proof.Machine

/-- `BUILD_HUF` on a table with keys completes with the Huffman arena installed (R163). -/
theorem exec_buildHuf_of_keys {s : State} (h : keyItems s ≠ []) :
    exec .buildHuf s = .next (finishOk (installTree (huffmanNodes (keyItems s)) (keyItems s).length s)) :=
  exec_builder_of_keys .huffman h

/-- Settles O22: the arena of the merges, with its fields read off the number of nodes. -/
theorem huffmanMergesTheTwoLowest : Obligations.HuffmanMergesTheTwoLowest := by
  intro s hkeys n
  have hne := keyItems_ne_nil hkeys
  have hlen : (huffmanNodes (keyItems s)).length = 2 * n - 1 := huffmanNodes_length _ hne
  obtain ⟨hmerges, -⟩ := huffman_holds hne
  refine ⟨_, exec_buildHuf_of_keys hne, ?_, List.length_pos_iff.2 hne, keyItems_length_le s,
    fun j x hx => installTree_getElem? (n := n) (huffmanNodes_leaf hx), fun k hn hk => ?_,
    fun i hi => installTree_nodeAt_kept (n := n) (hlen.trans_le hi)⟩
  · simp only [finishOk, installTree, hlen, Nat.sub_sub, n]
  · obtain ⟨j, rfl⟩ := Nat.exists_eq_add_of_le hn
    exact hmerges j (by omega)

/-- Settles O23: the tree of the merges, whose root weight is the sum over the keys and so over all counts. -/
theorem huffmanTreeProperties : Obligations.HuffmanTreeProperties := by
  intro s t hkeys ht
  have hne := keyItems_ne_nil hkeys
  rw [exec_buildHuf_of_keys hne] at ht
  cases ht
  obtain ⟨-, tr, hholds, hadd, hweight, hsymbols⟩ := huffman_holds hne
  exact ⟨tr, hholds, hsymbols, hadd, hweight.trans (sum_keyItems s)⟩

/-- The nodes that the merges of the keys make, in creation order (R163). -/
def keyMerges (s : State) : List Node :=
  mergeNodes (keyItems s).length (leafQueue 0 (keyItems s)) (keyItems s).length

theorem keyMerges_length (s : State) : (keyMerges s).length = (keyItems s).length - 1 := by
  rw [keyMerges, mergeNodes_length _ _ _ (leafQueue_length _ _).le, leafQueue_length]

/-- The arena entry at `n + j` is merge `j` (R163). -/
theorem nodeAt_keyMerges {s : State} {j : Nat} (h : j < (keyMerges s).length) :
    nodeAt (installTree (huffmanNodes (keyItems s)) (keyItems s).length s) ((keyItems s).length + j) = (keyMerges s)[j] :=
  installTree_getElem? ((huffmanNodes_merged _ j).trans (List.getElem?_eq_getElem h))

/-- The structure that the merges start from is sorted, holds only nodes made before them, and weighs less than `2 ^ 40` in
all; so no weight wraps and none decreases (R166 (f)). -/
theorem keyMerges_weights (s : State) : (keyMerges s).Pairwise fun x y => x.weight.toNat ≤ y.weight.toNat := by
  have inv := queueInv_leaves (nodeOf := nodeAt (installTree (huffmanNodes (keyItems s)) (keyItems s).length s))
    (keyItems_length_le s) fun j x hj => installTree_getElem? (huffmanNodes_leaf hj)
  have below : ∀ e ∈ leafQueue 0 (keyItems s), e.idx < (keyItems s).length := fun e he =>
    ((inv.member e.idx).1 ⟨e, he, rfl⟩).1
  exact (mergeNodes_weights (freqs_total_lt s) _ _ _ inv.sorted below inv.whole).1

/-- Settles O24: the Internal nodes are the merges in order, whose weights never decrease. -/
theorem huffmanWeightsAreNonDecreasing : Obligations.HuffmanWeightsAreNonDecreasing := by
  intro s t hkeys ht i j hi hij hj
  have hne := keyItems_ne_nil hkeys
  rw [exec_buildHuf_of_keys hne] at ht
  cases ht
  obtain ⟨i, rfl⟩ := Nat.exists_eq_add_of_le hi
  obtain ⟨j, rfl⟩ := Nat.exists_eq_add_of_le (hi.trans hij)
  have hnodes : (keyItems s).length + j < 2 * (keyItems s).length - 1 :=
    huffmanNodes_length _ hne ▸ hj.trans_le (Nat.mod_le _ _)
  have hlen := keyMerges_length s
  rw [nodeAt_finishOk, nodeAt_keyMerges (by omega), nodeAt_keyMerges (by omega)]
  rcases (Nat.le_of_add_le_add_left hij).eq_or_lt with rfl | hlt
  · exact Nat.le_refl _
  · exact List.pairwise_iff_getElem.1 (keyMerges_weights s) i j _ _ hlt

end Sys2Proof.Machine
end

section
/-! PROOFS. `TreeCheck` and `CHECKTREE` (O27 to O30): the verdict against the trees the arena holds and the first offending
node, and what an accepted tree is bounded by. -/

namespace Sys2Proof.Machine

/-! ## The verdict -/

theorem treeCheck_ok_iff {s : State} : treeCheck s = .ok ↔ ∃ t, s.HoldsTree t :=
  ⟨holds_of_treeCheck, fun ⟨_, ht⟩ => treeCheck_of_holds ht⟩

theorem treeCheck_bad_of_not_holds {s : State} (h : ¬ ∃ t, s.HoldsTree t) : ∃ info, treeCheck s = .bad info := by
  cases hv : treeCheck s with
  | ok => exact absurd (treeCheck_ok_iff.1 hv) h
  | bad info => exact ⟨info, rfl⟩

theorem treeCheck_of_absent {s : State} (h : s.rootValid = false) : treeCheck s = .bad 0xFFFFFFFF := by
  simp [treeCheck, h]

theorem treeCheck_of_nil {s : State} (hv : s.rootValid = true) (hr : s.rootIdx = Config.nil) : treeCheck s = .bad 511 := by
  simp [treeCheck, hv, hr, Config.nodeMax, Config.nil]

theorem rootIdx_lt {s : State} (h : s.rootIdx ≠ Config.nil) : s.rootIdx.toNat < Config.nodeMax := by
  have hlt := s.rootIdx.isLt
  have hne : s.rootIdx.toNat ≠ 511 := BitVec.toNat_ne.1 h
  simp only [Config.nodeMax]
  omega

theorem firstOffender_lt {s : State} {i : Nat} (hr : s.rootIdx ≠ Config.nil) (h : s.FirstOffender i) : i < Config.nodeMax := by
  obtain ⟨p, hp, -, -⟩ := h
  exact follow_lt (rootIdx_lt hr) hp

/-- With a valid `ROOT.IDX` below 511 the `info` is the first offending node, and there is none on acceptance (R181). -/
theorem treeCheck_bad_iff {s : State} (hv : s.rootValid = true) (hr : s.rootIdx ≠ Config.nil) (info : Word) :
    treeCheck s = .bad info ↔ s.FirstOffender info.toNat := by
  rcases treeCheck_first hv hr with ⟨hok, hnone⟩ | ⟨i, hbad, hfirst⟩
  · rw [hok]
    exact iff_of_false nofun fun ⟨p, _, hp, _⟩ => hnone p hp
  · have hi : (BitVec.ofNat 32 i).toNat = i :=
      Nat.mod_eq_of_lt ((firstOffender_lt hr hfirst).trans (by decide))
    rw [hbad, TreeVerdict.bad.injEq]
    constructor
    · rintro rfl
      rwa [hi]
    · intro h
      exact BitVec.eq_of_toNat_eq (hi.trans (hfirst.unique h))

/-- Settles O27: the loop accepts a stack exactly when it holds trees with new and distinct leaf symbols. -/
theorem treeCheckAcceptsExactlyTheTrees : Obligations.TreeCheckAcceptsExactlyTheTrees :=
  fun _ => treeCheck_ok_iff

/-- Settles O28: the two early exits, and the loop's pre-order against the order of paths. -/
theorem treeCheckInfo : Obligations.TreeCheckInfo := fun _ =>
  ⟨treeCheck_of_absent, treeCheck_of_nil,
    fun hv hr => ⟨treeCheck_bad_iff hv hr, fun _ => firstOffender_lt hr⟩⟩

/-! ## `CHECKTREE` -/

theorem checktreeEffect_of_ok {s : State} (h : treeCheck s = .ok) : checktreeEffect s = .ok s := by
  rw [checktreeEffect, h]

theorem checktreeEffect_of_bad {s : State} {info : Word} (h : treeCheck s = .bad info) :
    checktreeEffect s = .raised (malformedTree info) s := by
  rw [checktreeEffect, h]

/-- Settles O29: the completion of each of the two verdicts. -/
theorem checktreeReportsTheVerdict : Obligations.ChecktreeReportsTheVerdict := by
  refine ⟨decode_encode .checktree, fun s => ⟨fun hholds => ?_, treeCheck_bad_of_not_holds, treeCheck_of_absent,
    treeCheck_of_nil, fun info hv hr => (treeCheck_bad_iff hv hr info).1, fun info hbad => ?_⟩⟩
  · rw [exec_eq, effectOf, checktreeEffect_of_ok (treeCheck_ok_iff.2 hholds)]
    rfl
  · rw [exec_eq, effectOf, checktreeEffect_of_bad hbad]
    rfl

/-! ## The size of an accepted tree -/

/-- A tree has one Internal node less than it has leaves. -/
theorem internals_lt (t : Tree) : t.size - t.symbols.length < t.symbols.length := by
  have := size_eq t
  have := symbols_length_pos t
  omega

/-- Settles O30: there are only 256 symbols, and they bound the Internal nodes, the depth and the codes. -/
theorem acceptedTreesAreShallow : Obligations.AcceptedTreesAreShallow := by
  intro s hok
  obtain ⟨t, -, hdenotes, hnodup⟩ := holds_of_treeCheck hok
  have hleaves := nodup_bytes_length hnodup
  exact ⟨t, hdenotes, hleaves, Nat.le_of_lt_succ ((internals_lt t).trans_le hleaves),
    Nat.le_of_lt_succ ((depth_lt t).trans_le hleaves), codeOf_length_le hnodup⟩

end Sys2Proof.Machine
end

section
/-! PROOFS. `GENCODES` (O31 to O33): what it completes with on each verdict, and the table it leaves. -/

namespace Sys2Proof.Machine

/-- The `CODE` memory that `GENCODES` writes for an accepted tree (R184). -/
def generatedTable (s : State) : Memory Word :=
  Memory.ofList (codeTableWords (entryOf (treeCodes (nodeAt s) s.rootIdx.toNat)))

/-- `GENCODES` on a held tree completes with its table (R184). -/
theorem exec_gencodes_of_holds {s : State} {tr : Tree} (h : s.HoldsTree tr) :
    exec .gencodes s = .next (finishOk { s with code := generatedTable s }) := by
  rw [exec_eq, effectOf, gencodesEffect_holds h]
  rfl

theorem gencodesEffect_of_bad {s : State} {info : Word} (h : treeCheck s = .bad info) :
    gencodesEffect s = .raised (malformedTree info) { s with code := emptyCodeTable } := by
  rw [gencodesEffect, h]

/-- `GENCODES` on anything else latches `MalformedTree` over the empty table (R184, R277). -/
theorem exec_gencodes_of_bad {s : State} {info : Word} (h : treeCheck s = .bad info) :
    exec .gencodes s = .next (latchError (malformedTree info) { s with code := emptyCodeTable }) := by
  rw [exec_eq, effectOf, gencodesEffect_of_bad h]
  rfl

/-- The entries of a completed `GENCODES` are the paths of the tree (R183, R184). -/
theorem generatedTable_entries {s : State} {tr : Tree} (h : s.HoldsTree tr) (v : Byte) :
    codeAt (finishOk { s with code := generatedTable s }) v.toNat = pathCode (tr.codeOf v) ∧
    codeString (finishOk { s with code := generatedTable s }) v.toNat = tr.codeOf v := by
  obtain ⟨-, hdenotes, hnodup⟩ := h
  exact codeString_of_tree hdenotes hnodup rfl v

/-- Settles O31: the walk assigns each leaf the number of its path, and the bits of that number are the path. -/
theorem gencodesWritesThePaths : Obligations.GencodesWritesThePaths := by
  intro s tr hholds
  refine ⟨_, exec_gencodes_of_holds hholds, rfl, fun v => ?_⟩
  obtain ⟨hentry, hstring⟩ := generatedTable_entries hholds v
  obtain ⟨-, -, hnodup⟩ := hholds
  obtain ⟨hlen, -, habove⟩ := pathCode_bits (codeOf_length_le hnodup v)
  rw [hentry]
  exact ⟨hstring, hlen, habove⟩

/-- Settles O32: every word of the table is written with an absent entry. -/
theorem gencodesEmptiesTheTableOnAMalformedTree : Obligations.GencodesEmptiesTheTableOnAMalformedTree := by
  intro s info hbad
  exact ⟨_, exec_gencodes_of_bad hbad, rfl, fun v hv => codeAt_written (f := fun _ => noCode) rfl hv⟩

/-- Without an error `GENCODES` has found a tree. -/
theorem holds_of_gencodes {s t : State} (h : exec .gencodes s = .next t) (herr : t.err = false) : ∃ tr, s.HoldsTree tr := by
  by_contra hnot
  obtain ⟨info, hbad⟩ := treeCheck_bad_of_not_holds hnot
  rw [exec_gencodes_of_bad hbad] at h
  cases h
  cases herr

/-- The codes of a tree are prefix-free (R185). -/
theorem codeOf_prefix {tr : Tree} (hnodup : tr.symbols.Nodup) {u v : Byte} (hu : tr.codeOf u ≠ []) (hv : tr.codeOf v ≠ [])
    (h : tr.codeOf u <+: tr.codeOf v) : u = v :=
  codes_prefix hnodup (codeOf_mem (codeOf_ne_nil.1 hu)) (codeOf_mem (codeOf_ne_nil.1 hv)) h

/-- Settles O33: the strings of the table are the codes of the tree, and one that begins another ends at the same leaf. -/
theorem generatedCodesArePrefixFree : Obligations.GeneratedCodesArePrefixFree := by
  intro s t _ ht herr u v hne hu hv hprefix
  obtain ⟨tr, hholds⟩ := holds_of_gencodes ht herr
  rw [exec_gencodes_of_holds hholds] at ht
  cases ht
  simp only [(generatedTable_entries hholds _).2] at hu hv hprefix
  exact hne (codeOf_prefix hholds.2.2 hu hv hprefix)

end Sys2Proof.Machine
end

section
/-! PROOFS. `PACK` (O34, O35): the effect on each outcome of the loop, the stream of a sequence that fits, and the first
symbol that fails. -/

namespace Sys2Proof.Machine

/-! ## The effect on each outcome of the loop -/

theorem exec_pack_of_too_long {s : State} (h : s.maxLen < s.symLen.toNat) :
    exec .pack s = .next (latchError badSymLen (packFailed s)) := by
  rw [exec_eq, effectOf, packEffect, if_pos h]
  rfl

theorem exec_pack_of_ok {s : State} {stream : List Bool} (h : s.symLen.toNat ≤ s.maxLen)
    (hloop : packStream (fun v => codeString s v.toNat) s.maxBytes (symbols s s.symLen.toNat) 0 0 = .ok stream) :
    exec .pack s = .next (finishOk (storePayload stream s)) := by
  rw [exec_eq, effectOf, packEffect, if_neg h.not_gt, hloop]
  rfl

theorem exec_pack_of_error {s : State} {e : CmdError} (h : s.symLen.toNat ≤ s.maxLen)
    (hloop : packStream (fun v => codeString s v.toNat) s.maxBytes (symbols s s.symLen.toNat) 0 0 = .error e) :
    exec .pack s = .next (latchError e (packFailed s)) := by
  rw [exec_eq, effectOf, packEffect, if_neg h.not_gt, hloop]
  rfl

/-- A symbol has no code string exactly when its entry has no length (R32). -/
theorem codeString_eq_nil {s : State} {v : Nat} : codeString s v = [] ↔ codeLen s v = 0 := by
  simp [codeString]

/-- Every symbol of a beginning has a code string when every entry it indexes has a length. -/
theorem symbols_have_codes {s : State} {n : Nat} (h : ∀ i, i < n → codeLen s (symAt s i).toNat ≠ 0) :
    ∀ v ∈ symbols s n, codeString s v.toNat ≠ [] := by
  intro v hv
  obtain ⟨i, hi, rfl⟩ := (mem_symbols s n v).1 hv
  exact mt codeString_eq_nil.1 (h i hi)

/-! ## The payload -/

/-- The three lengths do not wrap: a stream that fits `MAXBYTES` bytes is shorter than `2 ^ 32` bits (R6, R201). -/
theorem storePayload_lengths {s : State} {stream : List Bool} (hi : s.InstanceOk) (h : (stream.length + 7) / 8 ≤ s.maxBytes) :
    (storePayload stream s).bitLen.toNat = stream.length ∧
    (storePayload stream s).pad.toNat = padding stream.length ∧
    (storePayload stream s).byteLen.toNat = (stream.length + 7) / 8 := by
  obtain ⟨-, -, -, hbytes⟩ := hi
  obtain ⟨hpad, -, hlen⟩ := padding_facts stream.length
  simp only [Config.capacityBound] at hbytes
  simp only [storePayload_bitLen, storePayload_pad, storePayload_byteLen, BitVec.toNat_ofNat, hlen]
  refine ⟨?_, ?_, ?_⟩ <;> exact Nat.mod_eq_of_lt (by omega)

/-- Settles O34: the loop gives the whole stream, whose bits the written bytes are. -/
theorem packWritesTheStream : Obligations.PackWritesTheStream := by
  intro s hinst hlen stream hcodes hfit
  have hloop := packStream_fits (maxBytes := s.maxBytes) (i := 0) (len := 0) (symbols_have_codes hcodes) (by rwa [Nat.zero_add])
  obtain ⟨hbitLen, hpad, hbyteLen⟩ := storePayload_lengths hinst hfit
  obtain ⟨hbits, hpadding, hkept⟩ := storePayload_bits stream s
  refine ⟨_, exec_pack_of_ok hlen hloop, rfl, hbitLen, hpad, hpad.trans_le (padding_facts _).1, hbyteLen,
    fun j hj => ?_, fun j hge hlt => hpadding j hge (hbyteLen ▸ hlt), fun k hk => hkept k (hbyteLen ▸ hk)⟩
  rw [List.getElem?_eq_getElem hj, ← hbits j hj]
  rfl

/-! ## The first symbol that fails -/

theorem symbols_succ (s : State) (n : Nat) : symbols s (n + 1) = symbols s n ++ [symAt s n] := by
  simp [symbols, List.range_succ]

/-- A list of the values at `0 .. n - 1` around one of its indices. -/
theorem map_range_split {α : Type} (f : Nat → α) {i n : Nat} (h : i < n) :
    ∃ rest, (List.range n).map f = (List.range i).map f ++ f i :: rest := by
  obtain ⟨k, rfl⟩ := Nat.exists_eq_add_of_lt h
  exact ⟨_, by rw [Nat.add_assoc, List.range_add, List.map_append, List.range_succ_eq_map]; rfl⟩

/-- The loop raises what it raises past a beginning that has codes and fits. -/
theorem packStream_append_error {codeOf : Byte → List Bool} {maxBytes : Nat} {syms rest : List Byte} {e : CmdError}
    (hcodes : ∀ v ∈ syms, codeOf v ≠ []) (hfit : ((syms.flatMap codeOf).length + 7) / 8 ≤ maxBytes)
    (h : packStream codeOf maxBytes rest syms.length (syms.flatMap codeOf).length = .error e) :
    packStream codeOf maxBytes (syms ++ rest) 0 0 = .error e := by
  rw [packStream_append syms rest hcodes (by rwa [Nat.zero_add]), Nat.zero_add, Nat.zero_add, h]

/-- Settles O35: the loop reaches the first symbol that fails, and raises at its index. -/
theorem packReportsTheFirstBadSymbol : Obligations.PackReportsTheFirstBadSymbol := by
  intro s failed bits
  refine ⟨fun hlong => ⟨_, exec_pack_of_too_long hlong, rfl⟩, fun i hlen hi hcodes hfit => ?_⟩
  obtain ⟨rest, hsplit⟩ := map_range_split (symAt s) hi
  have raises {e : CmdError} (h : packStream (fun v => codeString s v.toNat) s.maxBytes (symAt s i :: rest) i (bits i) = .error e) :
      exec .pack s = .next (latchError e (packFailed s)) := by
    refine exec_pack_of_error hlen ?_
    rw [symbols, hsplit, ← symbols]
    exact packStream_append_error (symbols_have_codes hcodes) hfit (by rwa [symbols_length])
  constructor
  · intro hno
    exact ⟨_, raises (packStream_unknown (codeString_eq_nil.2 hno)), rfl⟩
  · intro hcode hfull
    refine ⟨_, raises (packStream_capacity (mt codeString_eq_nil.1 hcode) ?_), rfl⟩
    simpa [bits, symbols_succ] using hfull

end Sys2Proof.Machine
end

section
/-! PROOFS. `UNPACK` and `DECOMPRESS` (O36 to O40): the effect on each of the early exits and on each outcome of the loop,
whole codes, cut codes, a bare Leaf, and what of the payload is read. -/

namespace Sys2Proof.Machine

/-! ## The effect on each early exit and on each outcome of the loop -/

/-- The loop of `UNPACK` on the payload of a state (R210). -/
def decodePayload (s : State) : Except CmdError (List Byte) :=
  unpackLoop (nodeAt s) s.rootIdx.toNat s.maxLen (payloadBits s (payloadLength s)) 0 s.rootIdx.toNat 0

theorem unpackEffect_of_empty {s : State} (h : s.byteLen = 0) : unpackEffect s = .ok { s with symLen := 0 } := by
  rw [unpackEffect, if_pos h]

section
variable {s : State} (hne : s.byteLen ≠ 0)
include hne

theorem unpackEffect_of_too_long (h : s.maxBytes < s.byteLen.toNat) :
    unpackEffect s = .raised { kind := .badOperand, info := 0x024 } (unpackFailed s) := by
  rw [unpackEffect, if_neg hne, if_pos h]

variable (hlen : s.byteLen.toNat ≤ s.maxBytes)
include hlen

theorem unpackEffect_of_bad_pad (h : 7 < s.pad.toNat) :
    unpackEffect s = .raised { kind := .badOperand, info := 0x028 } (unpackFailed s) := by
  rw [unpackEffect, if_neg hne, if_neg hlen.not_gt, if_pos h]

variable (hpad : s.pad.toNat ≤ 7)
include hpad

theorem unpackEffect_of_bad_tree {info : Word} (h : treeCheck s = .bad info) :
    unpackEffect s = .raised (malformedTree info) (unpackFailed s) := by
  rw [unpackEffect, if_neg hne, if_neg hlen.not_gt, if_neg hpad.not_gt, h]

theorem unpackEffect_of_error (htree : treeCheck s = .ok) {e : CmdError} (h : decodePayload s = .error e) :
    unpackEffect s = .raised e (unpackFailed s) := by
  rw [decodePayload] at h
  rw [unpackEffect, if_neg hne, if_neg hlen.not_gt, if_neg hpad.not_gt, htree, h]

theorem unpackEffect_of_ok (htree : treeCheck s = .ok) {syms : List Byte} (h : decodePayload s = .ok syms) :
    unpackEffect s = .ok (storeSymbols syms s) := by
  rw [decodePayload] at h
  rw [unpackEffect, if_neg hne, if_neg hlen.not_gt, if_neg hpad.not_gt, htree, h]

end

theorem decompressEffect_of_guard {s : State} (h : s.rootValid = false ∨ s.byteLen = 0) :
    decompressEffect s = .ok { s with symLen := 0 } := by
  rw [decompressEffect, if_pos h]

theorem decompressEffect_of_root {s : State} (hroot : s.rootValid = true) (hne : s.byteLen ≠ 0) :
    decompressEffect s = unpackEffect s := by
  rw [decompressEffect, if_neg (not_or.2 ⟨by simp [hroot], hne⟩)]

/-- Settles O40: the four early exits in the order of the pseudocode, and `DECOMPRESS`'s own test of `BYTE_LEN`. -/
theorem unpackChecksItsOperandsInOrder : Obligations.UnpackChecksItsOperandsInOrder := by
  intro s failed
  refine ⟨?_, fun hne h => ?_, fun hne hlen h => ?_, fun hne hlen hpad info h => ?_⟩
  · rintro h i (rfl | rfl)
    · rw [exec_eq, effectOf, unpackEffect_of_empty h]
      rfl
    · rw [exec_eq, effectOf, decompressEffect_of_guard (.inr h)]
      rfl
  · exact ⟨_, exec_eq _ _, by rw [effectOf, unpackEffect_of_too_long hne h]; rfl⟩
  · exact ⟨_, exec_eq _ _, by rw [effectOf, unpackEffect_of_bad_pad hne hlen h]; rfl⟩
  · exact ⟨_, exec_eq _ _, by rw [effectOf, unpackEffect_of_bad_tree hne hlen hpad h]; rfl⟩

/-! ## Commands that reach the loop -/

/-- No early exit is taken: a non-empty payload with legal operands, and a tree at `ROOT` (R210). -/
structure Unpackable (s : State) (tr : Tree) : Prop where
  holds : s.HoldsTree tr
  nonempty : s.byteLen ≠ 0
  fits : s.byteLen.toNat ≤ s.maxBytes
  pad : s.pad.toNat ≤ 7

namespace Unpackable
variable {s : State} {tr : Tree} (h : Unpackable s tr) {i : Instr} (hi : i = .unpack ∨ i = .decompress)
include h

theorem denotes : DenotesTree (nodeAt s) s.rootIdx.toNat tr := h.holds.2.1

include hi

/-- With a tree and a payload `DECOMPRESS` is `UNPACK` (R235). -/
theorem effectOf_eq : effectOf i s = unpackEffect s := by
  rcases hi with rfl | rfl
  · rfl
  · exact decompressEffect_of_root h.holds.1 h.nonempty

theorem exec_of_ok {syms : List Byte} (hloop : decodePayload s = .ok syms) :
    exec i s = .next (finishOk (storeSymbols syms s)) := by
  rw [exec_eq, h.effectOf_eq hi, unpackEffect_of_ok h.nonempty h.fits h.pad (treeCheck_of_holds h.holds) hloop, finish]

theorem exec_of_error {e : CmdError} (hloop : decodePayload s = .error e) :
    exec i s = .next (latchError e (unpackFailed s)) := by
  rw [exec_eq, h.effectOf_eq hi, unpackEffect_of_error h.nonempty h.fits h.pad (treeCheck_of_holds h.holds) hloop, finish]

end Unpackable

/-- The stored `SYM_LEN` does not wrap, for it is at most `MAXLEN`. -/
theorem storeSymbols_symLen_toNat {s : State} {syms : List Byte} (h : syms.length ≤ s.maxLen) :
    (storeSymbols syms s).symLen.toNat = syms.length :=
  Nat.mod_eq_of_lt (h.trans_lt s.param1.isLt)

/-! ## Whole and cut codes -/

/-- Whole codes of a sequence that fits decode to it (R207, R210). -/
theorem Unpackable.decodePayload_codes {s : State} {tr : Tree} (h : Unpackable s tr) {syms : List Byte}
    (hsyms : ∀ v ∈ syms, v ∈ tr.symbols) (hfit : syms.length ≤ s.maxLen)
    (hbits : payloadBits s (payloadLength s) = syms.flatMap tr.codeOf) : decodePayload s = .ok syms := by
  rw [decodePayload, hbits]
  exact unpackLoop_decodes h.denotes hsyms hfit

/-- Settles O36: the loop gives the sequence whose codes the payload is. -/
theorem unpackDecodesConcatenatedCodes : Obligations.UnpackDecodesConcatenatedCodes := by
  intro i s tr syms hi hholds hne hlen hpad hsyms hfit hbits
  have h : Unpackable s tr := ⟨hholds, hne, hlen, hpad⟩
  obtain ⟨-, hkept, hread⟩ := storeSymbols_symAt syms s
  exact ⟨_, h.exec_of_ok hi (h.decodePayload_codes hsyms hfit hbits), rfl, storeSymbols_symLen_toNat hfit, hread, hkept⟩

/-- The loop raises what it raises past the codes of a sequence that fits. -/
theorem unpackLoop_codes_error {nodeOf : Nat → Node} {root maxLen : Nat} {t : Tree} (hd : DenotesTree nodeOf root t)
    {syms : List Byte} (hsyms : ∀ v ∈ syms, v ∈ t.symbols) (hfit : syms.length ≤ maxLen) {rest : List Bool} {e : CmdError}
    (h : unpackLoop nodeOf root maxLen rest (syms.flatMap t.codeOf).length root syms.length = .error e) :
    unpackLoop nodeOf root maxLen (syms.flatMap t.codeOf ++ rest) 0 root 0 = .error e := by
  rw [unpackLoop_codes hd syms hsyms rest 0 0 (by rwa [Nat.zero_add]), Nat.zero_add, Nat.zero_add, h]

/-- `Capacity(j)` (R272). -/
def capacityAt (j : Nat) : CmdError := { kind := .capacity, info := BitVec.ofNat 32 j }

/-- A symbol that does not fit raises, whatever follows (R210). -/
theorem emitSymbol_full {maxLen j out : Nat} (h : maxLen ≤ out) (v : Byte) (more : Except CmdError (List Byte)) :
    emitSymbol maxLen j out v more = .error (capacityAt j) :=
  if_pos h

/-- Past the codes of `MAXLEN` symbols one more code raises at its last bit (R210). -/
theorem unpackLoop_full {nodeOf : Nat → Node} {root : Nat} {t : Tree} (hd : DenotesTree nodeOf root t)
    {syms : List Byte} (hsyms : ∀ u ∈ syms, u ∈ t.symbols) {v : Byte} (hv : v ∈ t.symbols) (rest : List Bool) :
    unpackLoop nodeOf root syms.length (syms.flatMap t.codeOf ++ (t.codeOf v ++ rest)) 0 root 0 =
      .error (capacityAt ((syms.flatMap t.codeOf).length + (t.codeOf v).length - 1)) :=
  unpackLoop_codes_error hd hsyms le_rfl
    (((unpackLoop_code hd (codeOf_mem hv) _ _).1 rest).trans (emitSymbol_full le_rfl _ _))

theorem payloadBits_length (s : State) (n : Nat) : (payloadBits s n).length = n := by simp [payloadBits]

/-- Settles O37: past the whole codes that fit, the loop ends inside the cut code, or emits a symbol without room. -/
theorem unpackReportsACutCode : Obligations.UnpackReportsACutCode := by
  intro i s tr syms v hi hholds hne hlen hpad hsyms hv nbits codes failed
  have h : Unpackable s tr := ⟨hholds, hne, hlen, hpad⟩
  constructor
  · intro cut hfit hcut hprefix hproper hbits
    have hend : codes.length + cut.length = nbits := by rw [← List.length_append, ← hbits, payloadBits_length]
    refine ⟨_, h.exec_of_error hi (e := corruptPayload nbits) ?_, rfl⟩
    rw [decodePayload, payloadLength, hbits, ← hend]
    exact unpackLoop_codes_error h.denotes hsyms hfit
      ((unpackLoop_code h.denotes (codeOf_mem hv) _ _).2 cut hprefix hproper hcut)
  · intro rest hfull hbits
    refine ⟨_, h.exec_of_error hi (e := capacityAt (codes.length + (tr.codeOf v).length - 1)) ?_, rfl⟩
    rw [decodePayload, payloadLength, hbits, List.append_assoc, ← hfull]
    exact unpackLoop_full h.denotes hsyms hv rest

/-! ## A bare Leaf -/

/-- The synthetic code of a bare Leaf (R183). -/
theorem codeOf_leaf (v : Byte) (w : Weight) : (Tree.leaf v w).codeOf v = [false] := by
  simp [Tree.codeOf, Tree.codes]

/-- Under a bare Leaf a run of 0 bits is the codes of as many symbols. -/
theorem leaf_codes (v : Byte) (w : Weight) (n : Nat) :
    (List.replicate n v).flatMap (Tree.leaf v w).codeOf = List.replicate n false := by
  rw [List.flatMap_replicate, codeOf_leaf, List.flatten_replicate_singleton]

theorem mem_leaf_symbols {v : Byte} {w : Weight} {n : Nat} : ∀ u ∈ List.replicate n v, u ∈ (Tree.leaf v w).symbols :=
  fun _ hu => List.mem_singleton.2 (List.eq_of_mem_replicate hu)

/-- Under a bare Leaf a 1 bit raises at its index (R212). -/
theorem unpackLoop_leaf_one {nodeOf : Nat → Node} {root maxLen : Nat} {v : Byte} {w : Weight}
    (hd : DenotesTree nodeOf root (.leaf v w)) (bits : List Bool) (j cur out : Nat) :
    unpackLoop nodeOf root maxLen (true :: bits) j cur out = .error (corruptPayload j) := by
  cases hd with
  | leaf range tag => rw [unpackLoop, if_pos tag, if_pos rfl]

theorem payloadBits_of_zeros {s : State} {n : Nat} (h : ∀ k, k < n → payloadBit s k = false) :
    payloadBits s n = List.replicate n false := by
  simpa [payloadBits, List.eq_replicate_iff] using h

/-- Settles O38: 0 bits are the Leaf's codes, and the first bit that is another or has no room raises. -/
theorem unpackUnderABareLeaf : Obligations.UnpackUnderABareLeaf := by
  intro s v w hholds hne hlen hpad nbits failed
  have h : Unpackable s (.leaf v w) := ⟨hholds, hne, hlen, hpad⟩
  have zerosThen {j : Nat} (hj : j < nbits) (hzero : ∀ k, k < j → payloadBit s k = false) :
      ∃ rest, payloadBits s nbits = (List.replicate j v).flatMap (Tree.leaf v w).codeOf ++ payloadBit s j :: rest := by
    rw [leaf_codes, ← payloadBits_of_zeros hzero]
    exact map_range_split (payloadBit s) hj
  refine ⟨fun hfit hzero => ?_, fun j hj hfit hzero hone => ?_, fun hfull hzero => ?_⟩
  · have hlength := List.length_replicate (n := nbits) (a := v)
    have hfits := hlength.trans_le hfit
    obtain ⟨hread, hkept, -⟩ := storeSymbols_symAt (List.replicate nbits v) s
    exact ⟨_, h.exec_of_ok (.inl rfl) (h.decodePayload_codes mem_leaf_symbols hfits
        ((payloadBits_of_zeros hzero).trans (leaf_codes v w nbits).symm)), rfl,
      (storeSymbols_symLen_toNat hfits).trans hlength,
      fun k hk => (hread k (hk.trans_eq hlength.symm)).trans (List.getElem_replicate _),
      fun k hk => hkept k (hlength.trans_le hk)⟩
  · obtain ⟨rest, hbits⟩ := zerosThen hj hzero
    refine ⟨_, h.exec_of_error (.inl rfl) (e := corruptPayload j) ?_, rfl⟩
    rw [decodePayload, payloadLength, hbits, hone]
    refine unpackLoop_codes_error h.denotes mem_leaf_symbols (by rwa [List.length_replicate]) ?_
    rw [unpackLoop_leaf_one h.denotes, leaf_codes, List.length_replicate]
  · obtain ⟨rest, hbits⟩ := zerosThen hfull fun k hk => hzero k hk.le
    refine ⟨_, h.exec_of_error (.inl rfl) (e := capacityAt s.maxLen) ?_, rfl⟩
    have hloop := unpackLoop_full h.denotes (mem_leaf_symbols (n := s.maxLen)) (List.mem_singleton_self v) rest
    rw [codeOf_leaf, leaf_codes, List.length_replicate, List.length_replicate] at hloop
    rw [decodePayload, payloadLength, hbits, hzero _ le_rfl, leaf_codes]
    exact hloop

/-! ## What of the payload is read -/

/-- The state with another content of `BYTE`. -/
def withPayload (bytes : Memory Byte) (draw : Nat) (s : State) : State := { s with byte := bytes, byteDraw := draw }

/-- A change of the state that a pseudocode leaves. -/
def Result.map (f : State → State) : Result → Result
  | .ok s => .ok (f s)
  | .raised e s => .raised e (f s)

theorem finish_map_withPayload (bytes : Memory Byte) (draw : Nat) (r : Result) :
    finish (r.map (withPayload bytes draw)) = withPayload bytes draw (finish r) := by
  cases r <;> rfl

section
variable {s : State} {bytes : Memory Byte} {draw : Nat}

theorem treeCheck_withPayload : treeCheck (withPayload bytes draw s) = treeCheck s :=
  treeCheck_congr rfl rfl (nodeAt_congr rfl rfl)

variable (hbits : ∀ j, j < payloadLength s → payloadBit s j = payloadBit (withPayload bytes draw s) j)
include hbits

theorem decodePayload_withPayload : decodePayload (withPayload bytes draw s) = decodePayload s := by
  have hread : payloadBits (withPayload bytes draw s) (payloadLength s) = payloadBits s (payloadLength s) :=
    List.map_congr_left fun j hj => (hbits j (List.mem_range.1 hj)).symm
  exact congrArg (unpackLoop (nodeAt s) s.rootIdx.toNat s.maxLen · 0 s.rootIdx.toNat 0) hread

theorem unpackEffect_withPayload :
    unpackEffect (withPayload bytes draw s) = (unpackEffect s).map (withPayload bytes draw) := by
  have htree := treeCheck_withPayload (s := s) (bytes := bytes) (draw := draw)
  have hloop := decodePayload_withPayload hbits
  rcases unpackEffect_cases s with ⟨h0, he⟩ | ⟨hne, e, he, hwhy⟩ | ⟨hne, hlen, hpad, hok, syms, hsyms, he⟩ <;> rw [he]
  · exact unpackEffect_of_empty h0
  · rcases hwhy with ⟨hlong, rfl⟩ | ⟨hlen, hpad, rfl⟩ | ⟨hlen, hpad, info, hbad, rfl⟩ | ⟨hlen, hpad, hok, herror, -⟩
    · exact unpackEffect_of_too_long hne hlong
    · exact unpackEffect_of_bad_pad hne hlen hpad
    · exact unpackEffect_of_bad_tree (s := withPayload bytes draw s) hne hlen hpad (htree.trans hbad)
    · exact unpackEffect_of_error (s := withPayload bytes draw s) hne hlen hpad (htree.trans hok) (hloop.trans herror)
  · exact unpackEffect_of_ok (s := withPayload bytes draw s) hne hlen hpad (htree.trans hok) (hloop.trans hsyms)

theorem decompressEffect_withPayload :
    decompressEffect (withPayload bytes draw s) = (decompressEffect s).map (withPayload bytes draw) := by
  rcases decompressEffect_cases s with ⟨hguard, he⟩ | ⟨hroot, hne, he⟩ <;> rw [he]
  · exact decompressEffect_of_guard hguard
  · exact (decompressEffect_of_root (s := withPayload bytes draw s) hroot hne).trans (unpackEffect_withPayload hbits)

end

/-- Settles O39: both commands read of `BYTE` only the first `nbits` bits, and write nothing of it. -/
theorem unpackIgnoresThePaddingBits : Obligations.UnpackIgnoresThePaddingBits := by
  intro i s t t' bytes draw hi s' hbits ht ht'
  have heffect : effectOf i s' = (effectOf i s).map (withPayload bytes draw) := by
    rcases hi with rfl | rfl
    · exact unpackEffect_withPayload hbits
    · exact decompressEffect_withPayload hbits
  rw [exec_eq] at ht
  rw [exec_eq, heffect, finish_map_withPayload] at ht'
  cases ht
  cases ht'
  rfl

end Sys2Proof.Machine
end

section
/-! PROOFS. `COMPRESS` (O42 to O44): its two early ends, its steps on a state that a completed step left, and the stream of a
sequence that has room. -/

namespace Sys2Proof.Machine

/-! ## The two early ends -/

theorem symLen_ne_zero {s : State} {n : Nat} (h : n < s.symLen.toNat) : s.symLen ≠ 0 := by
  intro h0
  rw [h0] at h
  exact absurd h n.not_lt_zero

/-- A sequence that is too long ends `COMPRESS` in its `ANALYZE` step (R230). -/
theorem compressEffect_of_too_long (a : Alg) {s : State} (h : s.maxLen < s.symLen.toNat) :
    compressEffect a s = .raised badSymLen (emptyPayload s) := by
  have hanalyze : analyzeEffect (emptyPayload s) = .raised badSymLen (emptyPayload s) := if_pos h
  rw [compressEffect, if_neg (symLen_ne_zero h), hanalyze]
  rfl

/-- Settles O42: the guard writes the empty result, and `ANALYZE` refuses what is too long before it writes anything. -/
theorem compressOfAnEmptyOrTooLongSequence : Obligations.CompressOfAnEmptyOrTooLongSequence := by
  intro alg s
  refine ⟨fun hempty => ⟨_, exec_eq _ _, ?_⟩, fun hlong => ?_⟩
  · rw [effectOf, compressEffect_of_empty alg hempty]
    exact ⟨rfl, fun v hv => codeAt_written (f := fun _ => noCode) rfl hv⟩
  · rw [exec_eq, effectOf, compressEffect_of_too_long alg hlong]
    rfl

/-! ## The steps in sequence -/

/-- The completion of a step is lost in the completion of the step after it (R230, R252). -/
theorem finish_map_finishOk (r : Result) : finish (r.map finishOk) = finish r := by
  cases r <;> rfl

theorem buildEffect_finishOk (a : Alg) (s : State) : buildEffect a (finishOk s) = (buildEffect a s).map finishOk := by
  have hkeys : keyItems (finishOk s) = keyItems s := rfl
  by_cases h : keyItems s = []
  · rw [buildEffect_of_empty a h, buildEffect_of_empty a (hkeys.trans h)]
    rfl
  · rw [buildEffect_of_keys a h, buildEffect_of_keys a (hkeys ▸ h), hkeys]
    rfl

theorem gencodesEffect_finishOk (s : State) : gencodesEffect (finishOk s) = (gencodesEffect s).map finishOk := by
  have htree : treeCheck (finishOk s) = treeCheck s := treeCheck_congr rfl rfl (nodeAt_finishOk s)
  rw [gencodesEffect, gencodesEffect, htree, nodeAt_finishOk]
  cases treeCheck s <;> rfl

section
variable {s : State}

theorem packEffect_of_too_long (h : s.maxLen < s.symLen.toNat) : packEffect s = .raised badSymLen (packFailed s) := if_pos h

variable (hfit : s.symLen.toNat ≤ s.maxLen)
include hfit

theorem packEffect_of_error {e : CmdError}
    (h : packStream (fun v => codeString s v.toNat) s.maxBytes (symbols s s.symLen.toNat) 0 0 = .error e) :
    packEffect s = .raised e (packFailed s) := by
  rw [packEffect, if_neg hfit.not_gt, h]

theorem packEffect_of_ok {stream : List Bool}
    (h : packStream (fun v => codeString s v.toNat) s.maxBytes (symbols s s.symLen.toNat) 0 0 = .ok stream) :
    packEffect s = .ok (storePayload stream s) := by
  rw [packEffect, if_neg hfit.not_gt, h]

end

theorem packEffect_finishOk (s : State) : packEffect (finishOk s) = (packEffect s).map finishOk := by
  rcases packEffect_cases s with ⟨hlong, he⟩ | ⟨hfit, e, -, hloop, he⟩ | ⟨hfit, stream, hloop, he⟩ <;> rw [he]
  · exact packEffect_of_too_long (s := finishOk s) hlong
  · exact packEffect_of_error (s := finishOk s) hfit hloop
  · exact packEffect_of_ok (s := finishOk s) hfit hloop

/-- Settles O43: each step after the first runs on a completed state, and only the last completion remains. -/
theorem compressRunsItsStepsInSequence : Obligations.CompressRunsItsStepsInSequence := by
  intro alg s hpos hfit
  obtain ⟨s1, s2, s3, tr, hanalyze, hbuild, hgencodes, hpack, -, -, -, -, hframe, -⟩ :=
    compress_prepares alg (symLen_ne_zero hpos) hfit
  refine ⟨finishOk s1, finishOk s2, finishOk s3, finish (packEffect s3), ?_, ?_, ?_, ?_, ?_, ?_, ?_⟩
  · rw [exec_eq]
    exact congrArg (Host.Outcome.next ∘ finish) hanalyze
  · rw [exec_eq, effectOf_builderOf, buildEffect_finishOk, hbuild]
    rfl
  · rw [exec_eq, effectOf, gencodesEffect_finishOk, hgencodes]
    rfl
  · rw [exec_eq, effectOf, packEffect_finishOk, finish_map_finishOk]
  · exact (congrArg State.err hframe :)
  · exact (congrArg State.errCode hframe :)
  · rw [exec_eq, effectOf, hpack]

/-! ## What `PACK` finds and what it makes of it -/

/-- The state that `COMPRESS` of a non-empty sequence of `s` hands to `PACK`, with its tree (R230, R233). -/
structure Prepared (s s3 : State) (tr : Tree) : Prop where
  holds : s3.HoldsTree tr
  leaves : ∀ v, v ∈ tr.symbols ↔ v ∈ symbols s s.symLen.toNat
  counts : ∀ v : Byte, (freqAt s3 v.toNat).toNat = (symbols s s.symLen.toNat).count v
  codes : ∀ v : Byte, codeString s3 v.toNat = tr.codeOf v
  frame : s3 =
    { s with freq := s3.freq, node := s3.node, code := s3.code, byteLen := 0, pad := 0, bitLen := 0
             rootValid := true, rootIdx := s3.rootIdx, nnode := s3.nnode, nleaf := s3.nleaf }
  nodes : ∀ i, s3.nnode.toNat ≤ i → nodeAt s3 i = nodeAt s i

theorem compressEffect_prepares (a : Alg) {s : State} (hne : s.symLen ≠ 0) (hfit : s.symLen.toNat ≤ s.maxLen) :
    ∃ s3 tr, compressEffect a s = packEffect s3 ∧ Prepared s s3 tr := by
  obtain ⟨_, _, s3, tr, -, -, -, hpack, prepared⟩ := compress_prepares a hne hfit
  obtain ⟨holds, leaves, counts, codes, frame, nodes⟩ := prepared
  exact ⟨s3, tr, hpack, holds, leaves, counts, codes, frame, nodes⟩

/-- When every symbol has a code, only the room can run out (R201, R233). -/
theorem packStream_error_capacity {codeOf : Byte → List Bool} {maxBytes : Nat} {syms : List Byte} {i len : Nat} {e : CmdError}
    (hcodes : ∀ v ∈ syms, codeOf v ≠ []) (h : packStream codeOf maxBytes syms i len = .error e) : e.kind = .capacity := by
  induction syms generalizing i len with
  | nil => cases h
  | cons v rest ih =>
    obtain ⟨hv, hrest⟩ := List.forall_mem_cons.1 hcodes
    rw [packStream, if_neg hv] at h
    split at h
    · cases h; rfl
    · split at h
      · cases h
      · next he => cases h; exact ih hrest he

/-- The stream `COMPRESS` packs: the codes of the sequence in order (R201, R230). -/
def codeStream (s : State) (tr : Tree) : List Bool := (symbols s s.symLen.toNat).flatMap tr.codeOf

namespace Prepared
variable {s s3 : State} {tr : Tree} (h : Prepared s s3 tr)
include h

theorem codes_ne_nil : ∀ v ∈ symbols s s.symLen.toNat, tr.codeOf v ≠ [] :=
  fun v hv => codeOf_ne_nil.2 ((h.leaves v).2 hv)

theorem symLen_eq : s3.symLen = s.symLen := (congrArg State.symLen h.frame :)
theorem maxLen_eq : s3.maxLen = s.maxLen := (congrArg State.maxLen h.frame :)
theorem maxBytes_eq : s3.maxBytes = s.maxBytes := (congrArg State.maxBytes h.frame :)
theorem symbols_eq : symbols s3 = symbols s := (congrArg symbols h.frame :)
theorem byteAt_eq : byteAt s3 = byteAt s := (congrArg byteAt h.frame :)

/-- The loop of `PACK` runs over the sequence, under the codes of the tree. -/
theorem packLoop_eq : packStream (fun v => codeString s3 v.toNat) s3.maxBytes (symbols s3 s3.symLen.toNat) 0 0 =
    packStream tr.codeOf s.maxBytes (symbols s s.symLen.toNat) 0 0 := by
  rw [funext h.codes, h.maxBytes_eq, h.symbols_eq, h.symLen_eq]

/-- `PACK` stores the stream, or has no room for it (R233). -/
theorem packEffect_cases (hfit : s.symLen.toNat ≤ s.maxLen) :
    ((codeStream s tr).length + 7) / 8 ≤ s.maxBytes ∧ packEffect s3 = .ok (storePayload (codeStream s tr) s3) ∨
    s.maxBytes < ((codeStream s tr).length + 7) / 8 ∧
      ∃ e, e.kind = .capacity ∧ packEffect s3 = .raised e (packFailed s3) := by
  rw [← h.symLen_eq, ← h.maxLen_eq] at hfit
  have hloop := h.packLoop_eq
  rcases le_or_gt (((codeStream s tr).length + 7) / 8) s.maxBytes with hroom | hfull
  · have hfits : packStream tr.codeOf s.maxBytes (symbols s s.symLen.toNat) 0 0 = .ok (codeStream s tr) :=
      packStream_fits h.codes_ne_nil (by rw [Nat.zero_add]; exact hroom)
    exact .inl ⟨hroom, packEffect_of_ok hfit (hloop.trans hfits)⟩
  · refine .inr ⟨hfull, ?_⟩
    cases hends : packStream tr.codeOf s.maxBytes (symbols s s.symLen.toNat) 0 0 with
    | error e =>
      exact ⟨e, packStream_error_capacity h.codes_ne_nil hends, packEffect_of_error hfit (hloop.trans hends)⟩
    | ok stream =>
      obtain ⟨-, rfl, hroom⟩ := packStream_ok hends
      rw [codeStream, ← Nat.zero_add (List.length _)] at hfull
      exact absurd (hroom (Nat.zero_le _)) hfull.not_ge

/-- No code has more than 255 bits (R13, R186). -/
theorem codeStream_length_le : (codeStream s tr).length ≤ 255 * s.symLen.toNat := by
  obtain ⟨-, -, hnodup⟩ := h.holds
  have hlength := flatMap_length_le (codeOf_length_le hnodup) (symbols s s.symLen.toNat)
  rwa [symbols_length] at hlength

/-- A completed `COMPRESS` has written its results and nothing else (R230). -/
theorem packed_frame (stream : List Bool) : ∃ freq node code byte byteLen pad bitLen idx n k,
    finishOk (storePayload stream s3) =
      { s with
        phase := .idle, done := true, freq := freq, node := node, code := code, byte := byte
        byteLen := byteLen, pad := pad, bitLen := bitLen
        rootValid := true, rootIdx := idx, nnode := n, nleaf := k } :=
  ⟨_, _, _, _, _, _, _, _, _, _, congrArg (finishOk ∘ storePayload stream) h.frame⟩

end Prepared

/-- Settles O44: with room for 255 bits per symbol the stream fits, and what `PACK` found it has kept. -/
theorem compressSucceedsWithRoom : Obligations.CompressSucceedsWithRoom := by
  intro alg s hinst hpos hfit hroom
  obtain ⟨s3, tr, hcompress, h⟩ := compressEffect_prepares alg (symLen_ne_zero hpos) hfit
  have hlength := h.codeStream_length_le
  obtain ⟨hfits, hpack⟩ | ⟨hfull, -⟩ := h.packEffect_cases hfit
  · have hinst3 : s3.InstanceOk := by rwa [State.InstanceOk, h.maxLen_eq, h.maxBytes_eq]
    obtain ⟨hbitLen, hpad, hbyteLen⟩ := storePayload_lengths hinst3 (h.maxBytes_eq ▸ hfits)
    obtain ⟨hpad7, hwhole, hbytes⟩ := padding_facts (codeStream s tr).length
    obtain ⟨-, -, hkept⟩ := storePayload_bits (codeStream s tr) s3
    obtain ⟨_, _, _, _, _, _, _, _, _, _, hframe⟩ := h.packed_frame (codeStream s tr)
    refine ⟨finishOk (storePayload (codeStream s tr) s3), tr, ?_, by rw [hframe], h.holds, h.leaves, h.counts, h.codes,
      ?_, ?_, hpad.trans_le hpad7, h.nodes, fun k hk => ?_⟩
    · rw [exec_eq, effectOf, hcompress, hpack, finish]
    · rw [finishOk_bitLen, hbitLen]
      exact storePayload_payloadBits (codeStream s tr) s3
    · rw [finishOk_byteLen, finishOk_bitLen, finishOk_pad, hbitLen, hpad, hbyteLen]
      omega
    · rw [← h.byteAt_eq]
      exact hkept k (hbyteLen ▸ hk)
  · omega

end Sys2Proof.Machine
end

section
/-! PROOFS. `DECOMPRESS` (O45, O46): its guard, what of `UNPACK` it can raise, and what it makes of a completed `COMPRESS`. -/

namespace Sys2Proof.Machine

/-! ## The guard -/

/-- `DECOMPRESS` and `UNPACK` differ only on an absent tree with bytes (R235). -/
theorem decompressEffect_eq_unpackEffect {s : State} (h : s.rootValid = true ∨ s.byteLen = 0) :
    decompressEffect s = unpackEffect s := by
  by_cases hempty : s.byteLen = 0
  · rw [decompressEffect_of_guard (.inr hempty), unpackEffect_of_empty hempty]
  · exact decompressEffect_of_root (h.resolve_right hempty) hempty

/-- A tree that is present is never reported as the absent one (R181, R235). -/
theorem treeCheck_bad_ne_absent {s : State} (hroot : s.rootValid = true) {info : Word} (h : treeCheck s = .bad info) :
    info ≠ 0xFFFFFFFF := by
  rintro rfl
  by_cases hnil : s.rootIdx = Config.nil
  · rw [treeCheck_of_nil hroot hnil] at h
    exact absurd h (by decide)
  · have hlt := firstOffender_lt hnil ((treeCheck_bad_iff hroot hnil _).1 h)
    exact absurd hlt (by decide)

/-- The `MalformedTree` of `UNPACK` carries the verdict's info (R210). -/
theorem unpackEffect_malformed {s t : State} {e : CmdError} (h : unpackEffect s = .raised e t)
    (hkind : e.kind = .malformedTree) : treeCheck s = .bad e.info := by
  rcases unpackEffect_cases s with ⟨-, he⟩ | ⟨-, e', he, hwhy⟩ | ⟨-, -, -, -, syms, -, he⟩ <;> rw [he] at h <;> cases h
  rcases hwhy with ⟨-, rfl⟩ | ⟨-, -, rfl⟩ | ⟨-, -, info, hbad, rfl⟩ | ⟨-, -, -, -, hloop⟩
  · cases hkind
  · cases hkind
  · exact hbad
  · rw [hkind] at hloop
    exact absurd hloop (by decide)

theorem ErrKind.eq_malformedTree {k : ErrKind} (h : k.code = ErrKind.malformedTree.code) : k = .malformedTree := by
  cases k with
  | malformedTree => rfl
  | _ => exact absurd h (by decide)

/-- The `MalformedTree` of `DECOMPRESS` is never the absent tree (R235). -/
theorem decompressEffect_malformed {s t : State} {e : CmdError} (h : decompressEffect s = .raised e t)
    (hkind : e.kind = .malformedTree) : e.info ≠ 0xFFFFFFFF := by
  rcases decompressEffect_cases s with ⟨-, he⟩ | ⟨hroot, -, he⟩ <;> rw [he] at h
  · cases h
  · exact treeCheck_bad_ne_absent hroot (unpackEffect_malformed h hkind)

/-- An error that was not latched before a command was raised by it (R252, R276). -/
theorem raised_of_finish_err {i : Instr} {s : State} (herr : s.err = false) (h : (finish (effectOf i s)).err = true) :
    ∃ e t, effectOf i s = .raised e t := by
  have hkept := (effect_control i s).err
  cases hends : effectOf i s with
  | ok t =>
    rw [hends] at h hkept
    exact absurd (h.symm.trans (hkept.trans herr)) nofun
  | raised e t => exact ⟨e, t, rfl⟩

/-- Settles O45: past the guard the two pseudocodes are one, and there the tree is present. -/
theorem decompressGuardsThenUnpacks : Obligations.DecompressGuardsThenUnpacks := by
  refine ⟨decode_encode .decompress, fun s => ?_⟩
  refine ⟨fun t ht => ?_, fun hguard => ?_, fun hsame => ?_, fun habsent hne hlen hpad => ?_⟩
  · rw [exec_eq] at ht
    cases ht
    refine ⟨?_, fun herr hraised hcode => ?_⟩
    · rw [finish_empty]
      exact effect_empty (by simp)
    · obtain ⟨e, u, he⟩ := raised_of_finish_err herr hraised
      rw [he] at hcode ⊢
      exact decompressEffect_malformed he (ErrKind.eq_malformedTree hcode)
  · rw [exec_eq, effectOf, decompressEffect_of_guard hguard]
    rfl
  · rw [exec_eq, exec_eq, effectOf, effectOf, decompressEffect_eq_unpackEffect hsame]
  · refine ⟨_, exec_eq _ _, ?_⟩
    rw [effectOf, unpackEffect_of_bad_tree hne hlen hpad (treeCheck_of_absent habsent)]
    rfl

/-! ## The round trip -/

/-- What `UNPACK` reads of the lengths does not wrap in an instance of any size (R201, R210). -/
theorem storePayload_lengths_of_room {stream : List Bool} {s : State} (h : (stream.length + 7) / 8 ≤ s.maxBytes) :
    (storePayload stream s).byteLen.toNat = (stream.length + 7) / 8 ∧
    (storePayload stream s).pad.toNat ≤ 7 ∧ payloadLength (storePayload stream s) = stream.length := by
  obtain ⟨hpad7, hwhole, hbytes⟩ := padding_facts stream.length
  have hbyteLen : (storePayload stream s).byteLen.toNat = (stream.length + 7) / 8 := by
    rw [storePayload_byteLen, hbytes]
    exact Nat.mod_eq_of_lt (h.trans_lt s.param2.isLt)
  have hpad : (storePayload stream s).pad.toNat = padding stream.length := by
    rw [storePayload_pad]
    exact Nat.mod_eq_of_lt (by omega)
  refine ⟨hbyteLen, hpad.trans_le hpad7, ?_⟩
  rw [payloadLength, hbyteLen, hpad]
  omega

namespace Prepared
variable {s s3 : State} {tr : Tree} (h : Prepared s s3 tr)
include h

theorem codeStream_ne_nil (hne : s.symLen ≠ 0) : codeStream s tr ≠ [] := by
  intro hnil
  have hpos : 0 < s.symLen.toNat := Nat.pos_of_ne_zero (BitVec.toNat_ne.1 hne)
  have hfirst : symAt s 0 ∈ symbols s s.symLen.toNat := (mem_symbols _ _ _).2 ⟨0, hpos, rfl⟩
  exact h.codes_ne_nil _ hfirst (List.flatMap_eq_nil_iff.1 hnil _ hfirst)

/-- What `COMPRESS` leaves is a payload that `UNPACK` decodes, under the tree it left (R214). -/
theorem unpackable (hne : s.symLen ≠ 0) (hroom : ((codeStream s tr).length + 7) / 8 ≤ s.maxBytes) :
    Unpackable (storePayload (codeStream s tr) s3) tr := by
  rw [← h.maxBytes_eq] at hroom
  obtain ⟨hbyteLen, hpad7, -⟩ := storePayload_lengths_of_room hroom
  have hpos := List.length_pos_of_ne_nil (h.codeStream_ne_nil hne)
  refine ⟨h.holds, fun h0 => ?_, hbyteLen.trans_le hroom, hpad7⟩
  have hzero : 0 = ((codeStream s tr).length + 7) / 8 := (congrArg BitVec.toNat h0).symm.trans hbyteLen
  omega

/-- The decoder restores the sequence from it (R207, R214). -/
theorem decodes (hne : s.symLen ≠ 0) (hfit : s.symLen.toNat ≤ s.maxLen)
    (hroom : ((codeStream s tr).length + 7) / 8 ≤ s.maxBytes) :
    decodePayload (storePayload (codeStream s tr) s3) = .ok (symbols s s.symLen.toNat) := by
  obtain ⟨-, -, hnbits⟩ := storePayload_lengths_of_room (h.maxBytes_eq ▸ hroom)
  refine (h.unpackable hne hroom).decodePayload_codes (fun v => (h.leaves v).2) ?_ ?_
  · rw [symbols_length]
    exact hfit.trans_eq h.maxLen_eq.symm
  · rw [hnbits]
    exact storePayload_payloadBits (codeStream s tr) s3

end Prepared

/-- The core as it runs the `DECOMPRESS` that the host has issued (R251). -/
def runningDecompress (t : State) : State := { acceptCommand (encode .decompress) t with rsp := some (.write false) }

theorem hostWrite_decompress {t : State} (hidle : t.phase = .idle) (herr : t.err = false) :
    hostWrite 0x10 0x00000008 t = runningDecompress t :=
  hostWrite_cmd_accepted hidle herr _

/-- The empty result of `COMPRESS` decompresses to the empty sequence (R231, R235). -/
theorem exec_decompress_emptyCompression (s : State) :
    let u := runningDecompress (finishOk (emptyCompression (emptyPayload s)))
    exec .decompress u = .next (finishOk { u with symLen := 0 }) := by
  intro u
  rw [exec_eq, effectOf, decompressEffect_of_guard (.inl rfl), finish]

/-- The payload of a completed `COMPRESS` decompresses to the sequence (R214). -/
theorem Prepared.exec_decompress {s s3 : State} {tr : Tree} (h : Prepared s s3 tr) (hne : s.symLen ≠ 0)
    (hfit : s.symLen.toNat ≤ s.maxLen) (hroom : ((codeStream s tr).length + 7) / 8 ≤ s.maxBytes) :
    let u := runningDecompress (finishOk (storePayload (codeStream s tr) s3))
    exec .decompress u = .next (finishOk (storeSymbols (symbols s s.symLen.toNat) u)) := by
  intro u
  obtain ⟨holds, nonempty, fits, pad⟩ := h.unpackable hne hroom
  have hu : Unpackable u tr := ⟨holds, nonempty, fits, pad⟩
  exact hu.exec_of_ok (.inr rfl) (h.decodes hne hfit hroom)

/-- A stored sequence is the sequence it was read from. -/
theorem storeSymbols_symbols (s u : State) :
    (storeSymbols (symbols s s.symLen.toNat) u).symLen = s.symLen ∧
    symbols (storeSymbols (symbols s s.symLen.toNat) u) s.symLen.toNat = symbols s s.symLen.toNat := by
  obtain ⟨-, -, hread⟩ := storeSymbols_symAt (symbols s s.symLen.toNat) u
  rw [symbols_length] at hread
  refine ⟨?_, hread⟩
  rw [storeSymbols_symLen, symbols_length, BitVec.ofNat_toNat, BitVec.setWidth_eq]

/-- Settles O46: either the sequence is empty and both guards fire, or `PACK` stores its codes and `UNPACK` decodes them, or
`PACK` has no room. -/
theorem decompressRestoresWhatCompressMade : Obligations.DecompressRestoresWhatCompressMade := by
  intro alg s t herr hfit ht
  rw [exec_eq, effectOf] at ht
  cases ht
  by_cases hempty : s.symLen = 0
  · rw [compressEffect_of_empty alg hempty, finish]
    refine ⟨fun hraised => absurd (herr.symm.trans hraised) nofun, fun hok => ?_⟩
    rw [hostWrite_decompress (finishOk_phase _) hok]
    refine ⟨rfl, _, exec_decompress_emptyCompression s, herr, hempty.symm, ?_⟩
    rw [hempty]
    rfl
  obtain ⟨s3, tr, hcompress, h⟩ := compressEffect_prepares alg hempty hfit
  rw [hcompress]
  rcases h.packEffect_cases hfit with ⟨hroom, hpack⟩ | ⟨-, e, hkind, hpack⟩ <;> rw [hpack, finish]
  · have herr3 : s3.err = false := (congrArg State.err h.frame :).trans herr
    refine ⟨fun hraised => absurd (herr3.symm.trans hraised) nofun, fun hok => ?_⟩
    rw [hostWrite_decompress (finishOk_phase _) hok]
    exact ⟨rfl, _, h.exec_decompress hempty hfit hroom, herr3, storeSymbols_symbols s _⟩
  · exact ⟨fun _ => congrArg ErrKind.code hkind, nofun⟩

end Sys2Proof.Machine
end

section
/-! PROOFS. The sequencer (O5 to O8): what a step of a running core is, the issue of a command, and its completion in every
state; and `NOP` and `CLEAR` (O13, O14). -/

namespace Sys2Proof.Machine

/-! ## The step -/

theorem commandResult_of_decode {s : State} {i : Instr} (h : decode s.cmd = .ok i) : commandResult s = effectOf i s := by
  simp only [commandResult, fetchWord, h]

/-- The core's own move, while a command runs, is the meaning of that command (R24, R252). -/
theorem coreMove_executes {s : State} {i : Instr} (hr : s.rstN = true) (hb : s.phase = .busy) (hd : decode s.cmd = .ok i) :
    .next (coreMove s).result = exec i s := by
  rw [coreMove, if_pos ⟨hr, hb⟩, Move.result, commandResult_of_decode hd, exec_eq]

/-- Settles O5: the next move is the core's own or the first of the coming actions, and a host request is performed while
`rst_n` is high. -/
theorem stepRunsTheCommandInCmd : Obligations.StepRunsTheCommandInCmd := by
  intro s hr
  refine ⟨fun i hb hd => ⟨fun hin => ?_, fun rest hin => ?_⟩, fun a rest hin => ?_, fun a v rest hin => ?_⟩
  · rw [step_eq, nextMove, hin]
    exact coreMove_executes hr hb hd
  · rw [step_of_inputs hin]
    exact coreMove_executes (s := { s with inputs := rest }) hr hb hd
  all_goals
    rw [step_of_inputs hin]
    simp only [perform, hr, if_true, Move.result]

/-- Settles O8: a step is its next move, and every move ends in a state. -/
theorem everyStepGoesOn : Obligations.EveryStepGoesOn := fun s => ⟨_, step_eq s⟩

/-! ## Issue -/

theorem issueCommand_dropped {s : State} (h : s.phase = .busy ∨ s.err = true) (w : Word) :
    issueCommand w s = dropWrite s := if_pos h

/-- A host write to `CMD` of a core that accepts no command (R251): on a running core the busy window drops it (R77), on an
idle one the latched error. -/
theorem hostWrite_cmd_dropped {s : State} (h : s.phase = .busy ∨ s.err = true) (w : Word) :
    hostWrite 0x10 w s = { dropWrite s with rsp := some (.write false) } := by
  cases hp : s.phase with
  | busy => exact hostWrite_of_busy hp (decodeAddr_offset s .cmd) w
  | idle =>
    rw [← issueCommand_dropped h w]
    exact hostWrite_reg_of_idle hp .cmd w

/-- Settles O6, from the dropped and the accepted write to `CMD`. -/
theorem commandIssue : Obligations.CommandIssue :=
  fun _ w => ⟨fun h => hostWrite_cmd_dropped h w, fun ⟨hi, he⟩ => hostWrite_cmd_accepted hi he w⟩

/-! ## Completion -/

/-- The latch after a completion: as the pseudocode left it, or holding the error it raised (R252, R276). -/
theorem finish_latch_cases (r : Result) :
    ((finish r).err = r.state.err ∧ (finish r).errCode = r.state.errCode ∧ (finish r).errInfo = r.state.errInfo) ∨
    ((finish r).err = true ∧ (finish r).errCode ≠ 0) := by
  cases r with
  | ok t => exact .inl ⟨rfl, rfl, rfl⟩
  | raised e t => exact .inr ⟨rfl, (errKind_code_range e.kind).1⟩

/-- Settles O7: no pseudocode touches the control part of the state, and the completion writes of it only the phase, `DONE`
and the latch. -/
theorem everyCommandCompletes : Obligations.EveryCommandCompletes := by
  intro i s
  have hc := effect_control i s
  refine ⟨_, exec_eq i s, finish_phase _, finish_done _, ?_, ?_⟩
  · rw [← hc.err, ← hc.errCode, ← hc.errInfo]
    exact finish_latch_cases _
  · obtain ⟨_, _, _, hf⟩ := finish_shape (effectOf i s)
    rw [hf]
    exact ⟨hc.cmd, hc.drop, hc.doneIe, hc.errIe, hc.param1, hc.param2, hc.rstN, hc.inputs, hc.rsp⟩

/-! ## `NOP` -/

theorem exec_nop (s : State) : exec .nop s = .next (finishOk s) := exec_eq .nop s

/-- Settles O13: the completion alone, after an accepted write of word 0, and the refused write. -/
theorem nopCompletes : Obligations.NopCompletes := by
  refine ⟨decode_encode .nop, fun s => ⟨exec_nop s, fun hi he => ?_, fun he => hostWrite_cmd_dropped (.inr he) _⟩⟩
  rw [hostWrite_cmd_accepted hi he, exec_nop]
  simp only [finishOk, acceptCommand, hi]

/-! ## `CLEAR` -/

theorem writePrefix_nil {α : Type} (vs : List α) : Memory.writePrefix [] vs = Memory.ofList vs := List.append_nil _

/-- The elements of an arena that was written whole (R76). -/
theorem nodeAt_ofList {t : State} {nodes : List Node} (hn : t.node = Memory.ofList (arenaWords nodes)) {i : Nat}
    (h : i < nodes.length) : nodeAt t i = nodes[i] :=
  nodeAt_written (s := { t with node := [] }) (hn.trans (writePrefix_nil _).symm) h

theorem exec_clear (s : State) : exec .clear s = .next (finishOk (clearTables s)) := exec_eq .clear s

theorem freqAt_cleared (s : State) {v : Nat} (hv : v < Config.nsym) : freqAt (clearTables s) v = 0 := by
  have hlen : v < (List.replicate Config.nsym (0 : Word)).length := by rwa [List.length_replicate]
  rw [freqAt, clearTables_freq, readWith_ofList _ _ v hlen, List.getElem_replicate]

theorem nodeAt_cleared (s : State) {i : Nat} (hi : i < Config.nodeMax) : nodeAt (clearTables s) i = clearedNode := by
  have hlen : i < (List.replicate Config.nodeMax clearedNode).length := by rwa [List.length_replicate]
  rw [nodeAt_ofList (clearTables_node s) hlen, List.getElem_replicate]

/-- A cleared arena denotes no tree from any index: each of its nodes is Internal, and its left child is no node (R255). -/
theorem not_denotesTree_of_cleared {nodeOf : Nat → Node} (h : ∀ i, i < Config.nodeMax → nodeOf i = clearedNode) (i : Nat)
    (t : Tree) : ¬ DenotesTree nodeOf i t := by
  intro ht
  have hi := h i ht.range
  cases ht with
  | leaf _ tag => exact absurd (tag.symm.trans (congrArg Node.tag hi)) nofun
  | internal _ _ left _ =>
    have hleft := left.range
    rw [hi] at hleft
    exact absurd hleft (by decide)

/-- `TreeCheck` rejects a cleared arena whatever `ROOT` holds (R255). -/
theorem treeCheck_of_cleared {s : State} (h : ∀ i, i < Config.nodeMax → nodeAt s i = clearedNode) : treeCheck s ≠ .ok := by
  intro hok
  obtain ⟨t, -, hdenotes, -⟩ := holds_of_treeCheck hok
  exact not_denotesTree_of_cleared h _ t hdenotes

/-- Settles O14: the three tables are written whole, with entries of which none is a tree. -/
theorem clearZeroesTablesAndOperands : Obligations.ClearZeroesTablesAndOperands := by
  refine ⟨decode_encode .clear, fun s he => hostWrite_cmd_dropped (.inr he) _, fun s => ?_⟩
  refine ⟨_, exec_clear s, rfl, fun v hv => freqAt_cleared s hv, fun v hv => ?_, fun i hi => nodeAt_cleared s hi,
    fun valid k => treeCheck_of_cleared fun i hi => nodeAt_cleared s hi⟩
  exact codeAt_written (f := fun _ => noCode) rfl hv

end Sys2Proof.Machine
end

section
/-! PROOFS. What a command can raise and what a failed `UNPACK` leaves (O12, O41): one lemma per pseudocode that says how it
ends when it raises an error. -/

namespace Sys2Proof.Machine

/-! ## The errors of each pseudocode -/

/-- An error of one of the kinds `ks`; if it is a `BadOperand`, it names one of the three operand registers by its offset (R272). -/
structure RaisedFrom (ks : List ErrKind) (e : CmdError) : Prop where
  kind : e.kind ∈ ks
  operand : e.kind = .badOperand → e.info = 0x020 ∨ e.info = 0x024 ∨ e.info = 0x028

section
variable {ks : List ErrKind} {e : CmdError}

theorem raisedFrom_of_kind {k : ErrKind} (he : e.kind = k) (hk : k ∈ ks) (hne : k ≠ .badOperand) : RaisedFrom ks e where
  kind := he ▸ hk
  operand := fun hop => absurd (he.symm.trans hop) hne

theorem raisedFrom_badSymLen (hk : .badOperand ∈ ks) : RaisedFrom ks badSymLen where
  kind := hk
  operand := fun _ => .inl rfl

end

section
variable {s t : State} {e : CmdError}

theorem analyzeEffect_raised (h : analyzeEffect s = .raised e t) : e = badSymLen := by
  rcases analyzeEffect_cases s with ⟨-, he⟩ | ⟨-, he⟩ <;> rw [he] at h <;> cases h
  rfl

theorem buildEffect_raised {a : Alg} (h : buildEffect a s = .raised e t) : e.kind = .emptyInput := by
  rcases buildEffect_cases a s with ⟨-, he⟩ | ⟨-, nodes, he⟩ <;> rw [he] at h <;> cases h
  rfl

theorem gencodesEffect_raised (h : gencodesEffect s = .raised e t) : e.kind = .malformedTree := by
  rcases gencodesEffect_cases s with ⟨-, he⟩ | ⟨info, -, he⟩ <;> rw [he] at h <;> cases h
  rfl

theorem checktreeEffect_raised (h : checktreeEffect s = .raised e t) : e.kind = .malformedTree := by
  rcases checktreeEffect_cases s with ⟨-, he⟩ | ⟨info, -, he⟩ <;> rw [he] at h <;> cases h
  rfl

theorem packEffect_raised (h : packEffect s = .raised e t) : RaisedFrom (errorsOf .pack) e := by
  rcases packEffect_cases s with ⟨-, he⟩ | ⟨-, e', hkind, -, he⟩ | ⟨-, stream, -, he⟩ <;> rw [he] at h <;> cases h
  · exact raisedFrom_badSymLen (by decide)
  · rcases hkind with hk | hk <;> exact raisedFrom_of_kind hk (by decide) (by decide)

/-- A failed `UNPACK` leaves its failure effects and nothing else, whatever its error (R273, R277). -/
theorem unpackEffect_raised (h : unpackEffect s = .raised e t) : RaisedFrom (errorsOf .unpack) e ∧ t = unpackFailed s := by
  rcases unpackEffect_cases s with ⟨-, he⟩ | ⟨-, e', he, hwhy⟩ | ⟨-, -, -, -, syms, -, he⟩ <;> rw [he] at h <;> cases h
  refine ⟨?_, rfl⟩
  rcases hwhy with ⟨-, rfl⟩ | ⟨-, -, rfl⟩ | ⟨-, -, info, -, rfl⟩ | ⟨-, -, -, -, hkind⟩
  · exact ⟨by decide, fun _ => .inr (.inl rfl)⟩
  · exact ⟨by decide, fun _ => .inr (.inr rfl)⟩
  · exact raisedFrom_of_kind (k := .malformedTree) rfl (by decide) (by decide)
  · rcases hkind with hk | hk <;> exact raisedFrom_of_kind hk (by decide) (by decide)

/-- Past its guard `DECOMPRESS` fails as `UNPACK` does, and only with a tree (R235). -/
theorem decompressEffect_raised (h : decompressEffect s = .raised e t) : unpackEffect s = .raised e t := by
  rcases decompressEffect_cases s with ⟨-, he⟩ | ⟨-, -, he⟩ <;> rw [he] at h
  · cases h
  · exact h

/-- `COMPRESS` raises only the error of its `ANALYZE` on a sequence that is too long, or the `Capacity` of its `PACK`: the tree
it builds has a code for every symbol (R233). -/
theorem compressEffect_raised {a : Alg} (h : compressEffect a s = .raised e t) : RaisedFrom (errorsOf (.compress a)) e := by
  by_cases hempty : s.symLen = 0
  · rw [compressEffect_of_empty a hempty] at h
    cases h
  rcases Nat.lt_or_ge s.maxLen s.symLen.toNat with hlong | hfit
  · rw [compressEffect_of_too_long a hlong] at h
    cases h
    exact raisedFrom_badSymLen (List.mem_cons_of_mem _ (List.mem_singleton_self _))
  · obtain ⟨s3, tr, hcompress, hprep⟩ := compressEffect_prepares a hempty hfit
    rw [hcompress] at h
    rcases hprep.packEffect_cases hfit with ⟨-, he⟩ | ⟨-, e', hkind, he⟩ <;> rw [he] at h <;> cases h
    exact raisedFrom_of_kind hkind List.mem_cons_self (by decide)

end

/-- Every command raises only the errors of its row (R273). -/
theorem effect_raised {i : Instr} {s t : State} {e : CmdError} (h : effectOf i s = .raised e t) : RaisedFrom (errorsOf i) e := by
  cases i with
  | nop => cases h
  | clear => cases h
  | analyze => rw [analyzeEffect_raised h]; exact raisedFrom_badSymLen (by decide)
  | buildSf => exact raisedFrom_of_kind (buildEffect_raised (a := .shannonFano) h) (by decide) (by decide)
  | buildHuf => exact raisedFrom_of_kind (buildEffect_raised (a := .huffman) h) (by decide) (by decide)
  | gencodes => exact raisedFrom_of_kind (gencodesEffect_raised h) (by decide) (by decide)
  | checktree => exact raisedFrom_of_kind (checktreeEffect_raised h) (by decide) (by decide)
  | pack => exact packEffect_raised h
  | unpack => exact (unpackEffect_raised h).1
  | decompress => exact (unpackEffect_raised (decompressEffect_raised h)).1
  | compress a => exact compressEffect_raised h

/-- Settles O12: the latch holds the error the pseudocode raised, which is of the command's row. -/
theorem commandsRaiseOnlyTheirErrors : Obligations.CommandsRaiseOnlyTheirErrors := by
  intro i s t herr ht hraised
  rw [exec_eq] at ht
  cases ht
  obtain ⟨e, u, he⟩ := raised_of_finish_err herr hraised
  obtain ⟨hkind, hoperand⟩ := effect_raised he
  rw [he]
  refine ⟨e.kind, hkind, rfl, ?_, hoperand⟩
  rintro rfl
  exact decompressEffect_malformed he

/-- Settles O41: the completion latches the error on the failure effects of `UNPACK`, which `DECOMPRESS` shares. -/
theorem failedUnpackPresentsNothing : Obligations.FailedUnpackPresentsNothing := by
  intro i s t hi herr ht hraised
  rw [exec_eq] at ht
  cases ht
  obtain ⟨e, u, he⟩ := raised_of_finish_err herr hraised
  have hunpack : unpackEffect s = .raised e u := by
    rcases hi with rfl | rfl
    · exact he
    · exact decompressEffect_raised he
  obtain ⟨-, rfl⟩ := unpackEffect_raised hunpack
  rw [he]
  rfl

end Sys2Proof.Machine
end

section
/-! PROOFS. The latched error and the interrupt (O9, O48, O49): a latched error holds off every command until a write to
`STATUS` clears it. -/

namespace Sys2Proof.Machine

/-! ## While an error is latched -/

theorem coreMove_of_idle {s : State} (hi : s.phase = .idle) : coreMove s = .moved s := by
  rw [coreMove, if_neg (by simp [hi])]

section
variable {s : State} (herr : s.err = true)
include herr

theorem writeReg_of_latched (r : Reg) (v : Word) : (writeReg r v s).phase = s.phase ∧ (writeReg r v s).cmd = s.cmd := by
  cases r with
  | cmd => rw [writeReg, issueCommand_dropped (.inr herr)]; exact ⟨rfl, rfl⟩
  | status => rw [writeReg, writeStatus_eq]; exact ⟨rfl, rfl⟩
  | _ => exact ⟨rfl, rfl⟩

theorem writeTarget_of_latched (t : Target) (v : Word) :
    (writeTarget t v s).phase = s.phase ∧ (writeTarget t v s).cmd = s.cmd := by
  cases t with
  | reg r => exact writeReg_of_latched herr r v
  | _ => exact ⟨rfl, rfl⟩

variable (hi : s.phase = .idle)
include hi

theorem hostWrite_of_latched (a : BitVec 28) (v : Word) : (hostWrite a v s).phase = .idle ∧ (hostWrite a v s).cmd = s.cmd := by
  rw [← hi]
  cases ht : decodeAddr s a with
  | none => rw [hostWrite_refused ht]; exact ⟨rfl, rfl⟩
  | some t => rw [hostWrite_of_idle hi ht]; exact writeTarget_of_latched herr t v

theorem perform_of_latched {i : Input} (hreset : i ≠ .resetLow) :
    (perform i s).result.phase = .idle ∧ (perform i s).result.cmd = s.cmd := by
  cases i with
  | read a =>
    obtain ⟨r, n, hread⟩ := hostRead_shape a s
    rw [perform, hread]
    split <;> exact ⟨hi, rfl⟩
  | write a v =>
    rw [perform]
    split
    · exact hostWrite_of_latched herr hi a v
    · exact ⟨hi, rfl⟩
  | core => rw [perform, coreMove_of_idle hi]; exact ⟨hi, rfl⟩
  | resetLow => exact absurd rfl hreset
  | resetHigh => exact ⟨hi, rfl⟩

end

/-- Settles O9, by cases on the next move: with no command running the core has none to complete, and the one action that
could issue a command is a write to `CMD`, which the latched error drops. -/
theorem noCommandWhileAnErrorIsLatched : Obligations.NoCommandWhileAnErrorIsLatched := by
  intro s t herr hi hreset ht
  cases hin : s.inputs with
  | nil =>
    rw [step_eq, nextMove, hin, coreMove_of_idle hi] at ht
    cases ht
    exact ⟨hi, rfl⟩
  | cons i rest =>
    rw [step_of_inputs hin] at ht
    cases ht
    refine perform_of_latched (s := { s with inputs := rest }) herr hi ?_
    rintro rfl
    exact hreset rest hin

/-! ## Clearing the latch -/

/-- A write to `STATUS` with bit 2 set leaves no error latched (R279). -/
theorem hostWrite_status_clears {v : Word} (hv : v.getLsbD 2 = true) (s : State) :
    hostWrite 0x14 v s =
      { s with
        err := false, errCode := if s.err then 0 else s.errCode, errInfo := if s.err then 0 else s.errInfo
        done := s.done && !v.getLsbD 1, drop := s.drop && !v.getLsbD 4, rsp := some (.write false) } := by
  rw [show hostWrite 0x14 v s = _ from hostWrite_status v s, writeStatus_eq, hv]
  simp only [Bool.not_true, Bool.and_false, Bool.true_and]

/-- Settles O48: the write leaves an idle core idle and without a latched error, so it accepts the next command. -/
theorem errorReturnReopensTheCore : Obligations.ErrorReturnReopensTheCore := by
  intro s v w hv
  have hclear := hostWrite_status_clears hv s
  refine ⟨fun herr => ?_, fun herr => ?_, fun hi => ?_⟩
  · rw [hclear, herr]
    rfl
  · rw [hclear]
    simp only [herr, Bool.false_eq_true, if_false]
  · have hidle : (hostWrite 0x14 v s).phase = .idle := by rw [hclear]; exact hi
    have hquiet : (hostWrite 0x14 v s).err = false := by rw [hclear]
    rw [hostWrite_cmd_accepted hidle hquiet]
    exact ⟨rfl, rfl⟩

/-! ## The interrupt -/

theorem State.irq_iff (s : State) : s.irq = true ↔ (s.doneIe = true ∧ s.done = true) ∨ (s.errIe = true ∧ s.err = true) := by
  simp only [State.irq, Bool.or_eq_true, Bool.and_eq_true]

theorem State.irq_of_quiet {s : State} (hdone : s.done = false) (herr : s.err = false) : s.irq = false := by
  simp only [State.irq, hdone, herr, Bool.and_false, Bool.or_false]

/-- Settles O49: a completion sets `DONE` and keeps the enables; a write of 6 to `STATUS`, and an acceptance, leave `DONE` and
`ERR` at 0. -/
theorem interruptFollowsStatusAndEnables : Obligations.InterruptFollowsStatusAndEnables := by
  refine ⟨rfl, State.irq_iff, fun i s t ht => ?_, fun s => ?_, fun s w hi herr => ?_⟩
  · obtain ⟨t', ht', -, hdone, -, -, -, hdoneIe, herrIe, -⟩ := everyCommandCompletes i s
    obtain rfl : t = t' := Host.Outcome.next.inj (ht.symm.trans ht')
    rw [State.irq_iff, hdone, hdoneIe, herrIe, eq_self_iff_true, and_true]
  · rw [hostWrite_status_clears rfl]
    exact State.irq_of_quiet (Bool.and_false _) rfl
  · rw [hostWrite_cmd_accepted hi herr]
    exact State.irq_of_quiet rfl herr

end Sys2Proof.Machine
end

section
/-! PROOFS. Reset at the pins (O58). -/

namespace Sys2Proof.Machine

/-! ## Entering reset -/

/-- `rst_n` going low leaves the reset state (R47, R310), except for the pin, the constants, the coming actions and the draws. -/
theorem enterReset_eq_reset (s : State) :
    enterReset s =
      { State.reset with
        rstN := false, param1 := s.param1, param2 := s.param2, inputs := s.inputs
        symDraw := s.draws, byteDraw := s.draws + 1, freqDraw := s.draws + 2, nodeDraw := s.draws + 3
        codeDraw := s.draws + 4, draws := s.draws + 5 } := rfl

theorem enterReset_irq (s : State) : (enterReset s).irq = false :=
  State.irq_of_quiet (enterReset_done s) (enterReset_err s)

/-! ## While `rst_n` is low -/

/-- With `rst_n` low the core makes no move of its own (R310). -/
theorem coreMove_of_rstN_low {s : State} (hr : s.rstN = false) : coreMove s = .moved s :=
  if_neg fun h => Bool.false_ne_true (hr.symm.trans h.1)

/-- With `rst_n` low only the reset pin itself moves anything: a host request is not performed and no command runs (R310). -/
theorem perform_of_rstN_low {s : State} (hr : s.rstN = false) {i : Input} (hlow : i ≠ .resetLow) (hhigh : i ≠ .resetHigh) :
    perform i s = .moved s := by
  cases i with
  | read a => rw [perform, hr]; rfl
  | write a v => rw [perform, hr]; rfl
  | core => exact coreMove_of_rstN_low hr
  | resetLow => exact absurd rfl hlow
  | resetHigh => exact absurd rfl hhigh

/-- Settles O58: `enterReset` and `leaveReset` are the steps of the pin, nothing is performed between them, and an idle core has no
command to complete. -/
theorem resetFromAnyState : Obligations.ResetFromAnyState := by
  refine ⟨fun s rest hin => ?_, fun s i rest hr hin hlow hhigh => ?_, fun s rest hin => ?_, fun s hi hin => ?_⟩
  · refine ⟨enterReset { s with inputs := rest }, step_of_inputs hin, enterReset_eq_reset _,
      Nat.le_refl _, Nat.le_add_right _ 1, Nat.le_add_right _ 2, Nat.le_add_right _ 3, Nat.le_add_right _ 4, enterReset_irq _⟩
  · rw [step_of_inputs hin, perform_of_rstN_low (s := { s with inputs := rest }) hr hlow hhigh]
    rfl
  · exact step_of_inputs hin
  · rw [step_eq, nextMove, hin, coreMove_of_idle hi]
    rfl

end Sys2Proof.Machine
end
